-- ==== Sys2Proof/Word.lean ====
section
/-! DEFINITION. The widths of the block's fixed-size quantities (00_scope.md R9, R12; 30_encoding.md R100).
Positions, lengths and counts of stream bytes are natural numbers and have no width. -/

namespace Sys2Proof

/-- R9: a byte, bit 0 least significant. -/
abbrev Byte := BitVec 8

/-- R12: the 32-bit `offset` and `length` fields, and the operand `ARG` of a command. -/
abbrev Word := BitVec 32

/-- R100: the 40-bit command word `CW`. -/
abbrev CommandWord := BitVec 40

end Sys2Proof
end

