-- ==== Sys2Proof/Config.lean ====
section
/-! DEFINITION. What is fixed for the machine: the constants of 00_scope.md R7, each defined once and used by
generator, parser, validator, encoder and decoder alike (70_reset_and_hazards.md R248); and the FREE VALUES that
stand where the spec gives "no value" or "unspecified" (10_state.md R32, 60_exceptions.md R219). -/

namespace Sys2Proof.Config

/-! ## Constants of the format (R7) -/

/-- R7 `HDR_LEN`: the header's length, and the position of the first record. -/
@[simp] abbrev hdrLen : Nat := 0x4E
/-- R7 `OFF_MAGIC`. -/
@[simp] abbrev offMagic : Nat := 0x00
/-- R7: bytes in the magic. -/
@[simp] abbrev lenMagic : Nat := 7
/-- R7 `OFF_DESC`. -/
@[simp] abbrev offDesc : Nat := 0x07
/-- R7: bytes in the description. -/
@[simp] abbrev lenDesc : Nat := 50
/-- R7 `OFF_TYPE`. -/
@[simp] abbrev offType : Nat := 0x39
/-- R7 `OFF_CART`. -/
@[simp] abbrev offCart : Nat := 0x3A
/-- R7: bytes in the cartridge ID, in patch and image alike. -/
@[simp] abbrev lenCart : Nat := 3
/-- R7 `OFF_CRC`. -/
@[simp] abbrev offCrc : Nat := 0x3D
/-- R7: bytes in the CRC, in patch and image alike. -/
@[simp] abbrev lenCrc : Nat := 8
/-- R7 `OFF_RSVD`. -/
@[simp] abbrev offRsvd : Nat := 0x45
/-- R7: reserved bytes. -/
@[simp] abbrev lenRsvd : Nat := 5
/-- R7 `OFF_LEN`. -/
@[simp] abbrev offLen : Nat := 0x4A
/-- R7: bytes in the modified-file length. -/
@[simp] abbrev lenLen : Nat := 4
/-- R7 `IMG_OFF_CRC`. -/
@[simp] abbrev imgOffCrc : Nat := 0x10
/-- R7 `IMG_OFF_CART`. -/
@[simp] abbrev imgOffCart : Nat := 0x3C
/-- R7 `MAX_RUN`: most bytes in one record. -/
@[simp] abbrev maxRun : Nat := 255
/-- R7 `MIN_RLE`: least run length framed as `RLE`. -/
@[simp] abbrev minRle : Nat := 3
/-- R7 `REC_HEAD`: bytes of offset and length byte. -/
@[simp] abbrev recHead : Nat := 5
/-- R7 `RLE_LEN`: bytes of a whole `RLE` record. -/
@[simp] abbrev rleLen : Nat := 7
/-- R7 `IDENT_BYTES`: CRC bytes the identifier uses. -/
@[simp] abbrev identBytes : Nat := 4

/-- R7, R81 `MAGIC`: ASCII `APS10`, then 01, then 00. -/
def magic : List Byte := [0x41, 0x50, 0x53, 0x31, 0x30, 0x01, 0x00]
/-- R7, R82 `DESC_PAD`: the ASCII space. -/
def descPad : Byte := 0x20
/-- R7, R83 `TYPE_IMAGE`. -/
def typeImage : Byte := 0x01
/-- R181: the identifier's suffix `.aps` in ASCII. -/
def suffix : List Byte := [0x2E, 0x61, 0x70, 0x73]

/-! ## Free values
Nothing constrains them: each is a constant without a body. `draw` is the number of the event that
left something without a value (the state counts them), `slot` tells the values of one event apart. -/

/-- A register of `w` bits that holds no value (R32). -/
opaque freeBits (w draw slot : Nat) : BitVec w
/-- A natural-number register that holds no value (`PCUR`, `ERR_POS`). -/
opaque freeNat (draw slot : Nat) : Nat
/-- A one-bit register that holds no value. -/
opaque freeBool (draw slot : Nat) : Bool
/-- `n` bytes that hold no value. -/
opaque freeBytes (n draw slot : Nat) : Vector Byte n
/-- A byte sequence of unspecified length and content: what a failed write leaves (R60, R219). -/
opaque freeStream (draw slot : Nat) : List Byte

end Sys2Proof.Config
end

