-- ==== Sys2Proof/Machine/Memory.lean ====
section
/-! DEFINITION. A stream space (20_memory.md R50): a finite sequence of bytes addressed from 0, with its length, held as
sparse (position, byte) pairs in one canonical form. -/

namespace Sys2Proof.Machine

/-- A stream space: `len` bytes. A position below `len` that `cells` does not list holds 0x00; a position at or above
`len` holds no byte at all. -/
structure Memory where
  len : Nat
  cells : List Host.Cell
deriving DecidableEq, Repr

/-- The space of no byte. -/
def Memory.empty : Memory := ⟨0, []⟩

/-- The byte listed at a position, 0x00 when none is. -/
def lookupCell : List Host.Cell → Nat → Byte
  | [], _ => 0
  | (k, v) :: rest, a => if k = a then v else lookupCell rest a

/-- The listed form of the bytes `s` at positions `a`, `a + 1`, ...: zeros are not listed. -/
def cellsAt : Nat → List Byte → List Host.Cell
  | _, [] => []
  | a, b :: rest => if b = 0 then cellsAt (a + 1) rest else (a, b) :: cellsAt (a + 1) rest

/-- Positions strictly rise from `lo` on, stay below `len`, and no listed byte is 0x00. -/
def cellsWf (lo len : Nat) : List Host.Cell → Bool
  | [] => true
  | (k, v) :: rest => decide (lo ≤ k) && decide (k < len) && decide (v ≠ 0) && cellsWf (k + 1) len rest

/-- The canonical form: equal spaces are equal data. -/
def Memory.wf (m : Memory) : Bool := cellsWf 0 m.len m.cells

/-- The byte at position `a`, meaningful below `len`. -/
def Memory.get (m : Memory) (a : Nat) : Byte := lookupCell m.cells a

/-- What reading position `a` gives: a byte, or nothing past the end of the space. -/
def Memory.byte? (m : Memory) (a : Nat) : Option Byte := if a < m.len then some (m.get a) else none

/-- `S[a..a+n)` as `n` bytes (R57). -/
def Memory.read (m : Memory) (a n : Nat) : Vector Byte n := Vector.ofFn fun i => m.get (a + i.val)

/-- `S[a..b)` as a byte sequence (R9). -/
def Memory.slice (m : Memory) (a b : Nat) : List Byte := (m.read a (b - a)).toList

/-- All the bytes of a space. -/
def Memory.toList (m : Memory) : List Byte := m.slice 0 m.len

/-- The space that holds exactly the bytes `s`. -/
def Memory.ofBytes (s : List Byte) : Memory := ⟨s.length, cellsAt 0 s⟩

/-- The space cut down to its first `n` bytes. -/
def Memory.truncate (m : Memory) (n : Nat) : Memory := ⟨min m.len n, m.cells.filter fun c => decide (c.1 < n)⟩

/-- R59, R170 `put`: the bytes `s` written at `a`; the space grows to hold them, a gap between its old end and `a` reads
0x00, every other byte stays. Writing no byte changes nothing. -/
def Memory.put (m : Memory) (a : Nat) (s : List Byte) : Memory :=
  if s = [] then m
  else
    ⟨max m.len (a + s.length),
      m.cells.filter (fun c => decide (c.1 < a)) ++ cellsAt a s
        ++ m.cells.filter (fun c => decide (a + s.length ≤ c.1))⟩

/-- R58: `S[a..a+len(s)) <- s` and the length becomes `a + len(s)`: an append when `a` is the length. -/
def Memory.putEnd (m : Memory) (a : Nat) (s : List Byte) : Memory := (m.truncate a).put a s

/-- R60, R219: a failed append. Every position from `lo` on, and the length, become unspecified; the bytes below `lo`
stay. -/
def Memory.unspecifyFrom (m : Memory) (lo draw : Nat) : Memory :=
  m.putEnd (min lo m.len) (Config.freeStream draw 0)

/-- R60, R219: a failed write in place. The positions `lo` to `hi - 1` and the length become unspecified, bytes outside
stay: the length still reaches as far as the bytes that stay, and what a new length adds is unspecified too. -/
def Memory.unspecify (m : Memory) (lo hi draw : Nat) : Memory :=
  if m.len ≤ hi then m.unspecifyFrom lo draw
  else (m.put lo (Config.freeBytes (hi - lo) draw 0).toList).put m.len (Config.freeStream draw 0)

end Sys2Proof.Machine
end

