-- ==== Sys2Proof/Machine/State.lean ====
section
/-! DEFINITION. The block's state (10_state.md R20): every register of its table and the three stream spaces with their
lengths; beside them, what stands at the block's edge: the outcome last returned, the host's and the environment's
pending inputs, and the counter of free values. Plain data. -/

namespace Sys2Proof.Machine

/-- R21: the six values of `PHASE`. -/
inductive Phase where
  | idle
  | enc
  | run
  | valid
  | dec
  | fault
deriving DecidableEq, Repr

/-- R50: the three stream spaces. -/
inductive Space where
  | img
  | pat
  | dst
deriving DecidableEq, Repr

/-- R20 `REC_KIND`: 0 = `RLE`, 1 = `LIT`. -/
inductive RecKind where
  | rle
  | lit
deriving DecidableEq, Repr

/-- R210: the three exception kinds. -/
inductive ExcKind where
  | validationError
  | ioError
  | formatError
deriving DecidableEq, Repr

/-- R214 `K(info)`: an exception with the information its kind records (R210). -/
inductive Exc where
  /-- ValidationError: the patch's and the image's eight bytes. -/
  | validation (pat img : Vector Byte Config.lenCrc)
  /-- IoError: the space and the first position of the failing access. -/
  | io (space : Space) (pos : Nat)
  /-- FormatError: the first position of the read that ran past the end of `PAT`. -/
  | format (pos : Nat)
deriving DecidableEq, Repr

/-- R13: how a command ends. -/
inductive CmdOutcome where
  /-- `OK`. -/
  | ok
  /-- `END`: only `RDEC`, no record left. -/
  | endOfPatch
  /-- `FAULT(K)`. -/
  | fault (kind : ExcKind)
  /-- `REFUSED`. -/
  | refused
deriving DecidableEq, Repr

/-- What the host can do to the block, one move between two steps (45_host_sequences.md R203, 70_reset_and_hazards.md R240,
R242). -/
inductive HostMove where
  /-- Issue a command word (R100). -/
  | command (cw : CommandWord)
  /-- Reset the block: a fresh invocation, or the process-level interrupt (R217, R240). -/
  | resetLine
  /-- Bind a stream space to the bytes `s` (R242). -/
  | bind (space : Space) (s : List Byte)
deriving DecidableEq, Repr

/-- Why the machine stops. -/
inductive Fault where
  /-- Raised by `step` when the host binds `space` where R246, R198 or R242 forbid it: `IMG` or `PAT` outside phase
  `IDLE`, `DST` outside phase `VALID`. The spec gives such a host no move (R203). Safe: no state follows. -/
  | hostMovesStream (space : Space)
deriving DecidableEq, Repr

/-- Why an instruction has no meaning. -/
inductive Refusal where
  /-- Raised by `exec` for an instruction without a meaning yet; no arm does. Safe: no state follows. -/
  | notModelled (mnemonic : String)
deriving DecidableEq, Repr

/-- The state of the block and of its edge. -/
structure State where
  /-- `PHASE`, 3 bits (R21). -/
  phase : Phase
  /-- `PCUR`, the patch cursor, a natural number (R24). -/
  pcur : Nat
  /-- `REC_OFF`, 32 bits (R25). -/
  recOff : Word
  /-- `REC_KIND`, 1 bit (R27). -/
  recKind : RecKind
  /-- `RUN_LEN`, 8 bits (R20, R26). -/
  runLen : BitVec 8
  /-- `BUF[0..254]` (R26). -/
  buf : Vector Byte Config.maxRun
  /-- `RLE_CAND`, 1 bit (R22). -/
  rleCand : Bool
  /-- `H_MAGIC` (R28). -/
  hMagic : Vector Byte Config.lenMagic
  /-- `H_DESC` (R28). -/
  hDesc : Vector Byte Config.lenDesc
  /-- `H_TYPE` (R28). -/
  hType : Byte
  /-- `H_CART` (R28). -/
  hCart : Vector Byte Config.lenCart
  /-- `H_CRC` (R28). -/
  hCrc : Vector Byte Config.lenCrc
  /-- `H_RSVD` (R28). -/
  hRsvd : Vector Byte Config.lenRsvd
  /-- `H_LEN`, 32 bits (R28). -/
  hLen : Word
  /-- `IDENT_OUT` (R29). -/
  identOut : Vector Byte 12
  /-- `ERR_KIND`, 2 bits; `none` is its value 0 (R30). -/
  errKind : Option ExcKind
  /-- `ERR_CRC_PAT` (R30). -/
  errCrcPat : Vector Byte Config.lenCrc
  /-- `ERR_CRC_IMG` (R30). -/
  errCrcImg : Vector Byte Config.lenCrc
  /-- `ERR_SPACE`, 2 bits (R20, R30). -/
  errSpace : BitVec 2
  /-- `ERR_POS`, a natural number (R30). -/
  errPos : Nat
  /-- `IMG` and `IMG_LEN` (R31, R51). -/
  img : Memory
  /-- `PAT` and `PAT_LEN` (R31, R52). -/
  pat : Memory
  /-- `DST` and `DST_LEN` (R31, R53). -/
  dst : Memory
  /-- The outcome of the last command, returned to the host (R13); `none` when no command has ended since reset. -/
  outcome : Option CmdOutcome
  /-- The host's moves to come, the next first: an input, not a queue of the block (R247). -/
  host : List HostMove
  /-- `IO_FAIL` (R57, R8): the environment's answers to the accesses to come, the next first, `true` = "fail"; an access
  past the end of the list passes. An input. -/
  env : List Bool
  /-- The number of the next event that leaves something without a value (Config's free values). -/
  draws : Nat
deriving DecidableEq, Repr

/-- R33, R240: the state that reset leaves. `PHASE` is `IDLE` and `ERR_KIND` is 0; every other register holds no value,
here the free values of event `draw`, never zero (R32); what belongs to the host stays. -/
def State.afterReset (draw : Nat) (img pat dst : Memory) (outcome : Option CmdOutcome) (host : List HostMove)
    (env : List Bool) : State where
  phase := .idle
  pcur := Config.freeNat draw 0
  recOff := Config.freeBits 32 draw 1
  recKind := if Config.freeBool draw 2 then .lit else .rle
  runLen := Config.freeBits 8 draw 3
  buf := Config.freeBytes Config.maxRun draw 4
  rleCand := Config.freeBool draw 5
  hMagic := Config.freeBytes Config.lenMagic draw 6
  hDesc := Config.freeBytes Config.lenDesc draw 7
  hType := Config.freeBits 8 draw 8
  hCart := Config.freeBytes Config.lenCart draw 9
  hCrc := Config.freeBytes Config.lenCrc draw 10
  hRsvd := Config.freeBytes Config.lenRsvd draw 11
  hLen := Config.freeBits 32 draw 12
  identOut := Config.freeBytes 12 draw 13
  errKind := none
  errCrcPat := Config.freeBytes Config.lenCrc draw 14
  errCrcImg := Config.freeBytes Config.lenCrc draw 15
  errSpace := Config.freeBits 2 draw 16
  errPos := Config.freeNat draw 17
  img := img
  pat := pat
  dst := dst
  outcome := outcome
  host := host
  env := env
  draws := draw + 1

/-- R33: the machine right after reset, no stream bound yet, nothing issued by the host, no access failed by the
environment (log 3, log 4, log 7). -/
def State.reset : State := State.afterReset 0 Memory.empty Memory.empty Memory.empty none [] []

end Sys2Proof.Machine
end

