-- ==== Sys2Proof/Machine/Flags.lean ====
section
/-! DEFINITION. The block's two flags (10_state.md R22, R23). No command writes any other. -/

namespace Sys2Proof.Machine

/-- R23 `FULL`: not stored, 1 exactly when `RUN_LEN` is `MAX_RUN`, 255. -/
def State.full (s : State) : Bool := s.runLen.toNat == Config.maxRun

/-- R22, R132: `RLE_CAND` after the byte `b` is pushed: cleared when the run has a first byte and `b` differs from it,
never set. -/
def pushedCand (s : State) (b : Byte) : Bool :=
  if 1 ≤ s.runLen.toNat ∧ b ≠ s.buf[0] then false else s.rleCand

end Sys2Proof.Machine
end

