-- ==== Sys2Proof/Syntax.lean ====
section
/-! DEFINITION. The whole instruction set: the two diff records and the eleven commands, one constructor for each of the
thirteen rows of spec/opcode_table.json. -/

namespace Sys2Proof

/-- 30_encoding.md R94: the abstract diff record, a tagged union. -/
inductive Record where
  /-- Write `bytes` at `offset`. -/
  | literal (offset : Word) (bytes : List Byte)
  /-- Write `count` copies of `fill` at `offset`. -/
  | runLength (offset : Word) (fill count : Byte)
deriving DecidableEq, Repr

/-- The rows of spec/opcode_table.json. `rle` and `lit` are the decoder's instructions, found in the patch stream
(R89 to R91); the others are the host's commands (R101). -/
inductive Instr where
  /-- `RLE @offset, fill, count` (R91, R164). -/
  | rle (offset : Word) (fill count : Byte)
  /-- `LIT @offset, [data]` (R90, R163). -/
  | lit (offset : Word) (data : List Byte)
  /-- `RESET` (R241). -/
  | reset
  /-- `HGEN length` (R111). -/
  | hgen (length : Word)
  /-- `RBEGIN offset` (R131). -/
  | rbegin (offset : Word)
  /-- `RPUSH byte` (R132): the operand is `ARG[7:0]` (R100). -/
  | rpush (byte : Byte)
  /-- `RFLUSH` (R133). -/
  | rflush
  /-- `EFIN` (R136). -/
  | efin
  /-- `HPARSE` (R113). -/
  | hparse
  /-- `IDENT` (R180). -/
  | ident
  /-- `CRCCHK` (R150). -/
  | crcchk
  /-- `DCOPY` (R161). -/
  | dcopy
  /-- `RDEC` (R162). -/
  | rdec
deriving DecidableEq, Repr

/-- The instruction that a record of the patch is. -/
def Record.toInstr : Record → Instr
  | .literal offset bytes => .lit offset bytes
  | .runLength offset fill count => .rle offset fill count

/-- Whether an instruction is one of the host's commands (R101), not a record of the patch. -/
def Instr.isCommand : Instr → Bool
  | .rle _ _ _ => false
  | .lit _ _ => false
  | .reset => true
  | .hgen _ => true
  | .rbegin _ => true
  | .rpush _ => true
  | .rflush => true
  | .efin => true
  | .hparse => true
  | .ident => true
  | .crcchk => true
  | .dcopy => true
  | .rdec => true

end Sys2Proof
end

