-- ==== Sys2Proof/WellFormed.lean ====
section
/-! DEFINITION. Which abstract records and instructions have an encoding. -/

namespace Sys2Proof

/-- R94, R95: a literal record carries 1 to 255 bytes (an empty one would carry the RLE marker as its length byte);
every `RunLength` is a record, whatever its count (R98). -/
def Record.wf : Record → Bool
  | .literal _ bytes => decide (1 ≤ bytes.length) && decide (bytes.length ≤ Config.maxRun)
  | .runLength _ _ _ => true

/-- Every instruction is well formed but a `LIT` of no byte or of more than 255. -/
def Instr.wf : Instr → Bool
  | .lit _ data => decide (1 ≤ data.length) && decide (data.length ≤ Config.maxRun)
  | .rle _ _ _ => true
  | .reset => true
  | .hgen _ => true
  | .rbegin _ => true
  | .rpush _ => true
  | .rflush => true
  | .efin => true
  | .hparse => true
  | .ident => true
  | .crcchk => true
  | .dcopy => true
  | .rdec => true

end Sys2Proof
end

