-- ==== Sys2Proof/Decode.lean ====
section
/-! DEFINITION. The two encodings of 30_encoding.md, read and written: the diff record (section 2) and the 40-bit
command word (section 4). Decoding is total and rejects by name; the encoder stands after it. -/

namespace Sys2Proof

/-! ## Byte order (R10, R55) -/

/-- R10 `le32` of the first four bytes of `s`: the byte at the lowest position is the least significant. -/
def le32 (s : List Byte) : Word :=
  BitVec.ofNat 32 ((s.getD 0 0).toNat + 256 * (s.getD 1 0).toNat + 65536 * (s.getD 2 0).toNat
    + 16777216 * (s.getD 3 0).toNat)

/-- R10 `bytes_le32`: `[v[7:0], v[15:8], v[23:16], v[31:24]]`. -/
def bytesLe32 (v : Word) : List Byte :=
  [v.extractLsb' 0 8, v.extractLsb' 8 8, v.extractLsb' 16 8, v.extractLsb' 24 8]

/-! ## What a decoder can say -/

/-- Why bits select no instruction. -/
inductive DecodeError where
  /-- R102: an opcode from 0x0B to 0xFF selects no command. The step answers it with the outcome `REFUSED`. -/
  | reservedOpcode (opcode : Byte)
  /-- R92 `short`: the byte sequence ends inside the record. The decoder answers it with FormatError (R165). -/
  | shortRecord
deriving DecidableEq, Repr

/-- The two things that are encoded: a command word from the host, and record bytes in the patch stream. The same
40 bits mean different things in the two places, so the place is part of what is decoded. -/
inductive CodeWord where
  | command (word : CommandWord)
  | record (bytes : List Byte)
deriving DecidableEq, Repr

/-! ## Decoding a command word (R100 to R102) -/

/-- R100: `CW[7:0]`. -/
def opcodeOf (cw : CommandWord) : Byte := cw.extractLsb' 0 8

/-- R100: `CW[39:8]`, the operand `ARG`. -/
def argOf (cw : CommandWord) : Word := cw.extractLsb' 8 32

/-- R101, R102: the opcode selects the command; commands without an operand ignore `ARG`, `RPUSH` uses `ARG[7:0]`. -/
def decodeCommand (cw : CommandWord) : Except DecodeError Instr :=
  match (opcodeOf cw).toNat with
  | 0x00 => .ok .reset
  | 0x01 => .ok (.hgen (argOf cw))
  | 0x02 => .ok (.rbegin (argOf cw))
  | 0x03 => .ok (.rpush ((argOf cw).extractLsb' 0 8))
  | 0x04 => .ok .rflush
  | 0x05 => .ok .efin
  | 0x06 => .ok .hparse
  | 0x07 => .ok .ident
  | 0x08 => .ok .crcchk
  | 0x09 => .ok .dcopy
  | 0x0A => .ok .rdec
  | _ => .error (.reservedOpcode (opcodeOf cw))

/-! ## Decoding a record (R89 to R93) -/

/-- R89: byte 4 of a record, `lenOrZero`. -/
def lenOrZero (s : List Byte) : Byte := s.getD 4 0

/-- R93: how many bytes follow the five-byte prefix: 2 after the RLE marker 0, else as many as the byte says. -/
def tailLen (n : Byte) : Nat := if n = 0 then Config.rleLen - Config.recHead else n.toNat

/-- R90, R91: the record that a prefix and the bytes after it spell. -/
def recordOf (head tail : List Byte) : Record :=
  if lenOrZero head = 0 then .runLength (le32 head) (tail.getD 0 0) (tail.getD 1 0)
  else .literal (le32 head) tail

/-- R92 `rec_parse`: the record at the front of `s` and its length, or `short`. -/
def decodeRecord (s : List Byte) : Except DecodeError (Record × Nat) :=
  if s.length < Config.recHead then .error .shortRecord
  else if s.length < Config.recHead + tailLen (lenOrZero s) then .error .shortRecord
  else .ok (recordOf (s.take Config.recHead) ((s.drop Config.recHead).take (tailLen (lenOrZero s))),
    Config.recHead + tailLen (lenOrZero s))

/-- The instruction a code word holds; of record bytes, the first record's. -/
def decode : CodeWord → Except DecodeError Instr
  | .command cw => decodeCommand cw
  | .record s =>
    match decodeRecord s with
    | .ok (r, _) => .ok r.toInstr
    | .error e => .error e

/-! ## The encoder -/

/-- R100: the command word with operand `arg` and opcode `opcode`, `ARG * 2^8 + opcode`. -/
def commandWord (arg : Word) (opcode : Byte) : CommandWord := BitVec.ofNat 40 (arg.toNat * 2 ^ 8 + opcode.toNat)

/-- R95 `rec_bytes`. -/
def recBytes : Record → List Byte
  | .literal offset bytes => bytesLe32 offset ++ [BitVec.ofNat 8 bytes.length] ++ bytes
  | .runLength offset fill count => bytesLe32 offset ++ [0x00, fill, count]

/-- The code word of an instruction; a command without an operand is written with `ARG = 0` (R100). -/
def encode : Instr → CodeWord
  | .rle offset fill count => .record (recBytes (.runLength offset fill count))
  | .lit offset data => .record (recBytes (.literal offset data))
  | .reset => .command (commandWord 0 0x00)
  | .hgen length => .command (commandWord length 0x01)
  | .rbegin offset => .command (commandWord offset 0x02)
  | .rpush byte => .command (commandWord (byte.setWidth 32) 0x03)
  | .rflush => .command (commandWord 0 0x04)
  | .efin => .command (commandWord 0 0x05)
  | .hparse => .command (commandWord 0 0x06)
  | .ident => .command (commandWord 0 0x07)
  | .crcchk => .command (commandWord 0 0x08)
  | .dcopy => .command (commandWord 0 0x09)
  | .rdec => .command (commandWord 0 0x0A)

/-! ## The table's words
spec/opcode_table.json gives every row 40 bits, the command rows as a command word and the record rows as the
five-byte prefix of a record read as one little-endian number, and does not say which of the two a number is. -/

/-- The `k` low bytes of `w`, least significant first. -/
def natBytes : Nat → Nat → List Byte
  | _, 0 => []
  | w, k + 1 => BitVec.ofNat 8 w :: natBytes (w / 256) k

/-- R93: the longest record, 5 + 255 bytes. -/
def maxRecordLen : Nat := Config.recHead + Config.maxRun

/-- A table word laid out as the block meets it. Log 12: it is a command word when its low byte is a command's opcode,
else the first bytes of a record, every later byte 0. -/
def layTableWord (nbits w : Nat) : CodeWord :=
  match decodeCommand (BitVec.ofNat 40 (w % 2 ^ nbits)) with
  | .ok _ => .command (BitVec.ofNat 40 (w % 2 ^ nbits))
  | .error _ => .record (natBytes (w % 2 ^ nbits) maxRecordLen)

/-- The instruction that a word of spec/opcode_table.json stands for. -/
def decodeTableWord (nbits w : Nat) : Option Instr :=
  match decode (layTableWord nbits w) with
  | .ok i => some i
  | .error _ => none

end Sys2Proof
end

