-- ==== Sys2Proof/Machine/Operands.lean ====
section
/-! DEFINITION. The forms the block's operands and results take: the codes of its small registers, the header's fields
(30_encoding.md R80 to R88), the framing of a run (41_record_encoder.md R133, R134), the CRC comparison and the hexadecimal
spellings (42_crc_validator.md R151, R152; 44_identifier.md R181, R182). -/

namespace Sys2Proof.Machine

/-! ## Register codes, as the host reads them (R20, R21, R210) -/

/-- R21: the value of `PHASE`. -/
def Phase.code : Phase → BitVec 3
  | .idle => 0
  | .enc => 1
  | .run => 2
  | .valid => 3
  | .dec => 4
  | .fault => 5

/-- R20: the value of `ERR_SPACE`. -/
def Space.code : Space → BitVec 2
  | .img => 0
  | .pat => 1
  | .dst => 2

/-- R20: the value of `REC_KIND`. -/
def RecKind.code : RecKind → BitVec 1
  | .rle => 0
  | .lit => 1

/-- R210: the code of an exception kind. -/
def ExcKind.code : ExcKind → BitVec 2
  | .validationError => 1
  | .ioError => 2
  | .formatError => 3

/-- R20, R30: the value of `ERR_KIND`, 0 for none. -/
def errCode : Option ExcKind → BitVec 2
  | none => 0
  | some k => k.code

/-- The kind of an exception (R210). -/
def Exc.kind : Exc → ExcKind
  | .validation _ _ => .validationError
  | .io _ _ => .ioError
  | .format _ => .formatError

/-! ## The header (R80 to R88) -/

/-- R88 `hdr_bytes`: the 78 bytes the generator writes. -/
def hdrBytes (cart : Vector Byte Config.lenCart) (crc : Vector Byte Config.lenCrc) (length : Word) : List Byte :=
  Config.magic ++ List.replicate Config.lenDesc Config.descPad ++ [Config.typeImage] ++ cart.toList ++ crc.toList
    ++ List.replicate Config.lenRsvd 0x00 ++ bytesLe32 length

/-- The fields of R80's table, raw but for the length. -/
structure Header where
  magic : Vector Byte Config.lenMagic
  desc : Vector Byte Config.lenDesc
  type : Byte
  cart : Vector Byte Config.lenCart
  crc : Vector Byte Config.lenCrc
  rsvd : Vector Byte Config.lenRsvd
  length : Word
deriving DecidableEq, Repr

/-- `h[off..off+n)` (R9). -/
def field (h : Vector Byte Config.hdrLen) (off n : Nat) : Vector Byte n := Vector.ofFn fun i => h.toList.getD (off + i.val) 0

/-- R88 `hdr_parse`: total, it checks nothing (R114). -/
def hdrParse (h : Vector Byte Config.hdrLen) : Header where
  magic := field h Config.offMagic Config.lenMagic
  desc := field h Config.offDesc Config.lenDesc
  type := h.toList.getD Config.offType 0
  cart := field h Config.offCart Config.lenCart
  crc := field h Config.offCrc Config.lenCrc
  rsvd := field h Config.offRsvd Config.lenRsvd
  length := le32 (field h Config.offLen Config.lenLen).toList

/-! ## The run buffer and the record registers (R26, R27) -/

/-- R26: `BUF[0..RUN_LEN)`, the valid bytes of an open run. -/
def State.runBytes (s : State) : List Byte := s.buf.toList.take s.runLen.toNat

/-- `BUF[0..n) <- s` (R131, R162): the buffer of a new run, or of a record just fetched. The other bytes hold no value
(R26), here the free values of event `draw` (log 10). -/
def bufLoad (s : List Byte) (draw : Nat) : Vector Byte Config.maxRun :=
  Vector.ofFn fun i => s.getD i.val (Config.freeBytes Config.maxRun draw 4)[i]

/-- R27: the record that `REC_KIND`, `REC_OFF`, `RUN_LEN` and `BUF` spell after an `RDEC` with outcome `OK`. -/
def State.record (s : State) : Record :=
  match s.recKind with
  | .lit => .literal s.recOff s.runBytes
  | .rle => .runLength s.recOff s.buf[0] s.runLen

/-- R133: the record `RFLUSH` makes of the open run: `RLE` if the run is still a candidate and longer than 2. -/
def State.runRecord (s : State) : Record :=
  if s.rleCand = true ∧ Config.minRle ≤ s.runLen.toNat then .runLength s.recOff s.buf[0] s.runLen
  else .literal s.recOff s.runBytes

/-- R133: the `REC_KIND` of a record. -/
def recordKind : Record → RecKind
  | .literal _ _ => .lit
  | .runLength _ _ _ => .rle

/-- R134 `frame`: the same rule as a function of the run's bytes. -/
def frame (off : Word) (run : List Byte) : Record :=
  if Config.minRle ≤ run.length ∧ ∀ b ∈ run, b = run.headD 0
  then .runLength off (run.headD 0) (BitVec.ofNat 8 run.length)
  else .literal off run

/-! ## The CRC and its spellings -/

/-- R151 `crc_equal`: equal in every one of the 8 bytes. -/
def crcEqual (p g : Vector Byte Config.lenCrc) : Bool :=
  (List.range Config.lenCrc).all fun i => p.toList.getD i 0 == g.toList.getD i 0

/-- R182 `digit`: the ASCII code of a hexadecimal digit, upper case. -/
def hexDigit (v : BitVec 4) : Byte :=
  if v.toNat ≤ 9 then BitVec.ofNat 8 (0x30 + v.toNat) else BitVec.ofNat 8 (0x41 + v.toNat - 10)

/-- R182 `hex2`: two digits, the high nibble first. -/
def hex2 (b : Byte) : List Byte := [hexDigit (b.extractLsb' 4 4), hexDigit (b.extractLsb' 0 4)]

/-- R181 `ident_name` as a byte sequence. -/
def identBytesOf (crc : Vector Byte Config.identBytes) : List Byte :=
  hex2 crc[0] ++ hex2 crc[1] ++ hex2 crc[2] ++ hex2 crc[3] ++ Config.suffix

/-- R181 `ident_name`: 12 bytes. -/
def identName (crc : Vector Byte Config.identBytes) : Vector Byte 12 := ⟨(identBytesOf crc).toArray, rfl⟩

/-- R152: the hexadecimal spelling of an 8-byte value in a ValidationError's report. -/
def crcReport (v : Vector Byte Config.lenCrc) : List Byte := v.toList.flatMap hex2

end Sys2Proof.Machine
end

