-- ==== Sys2Proof/Machine/Ops.lean ====
section
/-! DEFINITION. The operations every command is made of (00_scope.md R11): the accesses to the stream spaces
(20_memory.md R56 to R60), raising an exception (60_exceptions.md R214), refusing (R220), ending a command (R13), and reset
(R240), the only way back from an exception (R218). -/

namespace Sys2Proof.Machine

/-- What `exec` and `step` answer. -/
abbrev Result := Host.Outcome State Fault Refusal

/-- The outcome of an access and the state it leaves: a value, or the exception it raises. -/
abbrev Access (α : Type) := Except Exc α × State

/-! ## How a command ends -/

/-- The state with an outcome returned to the host (R13). -/
def State.returns (s : State) (o : CmdOutcome) : State := { s with outcome := some o }

/-- Ends a command with outcome `OK`. -/
def finish (s : State) : Result := .next (s.returns .ok)

/-- R220 `refuse`: the outcome `REFUSED`, nothing else changed. -/
def refuse (s : State) : Result := .next (s.returns .refused)

/-- R214 `raise K(info)`: `ERR_KIND` and the information registers of `K` are written, the other information registers
hold no value, `PHASE` becomes `FAULT`, the host gets `FAULT(K)`. There is no handler and no saved cursor. -/
def State.raise (s : State) : Exc → State
  | .validation p g =>
    { s with
      phase := .fault, errKind := some .validationError, errCrcPat := p, errCrcImg := g
      errSpace := Config.freeBits 2 s.draws 16, errPos := Config.freeNat s.draws 17
      outcome := some (.fault .validationError), draws := s.draws + 1 }
  | .io sp pos =>
    { s with
      phase := .fault, errKind := some .ioError
      errCrcPat := Config.freeBytes Config.lenCrc s.draws 14, errCrcImg := Config.freeBytes Config.lenCrc s.draws 15
      errSpace := sp.code, errPos := pos
      outcome := some (.fault .ioError), draws := s.draws + 1 }
  | .format pos =>
    { s with
      phase := .fault, errKind := some .formatError
      errCrcPat := Config.freeBytes Config.lenCrc s.draws 14, errCrcImg := Config.freeBytes Config.lenCrc s.draws 15
      errSpace := Space.pat.code, errPos := pos
      outcome := some (.fault .formatError), draws := s.draws + 1 }

/-- Ends a command by raising `e` (R214): a next state, in phase `FAULT`. -/
def raiseExc (e : Exc) (s : State) : Result := .next (s.raise e)

/-- Runs an access and goes on with its value; if it raises, the command stops there (R214). -/
def andThen {α : Type} (r : Access α) (k : α → State → Result) : Result :=
  match r with
  | (.error e, s) => raiseExc e s
  | (.ok a, s) => k a s

/-- R219: what else a command leaves without a value when its access raises. -/
def onRaise {α : Type} (f : State → State) (r : Access α) : Access α :=
  match r with
  | (.error e, s) => (.error e, f s)
  | (.ok a, s) => (.ok a, s)

/-! ## Accesses -/

/-- A stream space of the state. -/
def State.space (s : State) : Space → Memory
  | .img => s.img
  | .pat => s.pat
  | .dst => s.dst

/-- R56: what a read past the end of a space raises: FormatError for `PAT`, IoError for another. -/
def pastEnd (sp : Space) (a : Nat) : Exc :=
  match sp with
  | .pat => .format a
  | .img => .io .img a
  | .dst => .io .dst a

/-- R57, R60: whether the environment fails the next access. -/
def State.ioFails (s : State) : Bool := s.env.headD false

/-- The state after the environment has answered for one access. -/
def State.asked (s : State) : State := { s with env := s.env.tail }

/-- R56, R57 `MemRead(S, a, n)`: the range is checked first, then the environment is asked. A read of no byte is never
issued and never raises. -/
def memRead (sp : Space) (a n : Nat) (s : State) : Access (Vector Byte n) :=
  if n = 0 then (.ok ((s.space sp).read a n), s)
  else if (s.space sp).len < a + n then (.error (pastEnd sp a), s)
  else if s.ioFails then (.error (.io sp a), s.asked)
  else (.ok ((s.space sp).read a n), s.asked)

/-- R58, R60 `MemWrite(PAT, a, s)`: an append. If it fails, `PAT` from `a` on and `PAT_LEN` are unspecified (R219). -/
def writePat (a : Nat) (bs : List Byte) (s : State) : Access Unit :=
  if s.ioFails then
    (.error (.io .pat a), { s.asked with pat := s.pat.unspecifyFrom a s.draws, draws := s.draws + 1 })
  else (.ok (), { s.asked with pat := s.pat.putEnd a bs })

/-- R59, R60 `MemWrite(DST, a, s)`. If it fails, the range, the gap before it and `DST_LEN` are unspecified (R219). -/
def writeDst (a : Nat) (bs : List Byte) (s : State) : Access Unit :=
  if s.ioFails then
    (.error (.io .dst a),
      { s.asked with dst := s.dst.unspecify (min a s.dst.len) (a + bs.length) s.draws, draws := s.draws + 1 })
  else (.ok (), { s.asked with dst := s.dst.put a bs })

/-! ## Registers that lose their values when a command raises (R219) -/

/-- R28, R113: the header latches after an `HPARSE` that raised. -/
def State.loseHeader (s : State) : State :=
  { s with
    hMagic := Config.freeBytes Config.lenMagic s.draws 6, hDesc := Config.freeBytes Config.lenDesc s.draws 7, hType := Config.freeBits 8 s.draws 8
    hCart := Config.freeBytes Config.lenCart s.draws 9, hCrc := Config.freeBytes Config.lenCrc s.draws 10, hRsvd := Config.freeBytes Config.lenRsvd s.draws 11
    hLen := Config.freeBits 32 s.draws 12, draws := s.draws + 1 }

/-- R219: `IDENT_OUT` after an `IDENT` that raised. -/
def State.loseIdent (s : State) : State :=
  { s with identOut := Config.freeBytes 12 s.draws 13, draws := s.draws + 1 }

/-- R219: `DST` and `DST_LEN` after a `DCOPY` that raised. -/
def State.loseDst (s : State) : State :=
  { s with dst := Memory.empty.unspecifyFrom 0 s.draws, draws := s.draws + 1 }

/-! ## Reset, the way out of `FAULT` (R218, R240) -/

/-- R240: reset, from any phase. The spaces, and the inputs at the block's edge, stay. -/
def State.doReset (s : State) : State :=
  State.afterReset s.draws s.img s.pat s.dst none s.host s.env

end Sys2Proof.Machine
end

