-- ==== Sys2Proof/Machine/Decoder.lean ====
section
/-! DEFINITION. 43_record_decoder.md: `DCOPY`, `RDEC`, and the two records `LIT` and `RLE` that `RDEC` performs. -/

namespace Sys2Proof.Machine

/-- R161 `DCOPY`: `DST` becomes a copy of `IMG`, made as one read and one write of the whole (no access when `IMG` is
empty); a failure of either leaves `DST` unspecified (R219). -/
def execDcopy (s : State) : Result :=
  if s.phase ≠ .valid then refuse s
  else if s.img.len = 0 then finish { s with dst := Memory.empty, pcur := Config.hdrLen, phase := .dec }
  else if s.ioFails then raiseExc (.io .img 0) s.asked.loseDst
  else if s.asked.ioFails then raiseExc (.io .dst 0) s.asked.asked.loseDst
  else finish { s.asked.asked with dst := s.img, pcur := Config.hdrLen, phase := .dec }

/-- R163 `LIT @off, [d0 .. d(N-1)]`: its bytes are written to `DST` at its offset. The record registers were written
when `RDEC` committed the fetch. -/
def execLit (offset : Word) (data : List Byte) (s : State) : Result :=
  andThen (writeDst offset.toNat data s) fun _ s => finish s

/-- R164 `RLE @off, fill, count`: `count` copies of `fill` are written to `DST` at its offset; none, and no growth, when
`count` is 0. -/
def execRle (offset : Word) (fill count : Byte) (s : State) : Result :=
  if count = 0 then finish s
  else andThen (writeDst offset.toNat (List.replicate count.toNat fill) s) fun _ s => finish s

/-- R162: a fetched record is performed. -/
def performRecord (r : Record) (s : State) : Result :=
  match r with
  | .literal offset bytes => execLit offset bytes s
  | .runLength offset fill count => execRle offset fill count s

/-- R162 "commit the fetch": the record registers take the record and `PCUR` passes it; the bytes of
`BUF` that are not the record's hold no value (R26). -/
def State.commitRecord (s : State) (r : Record) : State :=
  match r with
  | .literal offset bytes =>
    { s with
      recOff := offset, runLen := BitVec.ofNat 8 bytes.length, recKind := .lit, buf := bufLoad bytes s.draws
      pcur := s.pcur + (Config.recHead + bytes.length), draws := s.draws + 1 }
  | .runLength offset fill count =>
    { s with
      recOff := offset, runLen := count, recKind := .rle, buf := bufLoad [fill] s.draws
      pcur := s.pcur + Config.rleLen, draws := s.draws + 1 }

/-- R162 `RDEC`: at the end of the patch stream the operation ends; else one record is fetched whole (prefix, then the
rest), committed, and performed. -/
def execRdec (s : State) : Result :=
  if s.phase ≠ .dec then refuse s
  else if s.pcur = s.pat.len then .next ({ s with phase := .idle }.returns .endOfPatch)
  else
    andThen (memRead .pat s.pcur Config.recHead s) fun h s =>
    andThen (memRead .pat (s.pcur + Config.recHead) (tailLen (lenOrZero h.toList)) s) fun t s =>
    performRecord (recordOf h.toList t.toList) (s.commitRecord (recordOf h.toList t.toList))

end Sys2Proof.Machine
end

