-- ==== Sys2Proof/Machine/Encoder.lean ====
section
/-! DEFINITION. 41_record_encoder.md: `RBEGIN`, `RPUSH`, `RFLUSH`, `EFIN`. -/

namespace Sys2Proof.Machine

/-- R131 `RBEGIN off`: opens a run. `BUF` is not cleared: its bytes have no value until pushed (log 10). -/
def execRbegin (offset : Word) (s : State) : Result :=
  if s.phase ≠ .enc then refuse s
  else
    finish
      { s with
        recOff := offset, runLen := 0, rleCand := true, phase := .run
        buf := bufLoad [] s.draws, draws := s.draws + 1 }

/-- R132 `RPUSH b`: adds a byte to the open run, refused when the run has 255 (`FULL`, R23). -/
def execRpush (byte : Byte) (s : State) : Result :=
  if s.phase ≠ .run ∨ s.full then refuse s
  else
    finish
      { s with
        rleCand := pushedCand s byte, buf := s.buf.setIfInBounds s.runLen.toNat byte, runLen := s.runLen + 1 }

/-- R133 `RFLUSH`: closes the run and appends its record to `PAT`, refused when the run is empty. -/
def execRflush (s : State) : Result :=
  if s.phase ≠ .run ∨ s.runLen = 0 then refuse s
  else
    andThen (writePat s.pcur (recBytes s.runRecord) s) fun _ t =>
    finish
      { t with
        pcur := s.pcur + (recBytes s.runRecord).length, recKind := recordKind s.runRecord, phase := .enc }

/-- R136 `EFIN`: ends the patch; it does not flush. -/
def execEfin (s : State) : Result :=
  if s.phase ≠ .enc then refuse s else finish { s with phase := .idle }

end Sys2Proof.Machine
end

