-- ==== Sys2Proof/Machine/Header.lean ====
section
/-! DEFINITION. 40_header.md: `HGEN` and `HPARSE`. -/

namespace Sys2Proof.Machine

/-- R111 `HGEN L`: the header goes into an emptied `PAT`, cartridge ID and CRC copied from `IMG`. -/
def execHgen (length : Word) (s : State) : Result :=
  if s.phase ≠ .idle then refuse s
  else
    andThen (memRead .img Config.imgOffCart Config.lenCart s) fun cart s =>
    andThen (memRead .img Config.imgOffCrc Config.lenCrc s) fun crc s =>
    andThen (writePat 0 (hdrBytes cart crc length) { s with pat := Memory.empty }) fun _ s =>
    finish { s with pcur := Config.hdrLen, phase := .enc }

/-- R113: the seven latches take the fields of a parsed header. -/
def State.latch (s : State) (f : Header) : State :=
  { s with
    hMagic := f.magic, hDesc := f.desc, hType := f.type, hCart := f.cart, hCrc := f.crc, hRsvd := f.rsvd
    hLen := f.length }

/-- R113 `HPARSE`: the 78 header bytes of `PAT` are latched; nothing is validated (R114). -/
def execHparse (s : State) : Result :=
  if s.phase ≠ .idle then refuse s
  else
    andThen (onRaise State.loseHeader (memRead .pat 0 Config.hdrLen s)) fun h s =>
    finish (s.latch (hdrParse h))

end Sys2Proof.Machine
end

