-- ==== Sys2Proof/Machine/Identifier.lean ====
section
/-! DEFINITION. 44_identifier.md: `IDENT`. -/

namespace Sys2Proof.Machine

/-- R180 `IDENT`: the name of a patch, from the four CRC bytes at the lowest positions. -/
def execIdent (s : State) : Result :=
  if s.phase ≠ .idle then refuse s
  else
    andThen (onRaise State.loseIdent (memRead .pat Config.offCrc Config.identBytes s)) fun c s =>
    finish { s with identOut := identName c }

end Sys2Proof.Machine
end

