-- ==== Sys2Proof/Machine/System.lean ====
section
/-! DEFINITION. 70_reset_and_hazards.md: the command `RESET`. -/

namespace Sys2Proof.Machine

/-- R241 `RESET`: does what reset does, in every phase. -/
def execReset (s : State) : Result := finish s.doReset

end Sys2Proof.Machine
end

