-- ==== Sys2Proof/Machine/Validator.lean ====
section
/-! DEFINITION. 42_crc_validator.md: `CRCCHK`. -/

namespace Sys2Proof.Machine

/-- R150 `CRCCHK`: the patch's CRC, read first, against the image's; a difference raises ValidationError with both. -/
def execCrcchk (s : State) : Result :=
  if s.phase ≠ .idle then refuse s
  else
    andThen (memRead .pat Config.offCrc Config.lenCrc s) fun p s =>
    andThen (memRead .img Config.imgOffCrc Config.lenCrc s) fun g s =>
    if crcEqual p g then finish { s with phase := .valid } else raiseExc (.validation p g) s

end Sys2Proof.Machine
end

