-- ==== Sys2Proof/Machine/Dispatch.lean ====
section
/-! DEFINITION. The meaning of every instruction, one arm each. -/

namespace Sys2Proof.Machine

/-- One instruction executed at a state: each arm is one call of that instruction's meaning. -/
def exec (i : Instr) (s : State) : Host.Outcome State Fault Refusal :=
  match i with
  | .rle offset fill count => Sys2Proof.Machine.execRle offset fill count s
  | .lit offset data => Sys2Proof.Machine.execLit offset data s
  | .reset => Sys2Proof.Machine.execReset s
  | .hgen length => Sys2Proof.Machine.execHgen length s
  | .rbegin offset => Sys2Proof.Machine.execRbegin offset s
  | .rpush byte => Sys2Proof.Machine.execRpush byte s
  | .rflush => Sys2Proof.Machine.execRflush s
  | .efin => Sys2Proof.Machine.execEfin s
  | .hparse => Sys2Proof.Machine.execHparse s
  | .ident => Sys2Proof.Machine.execIdent s
  | .crcchk => Sys2Proof.Machine.execCrcchk s
  | .dcopy => Sys2Proof.Machine.execDcopy s
  | .rdec => Sys2Proof.Machine.execRdec s

end Sys2Proof.Machine
end

