-- ==== Sys2Proof/Machine/HostSide.lean ====
section
/-! DEFINITION. The host's moves at the block's edge (45_host_sequences.md R203, 70_reset_and_hazards.md R240 to R247). -/

namespace Sys2Proof.Machine

/-- When the host may bind a space: the inputs `IMG` and `PAT` before an operation, that is in `IDLE` (R242, R246);
`DST` before `DCOPY` and not before `CRCCHK` has passed, that is in `VALID` (R198, R242). -/
def hostMayBind (sp : Space) (ph : Phase) : Bool :=
  match sp with
  | .img => ph == .idle
  | .pat => ph == .idle
  | .dst => ph == .valid

/-- The state with a space bound to the bytes `s`. -/
def State.bindSpace (st : State) (sp : Space) (s : List Byte) : State :=
  match sp with
  | .img => { st with img := Memory.ofBytes s }
  | .pat => { st with pat := Memory.ofBytes s }
  | .dst => { st with dst := Memory.ofBytes s }

/-- R102: a command word is decoded and executed; an opcode that selects no command is refused. -/
def issue (cw : CommandWord) (s : State) : Result :=
  match decodeCommand cw with
  | .ok i => exec i s
  | .error _ => refuse s

/-- One move of the host. -/
def hostMove (m : HostMove) (s : State) : Result :=
  match m with
  | .command cw => issue cw s
  | .resetLine => .next s.doReset
  | .bind sp bs => if hostMayBind sp s.phase then .next (s.bindSpace sp bs) else .fault (.hostMovesStream sp)

/-- The state a host move acts on: the move is no longer to come. -/
def State.tookMove (s : State) : State := { s with host := s.host.tail }

/-- One step: the host's next move, or nothing while the host makes none ("the block waits ... for a command", R240). -/
def advance (s : State) : Result :=
  match s.host with
  | [] => .next s
  | m :: _ => hostMove m s.tookMove

/-- The state in which the next step meets the code word `w`: a command word is the host's next move; a record stands in
`PAT` at `PCUR` in phase `DEC`, and the host's next move is `RDEC`, no access of which fails. -/
def State.withCodeWord (s : State) (w : CodeWord) : State :=
  match w with
  | .command cw => { s with host := .command cw :: s.host }
  | .record bs =>
    { s with
      phase := .dec, pcur := Config.hdrLen, pat := Memory.ofBytes (List.replicate Config.hdrLen 0 ++ bs)
      env := [], host := .command (commandWord 0 0x0A) :: s.host }

end Sys2Proof.Machine
end

