-- ==== Sys2Proof/Machine/Step.lean ====
section
/-! DEFINITION. The step of the machine, and how one instruction is placed where the next step meets it. -/

namespace Sys2Proof.Machine

/-- One step: the host's next move (a command run to completion, R14), or waiting. -/
def step (s : State) : Host.Outcome State Fault Refusal := advance s

/-- `s` with a word of spec/opcode_table.json placed so that the very next step runs it. -/
def State.withFetchWord (s : State) (nbits w : Nat) : State := s.withCodeWord (layTableWord nbits w)

end Sys2Proof.Machine
end

