-- ==== Sys2Proof/Machine/Pseudo.lean ====
section
/-! DEFINITION. The pseudo-commands `RENC` and `APPLY` (30_encoding.md R104): fixed sequences of commands. They have no
opcode; the host issues their expansions. -/

namespace Sys2Proof.Machine

/-- R104: commands one after another, stopping at the first whose outcome is not `OK`. -/
def runInstrs : List Instr → State → Result
  | [], s => .next s
  | i :: rest, s =>
    match exec i s with
    | .next t => if t.outcome = some .ok then runInstrs rest t else .next t
    | .fault f => .fault f
    | .refused r => .refused r

/-- R104, R137 `RENC off, [b0 .. b(n-1)]`. -/
def renc (offset : Word) (run : List Byte) : List Instr :=
  .rbegin offset :: (run.map .rpush ++ [.rflush])

/-- R168: `RDEC` until its outcome is not `OK`, at most `n` times. -/
def runRdec (n : Nat) (s : State) : Result := runInstrs (List.replicate n .rdec) s

/-- R169: the most `RDEC`s an `APPLY` issues: one for each record of at least six bytes, and one that ends it. -/
def rdecBound (s : State) : Nat := (s.pat.len - Config.hdrLen) / (Config.recHead + 1) + 1

/-- R104, R168 `APPLY`. -/
def applyPatch (s : State) : Result :=
  runInstrs ([.crcchk, .dcopy] ++ List.replicate (rdecBound s) .rdec) s

end Sys2Proof.Machine
end

