-- ==== Sys2Proof/Machine/HostSequences.lean ====
section
/-! DEFINITION. The host's programs around the block (45_host_sequences.md): the diff scan, CREATE and RENAME. Nothing
here is an operation of the block; APPLY is the pseudo-command `applyPatch`. -/

namespace Sys2Proof.Machine

/-- R191: the virtual original, zero-extended past its end. -/
def virtualByte (o : List Byte) (i : Nat) : Byte := o.getD i 0

/-- R193: the bytes of the difference run that starts at position `i`, where `m` is the rest of the modified image from `i`
on: as long as they differ, at most `room` of them. -/
def diffRun (o : List Byte) : (room : Nat) → (i : Nat) → (m : List Byte) → List Byte
  | 0, _, _ => []
  | _ + 1, _, [] => []
  | room + 1, i, b :: m => if b = virtualByte o i then [] else b :: diffRun o room (i + 1) m

/-- R192, R193, R195, R196: the runs of the rest `m` of the modified image from position `i` on, with their offsets, each
step passing one equal byte or one run; `fuel` bounds the steps. -/
def scanFrom (o : List Byte) : (fuel : Nat) → (i : Nat) → (m : List Byte) → List (Nat × List Byte)
  | 0, _, _ => []
  | _ + 1, _, [] => []
  | fuel + 1, i, b :: m =>
    if b = virtualByte o i then scanFrom o fuel (i + 1) m
    else
      (i, diffRun o Config.maxRun i (b :: m)) ::
        scanFrom o fuel (i + (diffRun o Config.maxRun i (b :: m)).length)
          ((b :: m).drop (diffRun o Config.maxRun i (b :: m)).length)

/-- R196 `scan(O, M)`: the runs of the whole scan. -/
def scanRuns (o m : List Byte) : List (Nat × List Byte) := scanFrom o m.length 0 m

/-- R134, R201: the records that the scan's runs are framed as. -/
def scanRecords (o m : List Byte) : List Record := (scanRuns o m).map fun r => frame (BitVec.ofNat 32 r.1) r.2

/-- R197: the commands of CREATE. -/
def createInstrs (o m : List Byte) : List Instr :=
  .hgen (BitVec.ofNat 32 m.length) ::
    ((scanRuns o m).flatMap (fun r => renc (BitVec.ofNat 32 r.1) r.2) ++ [.efin])

/-- R199: the command of RENAME; the copy under the new name is the host's. -/
def renameInstrs : List Instr := [.ident]

end Sys2Proof.Machine
end

