-- ==== Sys2Proof/Safety.lean ====
section
/-! DEFINITION. The terms in which claims about the block are made: when a command is accepted (R101, R220), what runs
without failure (R57), what a patch body does to an image (R170), and the invariants of 10_state.md R22 and R36. -/

namespace Sys2Proof

/-- The offset of a record, its first position in `DST`. -/
def Record.offset : Record → Word
  | .literal off _ => off
  | .runLength off _ _ => off

/-- The bytes a record writes. -/
def Record.toBytes : Record → List Byte
  | .literal _ bytes => bytes
  | .runLength _ fill count => List.replicate count.toNat fill

end Sys2Proof

namespace Sys2Proof.Machine

/-! ## Acceptance and failure -/

/-- R101: the condition under which a command is not refused; a record is refused nowhere. -/
def State.accepts (s : State) : Instr → Bool
  | .rle _ _ _ => true
  | .lit _ _ => true
  | .reset => true
  | .hgen _ => s.phase == .idle
  | .rbegin _ => s.phase == .enc
  | .rpush _ => s.phase == .run && !s.full
  | .rflush => s.phase == .run && decide (1 ≤ s.runLen.toNat)
  | .efin => s.phase == .enc
  | .hparse => s.phase == .idle
  | .ident => s.phase == .idle
  | .crcchk => s.phase == .idle
  | .dcopy => s.phase == .valid
  | .rdec => s.phase == .dec

/-- R57: the environment passes the next `n` accesses. -/
def State.passes (s : State) (n : Nat) : Prop := ∀ b ∈ s.env.take n, b = false

/-- R57: "`IO_FAIL` always passes". -/
def State.alwaysPasses (s : State) : Prop := ∀ b ∈ s.env, b = false

/-- The state with the environment's next `n` answers taken. -/
def State.askedTimes (s : State) (n : Nat) : State := { s with env := s.env.drop n }

/-- R250: the four kinds of operation. -/
inductive Operation where
  | create
  | apply
  | rename
  | inspect
deriving DecidableEq, Repr

/-- R250: the command whose return ends an operation well. -/
def Operation.lastCommand : Operation → Instr
  | .create => .efin
  | .apply => .rdec
  | .rename => .ident
  | .inspect => .hparse

/-- R250: the outcome with which it does. -/
def Operation.goodOutcome : Operation → CmdOutcome
  | .create => .ok
  | .apply => .endOfPatch
  | .rename => .ok
  | .inspect => .ok

/-- R250: the operation has ended well, when `i` is the command just issued and `t` the state it left. -/
def Operation.endedWell (op : Operation) (i : Instr) (t : State) : Prop :=
  i = op.lastCommand ∧ t.outcome = some op.goodOutcome

/-- R250: an operation has ended badly when a command returned `FAULT(K)`; `t` is the state it left. -/
def State.endedBadly (t : State) : Prop := ∃ k, t.outcome = some (.fault k)

/-! ## What a patch body does to an image (R170) -/

/-- R170 `apply1`. -/
def apply1 (d : Memory) : Record → Memory
  | .literal offset bytes => d.put offset.toNat bytes
  | .runLength offset fill count => d.put offset.toNat (List.replicate count.toNat fill)

/-- R170: records applied in stream order. -/
def applyRecords (d : Memory) (rs : List Record) : Memory := rs.foldl apply1 d

/-- The bytes of a body that is the records `rs` one after another (R99). -/
def bodyBytes (rs : List Record) : List Byte := rs.flatMap recBytes

/-- R99, R170: the records of a body, `none` when it ends inside a record; `fuel` bounds their number. -/
def parseBody : (fuel : Nat) → (body : List Byte) → Option (List Record)
  | _, [] => some []
  | 0, _ :: _ => none
  | fuel + 1, b :: rest =>
    match decodeRecord (b :: rest) with
    | .error _ => none
    | .ok (r, k) => (parseBody fuel ((b :: rest).drop k)).map (r :: ·)

/-- R170 `apply_all`; `none` is its FormatError. -/
def applyAll (d : Memory) (body : List Byte) : Option Memory := (parseBody body.length body).map (applyRecords d)

/-- The body of the patch up to position `b` (R64). -/
def State.bodyTo (s : State) (b : Nat) : List Byte := s.pat.slice Config.hdrLen b

/-! ## What stays -/

/-- The same bytes at every position of two spaces, and the same length. -/
def SameBytes (m m' : Memory) : Prop := m'.len = m.len ∧ ∀ a, m'.byte? a = m.byte? a

/-- No stream space changed. -/
def SameStreams (s t : State) : Prop := SameBytes s.img t.img ∧ SameBytes s.pat t.pat ∧ SameBytes s.dst t.dst

/-- The header latches kept their values (R28). -/
def SameHeader (s t : State) : Prop :=
  t.hMagic = s.hMagic ∧ t.hDesc = s.hDesc ∧ t.hType = s.hType ∧ t.hCart = s.hCart ∧ t.hCrc = s.hCrc
    ∧ t.hRsvd = s.hRsvd ∧ t.hLen = s.hLen

/-- The error registers kept their values (R30). -/
def SameErrors (s t : State) : Prop :=
  t.errKind = s.errKind ∧ t.errCrcPat = s.errCrcPat ∧ t.errCrcImg = s.errCrcImg ∧ t.errSpace = s.errSpace
    ∧ t.errPos = s.errPos

/-- The record registers, `BUF` and the flag kept their values (R25 to R27, R22). -/
def SameRecord (s t : State) : Prop :=
  t.recOff = s.recOff ∧ t.recKind = s.recKind ∧ t.runLen = s.runLen ∧ t.buf = s.buf ∧ t.rleCand = s.rleCand

/-- R59: `m` is `d` with the bytes `bs` written at `a`: it reaches to the end of the write, a gap between its old end and
`a` reads 0x00, every other byte is the old one. -/
def WroteAt (d m : Memory) (a : Nat) (bs : List Byte) : Prop :=
  m.len = max d.len (a + bs.length)
  ∧ (∀ i, i < bs.length → m.byte? (a + i) = some (bs.getD i 0))
  ∧ (∀ p, d.len ≤ p → p < a → m.byte? p = some 0)
  ∧ ∀ p, p < d.len → ¬(a ≤ p ∧ p < a + bs.length) → m.byte? p = d.byte? p

/-- R60, R219: the bytes of `d` outside the `n` positions from `a` on are there in `m` as before. -/
def KeptOutside (d m : Memory) (a n : Nat) : Prop :=
  ∀ p, p < d.len → ¬(a ≤ p ∧ p < a + n) → m.byte? p = d.byte? p

/-- R11: the bytes of `PAT` from `PCUR` to its end, what an `RDEC` reads its record from. -/
def State.restOfPatch (s : State) : List Byte := s.pat.slice s.pcur s.pat.len

/-! ## Invariants -/

/-- The three spaces are in canonical form. -/
def State.memWf (s : State) : Prop := s.img.wf = true ∧ s.pat.wf = true ∧ s.dst.wf = true

/-- R36: `ERR_KIND` is not 0 exactly in phase `FAULT`. -/
def State.errInv (s : State) : Prop := s.phase = .fault ↔ s.errKind ≠ none

/-- R22, R36: in phase `RUN`, `RLE_CAND` is 1 exactly when every byte of the run equals its first. -/
def State.runInv (s : State) : Prop :=
  s.phase = .run → (s.rleCand = true ↔ ∀ b ∈ s.runBytes, b = s.buf[0])

/-- R36: in `ENC` and `RUN`, `PAT_LEN = PCUR`, `PAT` begins with a generated header, and the records flushed so far follow
it, one after another. -/
def State.encInv (s : State) : Prop :=
  s.phase = .enc ∨ s.phase = .run →
    s.pat.len = s.pcur ∧ Config.hdrLen ≤ s.pcur
    ∧ (∃ cart crc length, s.pat.slice 0 Config.hdrLen = hdrBytes cart crc length)
    ∧ ∃ rs, (∀ r ∈ rs, r.wf = true) ∧ s.bodyTo s.pcur = bodyBytes rs

/-- R36: in `VALID` and `DEC`, the CRC fields of patch and image are there and equal. -/
def State.crcInv (s : State) : Prop :=
  s.phase = .valid ∨ s.phase = .dec →
    Config.offCrc + Config.lenCrc ≤ s.pat.len ∧ Config.imgOffCrc + Config.lenCrc ≤ s.img.len
    ∧ s.pat.slice Config.offCrc (Config.offCrc + Config.lenCrc)
      = s.img.slice Config.imgOffCrc (Config.imgOffCrc + Config.lenCrc)

/-- R36: in `DEC`, `PCUR` is at or past the header's end and `DST` is `IMG` with the records before `PCUR` applied in
order. -/
def State.decInv (s : State) : Prop :=
  s.phase = .dec →
    Config.hdrLen ≤ s.pcur
    ∧ ∃ rs, (∀ r ∈ rs, r.wf = true) ∧ s.bodyTo s.pcur = bodyBytes rs ∧ s.dst = applyRecords s.img rs

/-- R32: two states that agree wherever the phase gives a register a value that a command can read. -/
structure SameKnown (s t : State) : Prop where
  phase : s.phase = t.phase
  errKind : s.errKind = t.errKind
  img : s.img = t.img
  pat : s.pat = t.pat
  dst : s.dst = t.dst
  outcome : s.outcome = t.outcome
  host : s.host = t.host
  env : s.env = t.env
  draws : s.draws = t.draws
  pcur : s.phase = .enc ∨ s.phase = .run ∨ s.phase = .dec → s.pcur = t.pcur
  run : s.phase = .run →
    s.recOff = t.recOff ∧ s.runLen = t.runLen ∧ s.rleCand = t.rleCand ∧ s.runBytes = t.runBytes

end Sys2Proof.Machine
end

