-- ==== Sys2Proof/Certificates/Slice0/Obligations.lean ====
section
/-! DEFINITION. The statements for the provers, in the terms of Safety.lean. A record update in a conclusion
(`.next { s with … }`) says both what is written and that every field it does not name stays. Where a premise or a value is
the model's own choice, the docstring names the log entry. -/

open Sys2Proof Sys2Proof.Machine

/-! ## Encodings -/

/-- Words written out from R100, R101, R90 and R91, and what each stands for: the vectors V30-5, V30-6, V30-16, V40-1,
V41-17 and the command words of programs P1 to P3. -/
def Obligations.WrittenOutWordsDecode : Prop :=
  decode (.command 0x0000000000) = .ok .reset
  ∧ decode (.command 0x1234567801) = .ok (.hgen 0x12345678)
  ∧ decode (.command 0x000001F402) = .ok (.rbegin 0x1F4)
  ∧ decode (.command 0x000001FF03) = .ok (.rpush 0xFF)
  ∧ decode (.command 0x0000000004) = .ok .rflush
  ∧ decode (.command 0x0000000005) = .ok .efin
  ∧ decode (.command 0x0000000006) = .ok .hparse
  ∧ decode (.command 0x0000000007) = .ok .ident
  ∧ decode (.command 0x0000000008) = .ok .crcchk
  ∧ decode (.command 0x0000000009) = .ok .dcopy
  ∧ decode (.command 0x000000000A) = .ok .rdec
  ∧ decode (.record [0x64, 0x00, 0x00, 0x00, 0x00, 0xFF, 0x04]) = .ok (.rle 100 0xFF 4)
  ∧ decode (.record [0xF4, 0x01, 0x00, 0x00, 0x01, 0x7A]) = .ok (.lit 500 [0x7A])

/-- Every well-formed instruction is read back from its own encoding, with every operand at every value. -/
def Obligations.EveryInstructionDecodesFromItsEncoding : Prop :=
  ∀ i : Instr, i.wf = true → decode (encode i) = .ok i

/-- R96: a record is read back from the front of any bytes that begin with it, and the bytes a record was read from are
its bytes. -/
def Obligations.RecordBytesAndRecordsCorrespond : Prop :=
  (∀ (r : Record) (t : List Byte), r.wf = true → decodeRecord (recBytes r ++ t) = .ok (r, (recBytes r).length))
  ∧ ∀ (s : List Byte) (r : Record) (k : Nat), decodeRecord s = .ok (r, k) →
      r.wf = true ∧ k ≤ s.length ∧ recBytes r = s.take k

/-- R92, R93, R98: a record fails to parse only because its bytes end, before the five-byte prefix is whole or before the
2 bytes after a marker 0, or the N bytes after a length N. -/
def Obligations.RecordIsShortExactlyWhenItsBytesEnd : Prop :=
  ∀ s : List Byte,
    (decodeRecord s = .error .shortRecord ↔
      s.length < 5 ∨ (lenOrZero s = 0 ∧ s.length < 7) ∨ (lenOrZero s ≠ 0 ∧ s.length < 5 + (lenOrZero s).toNat))
    ∧ ∀ e, decodeRecord s = .error e → e = .shortRecord

/-- R100: the operand is `CW[39:8]`; commands without an operand ignore it, `RPUSH` uses its low byte. -/
def Obligations.OperandBitsAreReadOrIgnored : Prop :=
  ∀ arg : Word,
    decodeCommand (commandWord arg 0x00) = .ok .reset
    ∧ decodeCommand (commandWord arg 0x01) = .ok (.hgen arg)
    ∧ decodeCommand (commandWord arg 0x02) = .ok (.rbegin arg)
    ∧ decodeCommand (commandWord arg 0x03) = .ok (.rpush (arg.setWidth 8))
    ∧ decodeCommand (commandWord arg 0x04) = .ok .rflush
    ∧ decodeCommand (commandWord arg 0x05) = .ok .efin
    ∧ decodeCommand (commandWord arg 0x06) = .ok .hparse
    ∧ decodeCommand (commandWord arg 0x07) = .ok .ident
    ∧ decodeCommand (commandWord arg 0x08) = .ok .crcchk
    ∧ decodeCommand (commandWord arg 0x09) = .ok .dcopy
    ∧ decodeCommand (commandWord arg 0x0A) = .ok .rdec

/-- R102: an opcode from 0x0B on selects no command; the step refuses it in every phase and changes nothing. -/
def Obligations.ReservedOpcodeIsRefusedInEveryPhase : Prop :=
  ∀ (s : State) (cw : CommandWord) (rest : List HostMove), s.host = .command cw :: rest →
    0x0B ≤ (cw.extractLsb' 0 8).toNat →
      decodeCommand cw = .error (.reservedOpcode (cw.extractLsb' 0 8))
      ∧ step s = .next { s with host := rest, outcome := some .refused }

/-! ## Steps and reset -/

/-- R14, R247: the step runs the command the host issues next, the move taken off the host's list; with no move it
waits (R240, log 6). -/
def Obligations.StepRunsTheIssuedCommand : Prop :=
  (∀ (s : State) (cw : CommandWord) (rest : List HostMove) (i : Instr), s.host = .command cw :: rest →
    decode (.command cw) = .ok i → step s = exec i { s with host := rest })
  ∧ ∀ s : State, s.host = [] → step s = .next s

/-- R33: after reset `PHASE` is `IDLE` and `ERR_KIND` is 0, from reset itself and from the reset input in any state, which
leaves the spaces alone (R240). That the reset state has empty spaces is the model's choice (log 4), not stated here. -/
def Obligations.ResetGivesIdleWithoutError : Prop :=
  (State.reset.phase = .idle ∧ State.reset.errKind = none)
  ∧ ∀ (s : State) (rest : List HostMove), s.host = .resetLine :: rest →
      ∃ t, step s = .next t ∧ t.phase = .idle ∧ t.errKind = none
        ∧ t.img = s.img ∧ t.pat = s.pat ∧ t.dst = s.dst ∧ t.host = rest

/-- R241: `RESET` is accepted in every phase and leaves what reset leaves: every register but `PHASE` and `ERR_KIND` holds
no value (the free values of a fresh draw, log 2), the spaces stay. -/
def Obligations.ResetCommandDoesWhatResetDoes : Prop :=
  ∀ (s : State) (arg : Word), decodeCommand (commandWord arg 0x00) = .ok .reset
    ∧ exec .reset s = .next (State.afterReset s.draws s.img s.pat s.dst (some .ok) s.host s.env)
    ∧ (State.afterReset s.draws s.img s.pat s.dst (some .ok) s.host s.env).phase = .idle
    ∧ (State.afterReset s.draws s.img s.pat s.dst (some .ok) s.host s.env).errKind = none

/-- R220: a command whose condition of R101 does not hold is refused and changes nothing; one whose condition holds is not
refused. -/
def Obligations.RefusedExactlyWhenNotAccepted : Prop :=
  (∀ (i : Instr) (s : State), s.accepts i = false → exec i s = .next { s with outcome := some .refused })
  ∧ (∀ (i : Instr) (s : State), s.accepts i = true → ∃ t, exec i s = .next t ∧ t.outcome ≠ some .refused)
  ∧ ∀ (s : State) (cw : CommandWord) (rest : List HostMove) (e : DecodeError), s.host = .command cw :: rest →
      decodeCommand cw = .error e → step s = .next { s with host := rest, outcome := some .refused }

/-- R21's table: the only ways `PHASE` changes, each with the instruction that makes it. Any raise enters `FAULT`, and only
`RESET` leaves it. -/
def Obligations.PhaseMovesOnlyAlongItsTable : Prop :=
  ∀ (i : Instr) (s t : State), exec i s = .next t → t.phase ≠ s.phase →
    (i = .reset ∧ t.phase = .idle)
    ∨ (s.phase ≠ .fault ∧ t.phase = .fault ∧ ∃ k, t.outcome = some (.fault k))
    ∨ (s.phase = .idle ∧ t.phase = .enc ∧ ∃ n, i = .hgen n)
    ∨ (s.phase = .idle ∧ t.phase = .valid ∧ i = .crcchk)
    ∨ (s.phase = .enc ∧ t.phase = .run ∧ ∃ off, i = .rbegin off)
    ∨ (s.phase = .enc ∧ t.phase = .idle ∧ i = .efin)
    ∨ (s.phase = .run ∧ t.phase = .enc ∧ i = .rflush)
    ∨ (s.phase = .valid ∧ t.phase = .dec ∧ i = .dcopy)
    ∨ (s.phase = .dec ∧ t.phase = .idle ∧ i = .rdec ∧ t.outcome = some .endOfPatch)

/-- R215, R218, R220: in `FAULT`, every command but `RESET` is refused, and a step that is no reset changes nothing but the
outcome returned: `PHASE`, the error registers and everything else stay. That the step answers no next state when the
host binds a space in `FAULT` is the model's choice (log 6). -/
def Obligations.FaultStaysUntilReset : Prop :=
  ∀ s t : State, s.phase = .fault → step s = .next t → s.host.head? ≠ some .resetLine →
    (∀ cw, s.host.head? = some (.command cw) → decodeCommand cw ≠ .ok .reset) →
    t = { s with host := s.host.tail, outcome := t.outcome }
    ∧ ∀ cw, s.host.head? = some (.command cw) → t.outcome = some .refused

/-- R20's column "written by": a register changes only by the commands that column names, by a raise (the error registers
and `PHASE`), or by `RESET`. The two records write `DST` alone, beside a raise. `RBEGIN` does not write `BUF`, whose bytes have no value
from then on until pushed (R26, R131): the model draws them afresh (log 10). -/
def Obligations.RegistersChangeOnlyByTheirCommands : Prop :=
  ∀ (i : Instr) (s t : State), exec i s = .next t → i ≠ .reset →
    (t.pcur ≠ s.pcur → (∃ n, i = .hgen n) ∨ i = .rflush ∨ i = .dcopy ∨ i = .rdec)
    ∧ (t.recOff ≠ s.recOff → (∃ off, i = .rbegin off) ∨ i = .rdec)
    ∧ (t.recKind ≠ s.recKind → i = .rflush ∨ i = .rdec)
    ∧ (t.runLen ≠ s.runLen → (∃ off, i = .rbegin off) ∨ (∃ b, i = .rpush b) ∨ i = .rdec)
    ∧ (t.buf ≠ s.buf → (∃ off, i = .rbegin off) ∨ (∃ b, i = .rpush b) ∨ i = .rdec)
    ∧ (t.rleCand ≠ s.rleCand → (∃ off, i = .rbegin off) ∨ ∃ b, i = .rpush b)
    ∧ (¬SameHeader s t → i = .hparse)
    ∧ (t.identOut ≠ s.identOut → i = .ident)
    ∧ (¬SameErrors s t → t.phase = .fault ∧ ∃ k, t.errKind = some k ∧ t.outcome = some (.fault k))

/-- R51 to R53: no instruction writes `IMG`; only `HGEN` and `RFLUSH` write `PAT`; only `DCOPY`, `RDEC` and the records it
performs write `DST`. -/
def Obligations.SpacesChangeOnlyByTheirCommands : Prop :=
  ∀ (i : Instr) (s t : State), exec i s = .next t →
    t.img = s.img
    ∧ (t.pat ≠ s.pat → (∃ n, i = .hgen n) ∨ i = .rflush)
    ∧ (t.dst ≠ s.dst → i = .dcopy ∨ i = .rdec ∨ (∃ off d, i = .lit off d) ∨ ∃ off f n, i = .rle off f n)

/-! ## Header -/

/-- R80, R88: the generated header is 78 bytes, each field at its place. -/
def Obligations.HeaderFieldsStandAtTheirOffsets : Prop :=
  ∀ (cart : Vector Byte 3) (crc : Vector Byte 8) (n : Word) (h : Vector Byte 78), h.toList = hdrBytes cart crc n →
    (hdrParse h).magic = #v[0x41, 0x50, 0x53, 0x31, 0x30, 0x01, 0x00]
    ∧ (hdrParse h).desc = Vector.replicate 50 0x20
    ∧ (hdrParse h).type = 0x01
    ∧ (hdrParse h).cart = cart
    ∧ (hdrParse h).crc = crc
    ∧ (hdrParse h).rsvd = Vector.replicate 5 0x00
    ∧ (hdrParse h).length = n

/-- R111: in `IDLE`, with an image that holds both fields and no access failed, `HGEN L` empties `PAT`, writes the header
into it and opens the encoder; nothing else changes. -/
def Obligations.HgenWritesTheHeader : Prop :=
  ∀ (s : State) (n : Word), s.phase = .idle → 0x3F ≤ s.img.len → s.passes 3 →
    ∃ m : Memory,
      exec (.hgen n) s = .next { s with
        pat := m, pcur := 0x4E, phase := .enc, env := s.env.drop 3, outcome := some .ok }
      ∧ m.len = 78 ∧ m.slice 0 78 = hdrBytes (s.img.read 0x3C 3) (s.img.read 0x10 8) n

/-- R111, R219: where `HGEN` raises. A short image is reported at 0x3C and leaves `PAT` untouched, as does a failed read; a
failed write leaves `PAT` unspecified. `PCUR` is not written. -/
def Obligations.HgenRaisesIoError : Prop :=
  ∀ (s : State) (n : Word), s.phase = .idle →
    (s.img.len < 0x3F → exec (.hgen n) s = .next (s.raise (.io .img 0x3C)))
    ∧ (0x3F ≤ s.img.len → ∀ rest, s.env = true :: rest →
        exec (.hgen n) s = .next ({ s with env := rest }.raise (.io .img 0x3C)))
    ∧ (0x3F ≤ s.img.len → ∀ rest, s.env = false :: true :: rest →
        exec (.hgen n) s = .next ({ s with env := rest }.raise (.io .img 0x10)))
    ∧ (0x3F ≤ s.img.len → ∀ rest, s.env = false :: false :: true :: rest →
        ∃ m, exec (.hgen n) s =
          .next ({ s with env := rest, pat := m, draws := s.draws + 1 }.raise (.io .pat 0)))

/-- R113: in `IDLE`, with 78 bytes in `PAT` and the read not failed, `HPARSE` latches the seven fields and nothing else,
whatever the bytes are (R114); a shorter `PAT` raises FormatError at 0. After a raise the latches hold no value (R113,
R219), in the model the free values of `loseHeader` (log 2, the model's choice). -/
def Obligations.HparseLatchesTheHeader : Prop :=
  ∀ (s : State) (arg : Word), decodeCommand (commandWord arg 0x06) = .ok .hparse
    ∧ (s.phase ≠ .idle → exec .hparse s = .next { s with outcome := some .refused })
    ∧ (s.phase = .idle → 78 ≤ s.pat.len → s.passes 1 →
        exec .hparse s = .next { s with
          hMagic := s.pat.read 0x00 7, hDesc := s.pat.read 0x07 50, hType := s.pat.get 0x39, hCart := s.pat.read 0x3A 3
          hCrc := s.pat.read 0x3D 8, hRsvd := s.pat.read 0x45 5, hLen := le32 (s.pat.slice 0x4A 0x4E)
          env := s.env.drop 1, outcome := some .ok })
    ∧ (s.phase = .idle → s.pat.len < 78 → exec .hparse s = .next (s.loseHeader.raise (.format 0)))
    ∧ (s.phase = .idle → 78 ≤ s.pat.len → ∀ rest, s.env = true :: rest →
        exec .hparse s = .next ({ s with env := rest }.loseHeader.raise (.io .pat 0)))

/-- R115: what `HGEN L` wrote, `HPARSE` reads back after `EFIN`, and a following `CRCCHK` against the same image passes. -/
def Obligations.GeneratedHeaderParsesAndValidates : Prop :=
  ∀ (s : State) (n : Word), s.phase = .idle → 0x3F ≤ s.img.len → s.passes 6 →
    ∃ t, runInstrs [.hgen n, .efin, .hparse, .crcchk] s = .next t ∧ t.outcome = some .ok ∧ t.phase = .valid
      ∧ t.hMagic.toList = Config.magic ∧ t.hDesc = Vector.replicate 50 0x20 ∧ t.hType = 0x01
      ∧ t.hCart = s.img.read 0x3C 3 ∧ t.hCrc = s.img.read 0x10 8 ∧ t.hRsvd = Vector.replicate 5 0x00 ∧ t.hLen = n

/-! ## Record encoder -/

/-- R131: in `ENC`, `RBEGIN off` opens a run of no byte at any offset; elsewhere it is refused. It raises nothing and
touches no space. The bytes of `BUF` have no value until pushed: any buffer `u`, by a fresh draw (log 10, the model's
choice). -/
def Obligations.RbeginOpensARun : Prop :=
  ∀ (s : State) (off : Word), decodeCommand (commandWord off 0x02) = .ok (.rbegin off)
    ∧ (s.phase ≠ .enc → exec (.rbegin off) s = .next { s with outcome := some .refused })
    ∧ (s.phase = .enc → ∃ (u : Vector Byte 255) (t : State), exec (.rbegin off) s = .next t
        ∧ t = { s with
            recOff := off, runLen := 0, rleCand := true, phase := .run, buf := u, draws := s.draws + 1
            outcome := some .ok }
        ∧ t.full = false ∧ t.runBytes = [])

/-- R132: `RPUSH b` adds `b` to the open run at `BUF[RUN_LEN]`; the flag is cleared when `b` differs from the run's first
byte and never set; `FULL` becomes 1 at the 255th byte; the 256th push is refused. -/
def Obligations.RpushAddsAByte : Prop :=
  ∀ (s : State) (arg : Word) (b : Byte), decodeCommand (commandWord arg 0x03) = .ok (.rpush (arg.setWidth 8))
    ∧ (s.phase ≠ .run ∨ s.runLen = 255 → exec (.rpush b) s = .next { s with outcome := some .refused })
    ∧ (s.phase = .run → s.runLen ≠ 255 → ∃ (c : Bool) (u : Vector Byte 255) (t : State),
        exec (.rpush b) s = .next t
        ∧ t = { s with rleCand := c, buf := u, runLen := s.runLen + 1, outcome := some .ok }
        ∧ t.runLen.toNat = s.runLen.toNat + 1 ∧ (t.full = true ↔ s.runLen.toNat = 254)
        ∧ (c = true ↔ s.rleCand = true ∧ (s.runLen = 0 ∨ b = s.buf[0]))
        ∧ ∀ j : Fin 255, u[j] = if j.val = s.runLen.toNat then b else s.buf[j])

/-- R133: `RFLUSH` appends the run's record (an RLE when the run is still a candidate and longer than 2, else a literal) at
`PCUR`, the end of `PAT`, moves `PCUR` past it, and closes the run. -/
def Obligations.RflushAppendsTheRunsRecord : Prop :=
  ∀ (s : State) (r : Record), s.phase = .run → s.runLen ≠ 0 → s.pat.len = s.pcur → s.passes 1 →
    r = (if s.rleCand = true ∧ 2 < s.runLen.toNat then .runLength s.recOff s.buf[0] s.runLen
      else .literal s.recOff (s.buf.toList.take s.runLen.toNat)) →
    ∃ m : Memory,
      exec .rflush s = .next { s with
        pat := m, pcur := s.pcur + (recBytes r).length, recKind := recordKind r, phase := .enc
        env := s.env.drop 1, outcome := some .ok }
      ∧ WroteAt s.pat m s.pcur (recBytes r)

/-- R133, R219: `RFLUSH` outside an open non-empty run is refused; when its write fails, the patch before `PCUR` stays, and
`PCUR` and `REC_KIND` are not written. That the unspecified length of `PAT` still covers the bytes that stay is the
model's choice (log 8). -/
def Obligations.RflushRefusesOrRaises : Prop :=
  ∀ s : State,
    (s.phase ≠ .run ∨ s.runLen = 0 → exec .rflush s = .next { s with outcome := some .refused })
    ∧ (s.phase = .run → s.runLen ≠ 0 → s.pat.len = s.pcur → ∀ rest, s.env = true :: rest →
        ∃ m : Memory,
          exec .rflush s = .next ({ s with env := rest, pat := m, draws := s.draws + 1 }.raise (.io .pat s.pcur))
          ∧ ∀ p, p < s.pcur → m.byte? p = s.pat.byte? p)

/-- R136: in `ENC`, `EFIN` ends the patch and appends nothing; elsewhere it is refused. -/
def Obligations.EfinEndsThePatch : Prop :=
  ∀ (s : State) (arg : Word), decodeCommand (commandWord arg 0x05) = .ok .efin
    ∧ (s.phase ≠ .enc → exec .efin s = .next { s with outcome := some .refused })
    ∧ (s.phase = .enc → exec .efin s = .next { s with phase := .idle, outcome := some .ok })

/-- R134, R137: a whole run pushed and flushed appends exactly the record its bytes are framed as, whatever `BUF` and the
other record registers held before. -/
def Obligations.RencAppendsTheFramedRecord : Prop :=
  ∀ (s : State) (off : Word) (run : List Byte), 1 ≤ run.length → run.length ≤ 255 →
    s.phase = .enc → s.pat.len = s.pcur → s.passes 1 →
    ∃ t, runInstrs (renc off run) s = .next t ∧ t.outcome = some .ok ∧ t.phase = .enc
      ∧ t.pcur = s.pcur + (recBytes (frame off run)).length
      ∧ WroteAt s.pat t.pat s.pcur (recBytes (frame off run))
      ∧ t.recOff = off ∧ t.runBytes = run ∧ t.recKind = recordKind (frame off run)
      ∧ t.img = s.img ∧ t.dst = s.dst ∧ SameHeader s t ∧ SameErrors s t ∧ t.identOut = s.identOut

/-! ## Validator and identifier -/

/-- R150: `CRCCHK` reads the patch first, then the image, then compares; each way it can end, in that order. `DST` is
touched by none. -/
def Obligations.CrcchkComparesPatchAndImage : Prop :=
  ∀ (s : State) (arg : Word), decodeCommand (commandWord arg 0x08) = .ok .crcchk
    ∧ (s.phase ≠ .idle → exec .crcchk s = .next { s with outcome := some .refused })
    ∧ (s.phase = .idle → s.pat.len < 0x45 → exec .crcchk s = .next (s.raise (.format 0x3D)))
    ∧ (s.phase = .idle → 0x45 ≤ s.pat.len → ∀ rest, s.env = true :: rest →
        exec .crcchk s = .next ({ s with env := rest }.raise (.io .pat 0x3D)))
    ∧ (s.phase = .idle → 0x45 ≤ s.pat.len → s.passes 1 → s.img.len < 0x18 →
        exec .crcchk s = .next ({ s with env := s.env.drop 1 }.raise (.io .img 0x10)))
    ∧ (s.phase = .idle → 0x45 ≤ s.pat.len → 0x18 ≤ s.img.len → ∀ rest, s.env = false :: true :: rest →
        exec .crcchk s = .next ({ s with env := rest }.raise (.io .img 0x10)))
    ∧ (s.phase = .idle → 0x45 ≤ s.pat.len → 0x18 ≤ s.img.len → s.passes 2 →
        (∀ i, i < 8 → s.pat.get (0x3D + i) = s.img.get (0x10 + i)) →
        exec .crcchk s = .next { s with phase := .valid, env := s.env.drop 2, outcome := some .ok })
    ∧ (s.phase = .idle → 0x45 ≤ s.pat.len → 0x18 ≤ s.img.len → s.passes 2 →
        (∃ i, i < 8 ∧ s.pat.get (0x3D + i) ≠ s.img.get (0x10 + i)) →
        exec .crcchk s = .next
          ({ s with env := s.env.drop 2 }.raise (.validation (s.pat.read 0x3D 8) (s.img.read 0x10 8))))

/-- R151: two CRCs are equal exactly when all eight bytes are. -/
def Obligations.CrcEqualComparesEveryByte : Prop :=
  ∀ p g : Vector Byte 8, crcEqual p g = true ↔ ∀ i : Fin 8, p[i] = g[i]

/-- R180: in `IDLE`, `IDENT` writes the name made of the four bytes at 0x3D and nothing else; 0x41 bytes of patch are
enough; a shorter patch raises FormatError, and then `IDENT_OUT` holds no value (R219). -/
def Obligations.IdentNamesThePatch : Prop :=
  ∀ (s : State) (arg : Word), decodeCommand (commandWord arg 0x07) = .ok .ident
    ∧ (s.phase ≠ .idle → exec .ident s = .next { s with outcome := some .refused })
    ∧ (s.phase = .idle → 0x41 ≤ s.pat.len → s.passes 1 →
        exec .ident s = .next { s with
          identOut := identName (s.pat.read 0x3D 4), env := s.env.drop 1, outcome := some .ok })
    ∧ (s.phase = .idle → s.pat.len < 0x41 → exec .ident s = .next (s.loseIdent.raise (.format 0x3D)))
    ∧ (s.phase = .idle → 0x41 ≤ s.pat.len → ∀ rest, s.env = true :: rest →
        exec .ident s = .next ({ s with env := rest }.loseIdent.raise (.io .pat 0x3D)))

/-- R182: `hex2` spells a byte as two upper-case digits, the high nibble first; so a byte below 0x10 keeps its zero.
R152: a ValidationError's report spells an 8-byte value as the 16 digits of its bytes in stream order. -/
def Obligations.HexSpellsTheHighNibbleFirst : Prop :=
  (∀ b : Byte, ∃ hi lo : Byte, hex2 b = [hi, lo]
    ∧ (b.toNat / 16 ≤ 9 → hi.toNat = 0x30 + b.toNat / 16) ∧ (10 ≤ b.toNat / 16 → hi.toNat = 0x41 + b.toNat / 16 - 10)
    ∧ (b.toNat % 16 ≤ 9 → lo.toNat = 0x30 + b.toNat % 16) ∧ (10 ≤ b.toNat % 16 → lo.toNat = 0x41 + b.toNat % 16 - 10))
  ∧ ∀ v : Vector Byte 8,
    crcReport v = hex2 v[0] ++ hex2 v[1] ++ hex2 v[2] ++ hex2 v[3] ++ hex2 v[4] ++ hex2 v[5] ++ hex2 v[6] ++ hex2 v[7]
    ∧ (crcReport v).length = 16

/-- R181, R183: a name is eight hexadecimal digits and `.aps`, and two patches get the same name exactly when the first
four bytes of their CRC fields are the same. -/
def Obligations.NamesAgreeExactlyWhenFourBytesDo : Prop :=
  (∀ v : Vector Byte 4, (identName v).toList = v.toList.flatMap hex2 ++ [0x2E, 0x61, 0x70, 0x73])
  ∧ ∀ v w : Vector Byte 4, identName v = identName w ↔ v = w

/-! ## Record decoder -/

/-- R161: in `VALID`, with no access failed, `DCOPY` makes `DST` a copy of `IMG`, whatever it held, and sets `PCUR` to
0x4E; a failed access leaves only `DST` and its length open (R219). -/
def Obligations.DcopyCopiesTheImage : Prop :=
  ∀ (s : State) (arg : Word), decodeCommand (commandWord arg 0x09) = .ok .dcopy
    ∧ (s.phase ≠ .valid → exec .dcopy s = .next { s with outcome := some .refused })
    ∧ (s.phase = .valid → s.img.len ≠ 0 → s.passes 2 → ∃ m : Memory,
        exec .dcopy s = .next { s with
          dst := m, pcur := 0x4E, phase := .dec, env := s.env.drop 2, outcome := some .ok }
        ∧ SameBytes s.img m)
    ∧ (s.phase = .valid → s.img.len = 0 → ∃ m : Memory,
        exec .dcopy s = .next { s with dst := m, pcur := 0x4E, phase := .dec, outcome := some .ok } ∧ m.len = 0)
    ∧ (s.phase = .valid → s.img.len ≠ 0 → ∀ rest, s.env = true :: rest → ∃ m : Memory,
        exec .dcopy s = .next ({ s with env := rest, dst := m, draws := s.draws + 1 }.raise (.io .img 0)))
    ∧ (s.phase = .valid → s.img.len ≠ 0 → ∀ rest, s.env = false :: true :: rest → ∃ m : Memory,
        exec .dcopy s = .next ({ s with env := rest, dst := m, draws := s.draws + 1 }.raise (.io .dst 0)))

/-- R162: where a record stands at `PCUR` and its two reads pass, `RDEC` commits it to the record registers (which then
spell it, R27), moves `PCUR` past it, and runs it as the instruction it is. The bytes of `BUF` that are not the record's
have no value (R26), by a fresh draw (log 10). -/
def Obligations.RdecCommitsAndPerformsTheRecord : Prop :=
  ∀ (s : State) (r : Record) (k : Nat), s.phase = .dec → decodeRecord s.restOfPatch = .ok (r, k) → s.passes 2 →
    ∃ u : State,
      exec .rdec s = exec r.toInstr u
      ∧ u = { s with
          recOff := u.recOff, recKind := u.recKind, runLen := u.runLen, buf := u.buf
          pcur := s.pcur + k, env := s.env.drop 2, draws := s.draws + 1 }
      ∧ u.record = r

/-- R162, R250: with no access failed, `RDEC` on a record at `PCUR` ends `OK` in `DEC`, with `DST` the record applied to
the old `DST`. -/
def Obligations.RdecAppliesTheRecordAndContinues : Prop :=
  ∀ (s : State) (r : Record) (k : Nat), s.phase = .dec → decodeRecord s.restOfPatch = .ok (r, k) → s.passes 3 →
    ∃ t, exec .rdec s = .next t ∧ t.outcome = some .ok ∧ t.phase = .dec ∧ t.pcur = s.pcur + k
      ∧ t.dst = apply1 s.dst r ∧ t.record = r ∧ t.img = s.img ∧ t.pat = s.pat ∧ t.rleCand = s.rleCand
      ∧ SameHeader s t ∧ SameErrors s t ∧ t.identOut = s.identOut

/-- R162, R165: every way an `RDEC` ends without a record: refused outside `DEC`, `END` exactly at the end of the stream, a
FormatError when the stream ends inside the record, at the prefix or after it. Nothing of the record is committed. -/
def Obligations.RdecEndsOrRejectsACutRecord : Prop :=
  ∀ (s : State) (arg : Word), decodeCommand (commandWord arg 0x0A) = .ok .rdec
    ∧ (s.phase ≠ .dec → exec .rdec s = .next { s with outcome := some .refused })
    ∧ (s.phase = .dec → s.pcur = s.pat.len →
        exec .rdec s = .next { s with phase := .idle, outcome := some .endOfPatch })
    ∧ (s.phase = .dec → s.pcur ≠ s.pat.len → s.pat.len < s.pcur + 5 →
        exec .rdec s = .next (s.raise (.format s.pcur)))
    ∧ (s.phase = .dec → s.pcur + 5 ≤ s.pat.len → s.pat.get (s.pcur + 4) = 0 → s.pat.len < s.pcur + 7 → s.passes 1 →
        exec .rdec s = .next ({ s with env := s.env.drop 1 }.raise (.format (s.pcur + 5))))
    ∧ (s.phase = .dec → s.pcur + 5 ≤ s.pat.len → s.pat.get (s.pcur + 4) ≠ 0 →
        s.pat.len < s.pcur + 5 + (s.pat.get (s.pcur + 4)).toNat → s.passes 1 →
        exec .rdec s = .next ({ s with env := s.env.drop 1 }.raise (.format (s.pcur + 5))))

/-- R162, R219: a read of `PAT` that the environment fails leaves the record registers, `PCUR` and `DST` as they were; a
failed write leaves the record committed and `DST` as before outside the record's range. That the unspecified length of
`DST` still covers the bytes that stay is the model's choice (log 8). -/
def Obligations.RdecIoErrorIsPrecise : Prop :=
  ∀ s : State, s.phase = .dec → s.pcur ≠ s.pat.len →
    (s.pcur + 5 ≤ s.pat.len → ∀ rest, s.env = true :: rest →
      exec .rdec s = .next ({ s with env := rest }.raise (.io .pat s.pcur)))
    ∧ ∀ (r : Record) (k : Nat), decodeRecord s.restOfPatch = .ok (r, k) →
      (∀ rest, s.env = false :: true :: rest →
        exec .rdec s = .next ({ s with env := rest }.raise (.io .pat (s.pcur + 5))))
      ∧ (r.toBytes ≠ [] → ∀ rest, s.env = false :: false :: true :: rest →
          ∃ t, exec .rdec s = .next t ∧ t.phase = .fault ∧ t.errKind = some .ioError ∧ t.errSpace = Space.dst.code
            ∧ t.errPos = r.offset.toNat ∧ t.outcome = some (.fault .ioError) ∧ t.pcur = s.pcur + k ∧ t.record = r
            ∧ t.img = s.img ∧ t.pat = s.pat ∧ KeptOutside s.dst t.dst r.offset.toNat r.toBytes.length)

/-- R163: a literal record writes its bytes at its offset, the destination growing as R59 says; nothing else changes. A
failed write raises IoError and leaves the bytes outside the range (R60, R219); that the unspecified length still covers
them is the model's choice (log 8), and so is executing the record by itself, in any phase (log 14). -/
def Obligations.LitWritesItsBytes : Prop :=
  ∀ (s : State) (off : Word) (d : List Byte), (Instr.lit off d).wf = true → s.dst.wf = true →
    (s.passes 1 → ∃ m : Memory,
      exec (.lit off d) s = .next { s with dst := m, env := s.env.drop 1, outcome := some .ok }
      ∧ WroteAt s.dst m off.toNat d)
    ∧ ∀ rest, s.env = true :: rest → ∃ m : Memory,
      exec (.lit off d) s =
        .next ({ s with env := rest, dst := m, draws := s.draws + 1 }.raise (.io .dst off.toNat))
      ∧ KeptOutside s.dst m off.toNat d.length

/-- R164: a run-length record writes `count` copies of its fill byte at its offset; with `count` 0 it writes nothing, asks
for no access and does not lengthen the destination, even past its end. A failed write is as for a literal record (R60,
R219): that the unspecified length still covers the bytes that stay (log 8), and executing the record by itself, in any
phase (log 14), are the model's choices. -/
def Obligations.RleWritesCopiesOfItsFill : Prop :=
  ∀ (s : State) (off : Word) (f n : Byte), s.dst.wf = true →
    (n = 0 → exec (.rle off f n) s = .next { s with outcome := some .ok })
    ∧ (n ≠ 0 → s.passes 1 → ∃ m : Memory,
        exec (.rle off f n) s = .next { s with dst := m, env := s.env.drop 1, outcome := some .ok }
        ∧ WroteAt s.dst m off.toNat (List.replicate n.toNat f))
    ∧ (n ≠ 0 → ∀ rest, s.env = true :: rest → ∃ m : Memory,
        exec (.rle off f n) s =
          .next ({ s with env := rest, dst := m, draws := s.draws + 1 }.raise (.io .dst off.toNat))
        ∧ KeptOutside s.dst m off.toNat n.toNat)

/-- R170: with no access failed, a patch that holds a header and an image whose CRC it carries, `APPLY` ends `END` with
`DST` the image with the whole body applied in order, or, when the body ends inside a record, raises FormatError. -/
def Obligations.ApplyComputesApplyAll : Prop :=
  ∀ s : State, s.phase = .idle → s.alwaysPasses → 0x4E ≤ s.pat.len → 0x18 ≤ s.img.len →
    crcEqual (s.pat.read 0x3D 8) (s.img.read 0x10 8) = true →
    (∀ d, applyAll s.img (s.pat.slice 0x4E s.pat.len) = some d →
      ∃ t, applyPatch s = .next t ∧ t.outcome = some .endOfPatch ∧ t.phase = .idle ∧ t.dst = d
        ∧ t.img = s.img ∧ t.pat = s.pat ∧ t.errKind = s.errKind)
    ∧ (applyAll s.img (s.pat.slice 0x4E s.pat.len) = none →
      ∃ t, applyPatch s = .next t ∧ t.outcome = some (.fault .formatError) ∧ t.phase = .fault
        ∧ t.errKind = some .formatError ∧ t.errSpace = Space.pat.code)

/-- R168, R169: `APPLY` from `IDLE`, whatever the environment answers, ends within its bound of `RDEC`s: with `END` in
`IDLE`, or with a fault; it is never refused and never left unfinished. -/
def Obligations.ApplyAlwaysEndsWithinItsBound : Prop :=
  ∀ s : State, s.phase = .idle →
    ∃ t, applyPatch s = .next t
      ∧ ((t.outcome = some .endOfPatch ∧ t.phase = .idle) ∨ ∃ k, t.outcome = some (.fault k) ∧ t.phase = .fault)

/-- R171: the result of applying records is as long as the image or the furthest byte written, whichever is greater. -/
def Obligations.ResultReachesTheFurthestWrite : Prop :=
  ∀ (d : Memory) (rs : List Record),
    (applyRecords d rs).len =
      rs.foldl (fun n r => if r.toBytes = [] then n else max n (r.offset.toNat + r.toBytes.length)) d.len

/-! ## Exceptions -/

/-- R210, R214: what a raise records, kind by kind: `PHASE`, `ERR_KIND` with its code, the information registers of the
kind, the outcome. Everything that is not an error register stays, every space too. The other information registers hold no
value: nothing is said of them. -/
def Obligations.RaiseRecordsKindAndInformation : Prop :=
  ∀ (s : State) (e : Exc),
    (s.raise e).phase = .fault ∧ (s.raise e).outcome = some (.fault e.kind)
    ∧ s.raise e = { s with
        phase := .fault, outcome := some (.fault e.kind), errKind := some e.kind, draws := s.draws + 1
        errCrcPat := (s.raise e).errCrcPat, errCrcImg := (s.raise e).errCrcImg
        errSpace := (s.raise e).errSpace, errPos := (s.raise e).errPos }
    ∧ (∀ p g, e = .validation p g →
        errCode (s.raise e).errKind = 1 ∧ (s.raise e).errCrcPat = p ∧ (s.raise e).errCrcImg = g)
    ∧ (∀ sp a, e = .io sp a →
        errCode (s.raise e).errKind = 2 ∧ (s.raise e).errPos = a
        ∧ (sp = .img → (s.raise e).errSpace = 0) ∧ (sp = .pat → (s.raise e).errSpace = 1)
        ∧ (sp = .dst → (s.raise e).errSpace = 2))
    ∧ ∀ a, e = .format a →
        errCode (s.raise e).errKind = 3 ∧ (s.raise e).errSpace = 1 ∧ (s.raise e).errPos = a

/-! ## Invariants: every step keeps them, from every state -/

/-- The reset state meets every invariant of this section. -/
def Obligations.ResetMeetsTheInvariants : Prop :=
  State.reset.memWf ∧ State.reset.errInv ∧ State.reset.runInv ∧ State.reset.encInv ∧ State.reset.crcInv
    ∧ State.reset.decInv

/-- Every step keeps the three spaces in canonical form, so that equal spaces stay equal data (log 5). -/
def Obligations.StepKeepsTheSpacesCanonical : Prop :=
  ∀ s t : State, s.memWf → step s = .next t → t.memWf

/-- R36: `ERR_KIND` is not 0 exactly in `FAULT`. -/
def Obligations.StepKeepsErrorOnlyInFault : Prop :=
  ∀ s t : State, s.errInv → step s = .next t → t.errInv

/-- R22: in `RUN`, `RLE_CAND` is 1 exactly when every byte of the run equals its first. -/
def Obligations.StepKeepsTheCandidateFlagTrue : Prop :=
  ∀ s t : State, s.runInv → step s = .next t → t.runInv

/-- R36: while a patch is encoded, it is a generated header and whole records, and `PCUR` is its end. -/
def Obligations.StepKeepsThePatchWellFormed : Prop :=
  ∀ s t : State, s.encInv → step s = .next t → t.encInv

/-- R36: in `VALID` and `DEC` the CRC fields of patch and image are equal; the host can bind neither meanwhile (log 6). -/
def Obligations.StepKeepsTheCrcMatched : Prop :=
  ∀ s t : State, s.crcInv → step s = .next t → t.crcInv

/-- R36: while a patch is applied, `DST` is the image with the records before `PCUR` applied in order. The premise on the
spaces' form is kept by every step too (StepKeepsTheSpacesCanonical). -/
def Obligations.StepKeepsDstTheAppliedPrefix : Prop :=
  ∀ s t : State, s.memWf → s.decInv → step s = .next t → t.decInv

/-! ## The whole machine -/

/-- R153: in any run that starts outside `VALID` and `DEC`, a step that changes `DST` comes after a `CRCCHK` that found
the CRCs equal, and the block has been in `VALID` or `DEC` ever since. That the host binds `DST` in `VALID` alone, and neither `IMG` nor
`PAT` meanwhile, is the model's fault of log 6. -/
def Obligations.DstChangesOnlyAfterAPassedCheck : Prop :=
  ∀ (n : Nat) (s t t' : State), s.phase ≠ .valid → s.phase ≠ .dec →
    Sys2Proof.core.run n s = .next t → step t = .next t' → t'.dst ≠ t.dst →
    ∃ (j : Nat) (u v : State), j < n ∧ Sys2Proof.core.run j s = .next u ∧ step u = .next v
      ∧ u.phase = .idle ∧ v.phase = .valid ∧ crcEqual (u.pat.read 0x3D 8) (u.img.read 0x10 8) = true
      ∧ ∀ (k : Nat) (w : State), j < k → k ≤ n → Sys2Proof.core.run k s = .next w → w.phase = .valid ∨ w.phase = .dec

/-- R32: no step reads a register that its phase gives no value. Two states that agree on the rest take steps that agree
on the rest: the same outcome, the same spaces, the same inputs left. The two states also agree on the model's counter
`draws`, so that a space left unspecified by a failed write takes the same free value in both: that premise is the model's
(log 2, log 19), not the spec's. -/
def Obligations.StepReadsOnlyKnownRegisters : Prop :=
  ∀ s s' : State, SameKnown s s' →
    (∀ t, step s = .next t → ∃ t', step s' = .next t' ∧ SameKnown t t')
    ∧ ∀ f, step s = .fault f → step s' = .fault f

/-- R138, R201: CREATE, from any state in `IDLE` with the original bound and no access failed, leaves in `PAT` exactly the
header and the framed records of the scan, whatever the registers held. -/
def Obligations.CreateWritesHeaderAndScannedRecords : Prop :=
  ∀ (o m : List Byte) (s : State), 0x3F ≤ o.length → m.length < 2 ^ 32 →
    s.phase = .idle → s.img = Memory.ofBytes o → s.alwaysPasses →
    ∃ t, runInstrs (createInstrs o m) s = .next t ∧ t.outcome = some .ok ∧ t.phase = .idle ∧ t.img = s.img
      ∧ t.dst = s.dst
      ∧ t.pat.toList = hdrBytes (s.img.read 0x3C 3) (s.img.read 0x10 8) (BitVec.ofNat 32 m.length)
          ++ bodyBytes (scanRecords o m)

/-- R201: the scan's records ascend without overlap, lie below the modified image's end, carry 1 to 255 bytes, and every
byte they carry is the modified image's and differs from the virtual original. -/
def Obligations.ScannedRunsCoverExactlyTheDifferences : Prop :=
  ∀ o m : List Byte,
    (∀ r ∈ scanRuns o m, 1 ≤ r.2.length ∧ r.2.length ≤ 255 ∧ r.1 + r.2.length ≤ m.length
      ∧ ∀ i, i < r.2.length → r.2.getD i 0 = m.getD (r.1 + i) 0 ∧ m.getD (r.1 + i) 0 ≠ virtualByte o (r.1 + i))
    ∧ (scanRuns o m).Pairwise (fun r q => r.1 + r.2.length ≤ q.1)
    ∧ ∀ p, p < m.length → m.getD p 0 ≠ virtualByte o p → ∃ r ∈ scanRuns o m, r.1 ≤ p ∧ p < r.1 + r.2.length

/-- R200, R202: the round trip with its exact limits. CREATE then APPLY gives the modified image, but for the original's
tail when the modified image is shorter, and for zeros past the original's end that end the modified image. -/
def Obligations.CreateThenApplyGivesTheModifiedImage : Prop :=
  ∀ (o m : List Byte) (s : State), 0x3F ≤ o.length → m.length < 2 ^ 32 →
    s.phase = .idle → s.img = Memory.ofBytes o → s.alwaysPasses →
    ∃ p t, runInstrs (createInstrs o m) s = .next p ∧ p.outcome = some .ok
      ∧ applyPatch p = .next t ∧ t.outcome = some .endOfPatch
      ∧ (m.length ≤ o.length → t.dst = Memory.ofBytes (m ++ o.drop m.length))
      ∧ (o.length < m.length →
          o.length ≤ t.dst.len ∧ t.dst.len ≤ m.length ∧ t.dst = Memory.ofBytes (m.take t.dst.len)
          ∧ (∀ i, t.dst.len ≤ i → i < m.length → m.getD i 0 = 0)
          ∧ (o.length < t.dst.len → m.getD (t.dst.len - 1) 0 ≠ 0))

/-! ## Codes and ends of operations -/

/-- R20, R21, R210: the values the host reads in `PHASE`, `REC_KIND`, `ERR_SPACE` and `ERR_KIND`. -/
def Obligations.RegisterCodesAreTheSpecs : Prop :=
  (Phase.idle.code = 0 ∧ Phase.enc.code = 1 ∧ Phase.run.code = 2 ∧ Phase.valid.code = 3 ∧ Phase.dec.code = 4
    ∧ Phase.fault.code = 5)
  ∧ (RecKind.rle.code = 0 ∧ RecKind.lit.code = 1)
  ∧ (Space.img.code = 0 ∧ Space.pat.code = 1 ∧ Space.dst.code = 2)
  ∧ (errCode none = 0 ∧ errCode (some .validationError) = 1 ∧ errCode (some .ioError) = 2
    ∧ errCode (some .formatError) = 3)

/-- R250: when each kind of operation has ended well, and that the block is then back in `IDLE` with `ERR_KIND = 0`; when one
has ended badly, and that the block is then in `FAULT`; in any other phase none has ended. The premise on `ERR_KIND` is
kept by every step (StepKeepsErrorOnlyInFault). -/
def Obligations.OperationsEndInIdleOrFault : Prop :=
  (∀ (i : Instr) (t : State),
    (Operation.create.endedWell i t ↔ i = .efin ∧ t.outcome = some .ok)
    ∧ (Operation.apply.endedWell i t ↔ i = .rdec ∧ t.outcome = some .endOfPatch)
    ∧ (Operation.rename.endedWell i t ↔ i = .ident ∧ t.outcome = some .ok)
    ∧ (Operation.inspect.endedWell i t ↔ i = .hparse ∧ t.outcome = some .ok))
  ∧ ∀ (i : Instr) (s t : State), s.errInv → exec i s = .next t →
    (∀ op : Operation, op.endedWell i t → t.phase = .idle ∧ t.errKind = none)
    ∧ (t.endedBadly → t.phase = .fault ∧ t.errKind ≠ none)
    ∧ (t.phase ≠ .idle → t.phase ≠ .fault → (∀ op : Operation, ¬op.endedWell i t) ∧ ¬t.endedBadly)
end

