-- ==== Sys2Proof/Laws/Memory.lean ====
section
/-! SUPPORT. What the operations on a stream space do, byte by byte, and that each keeps the canonical form. -/

namespace Sys2Proof.Machine

/-! ## Listed cells -/

theorem lookupCell_append (c d : List Host.Cell) (p : Nat) (h : ∀ x ∈ c, x.1 ≠ p) :
    lookupCell (c ++ d) p = lookupCell d p := by
  induction c with
  | nil => rfl
  | cons x c ih =>
    have hx := h x (by simp)
    simp [lookupCell, hx, ih fun y hy => h y (by simp [hy])]

theorem lookupCell_append_left (c d : List Host.Cell) (p : Nat) (h : ∀ x ∈ d, x.1 ≠ p) :
    lookupCell (c ++ d) p = lookupCell c p := by
  induction c with
  | nil =>
    have := lookupCell_append d [] p h
    simpa using this
  | cons x c ih =>
    obtain ⟨k, v⟩ := x
    simp [lookupCell, ih]

theorem lookupCell_of_forall_ne (c : List Host.Cell) (p : Nat) (h : ∀ x ∈ c, x.1 ≠ p) : lookupCell c p = 0 := by
  simpa [lookupCell] using lookupCell_append c [] p h

theorem lookupCell_filter_of_keeps (c : List Host.Cell) (p : Nat) (q : Nat → Bool) (h : q p = true) :
    lookupCell (c.filter fun x => q x.1) p = lookupCell c p := by
  induction c with
  | nil => rfl
  | cons x c ih =>
    obtain ⟨k, v⟩ := x
    by_cases hk : k = p
    · subst hk; simp [lookupCell, h]
    · cases hq : q k <;> simp [lookupCell, hq, hk, ih]

theorem cellsAt_bounds (s : List Byte) (a : Nat) : ∀ x ∈ cellsAt a s, a ≤ x.1 ∧ x.1 < a + s.length := by
  induction s generalizing a with
  | nil => simp [cellsAt]
  | cons b s ih =>
    intro x hx
    by_cases hb : b = 0
    · simp only [cellsAt, hb, if_true] at hx
      have := ih (a + 1) x hx
      simp only [List.length_cons]; omega
    · simp only [cellsAt, hb, if_false, List.mem_cons] at hx
      rcases hx with rfl | hx
      · simp
      · have := ih (a + 1) x hx
        simp only [List.length_cons]; omega

theorem lookupCell_cellsAt (s : List Byte) (a p : Nat) (h : a ≤ p) :
    lookupCell (cellsAt a s) p = s.getD (p - a) 0 := by
  induction s generalizing a with
  | nil => simp [cellsAt, lookupCell]
  | cons b s ih =>
    rcases Nat.eq_or_lt_of_le h with rfl | hlt
    · by_cases hb : b = 0
      · simp only [cellsAt, hb, if_true, Nat.sub_self, List.getD_cons_zero]
        refine lookupCell_of_forall_ne _ _ fun x hx => ?_
        have := cellsAt_bounds s (a + 1) x hx
        omega
      · simp only [cellsAt, if_neg hb, lookupCell, if_true, Nat.sub_self, List.getD_cons_zero]
    · have hs : p - a = (p - (a + 1)) + 1 := by omega
      by_cases hb : b = 0
      · simp only [cellsAt, hb, if_true, ih (a + 1) hlt, hs, List.getD_cons_succ]
      · have hne : a ≠ p := by omega
        simp only [cellsAt, hb, if_false, lookupCell, hne, ih (a + 1) hlt, hs, List.getD_cons_succ]

/-! ## The canonical form -/

theorem cellsWf_mono {lo lo' len len' : Nat} (c : List Host.Cell) (hlo : lo' ≤ lo) (hlen : len ≤ len')
    (h : cellsWf lo len c = true) : cellsWf lo' len' c = true := by
  induction c generalizing lo lo' with
  | nil => rfl
  | cons x c ih =>
    obtain ⟨k, v⟩ := x
    simp only [cellsWf, Bool.and_eq_true, decide_eq_true_eq] at h ⊢
    exact ⟨⟨⟨by omega, by omega⟩, h.1.2⟩, ih (Nat.le_refl _) h.2⟩

theorem cellsWf_bounds {lo len : Nat} (c : List Host.Cell) (h : cellsWf lo len c = true) :
    ∀ x ∈ c, lo ≤ x.1 ∧ x.1 < len ∧ x.2 ≠ 0 := by
  induction c generalizing lo with
  | nil => simp
  | cons y c ih =>
    obtain ⟨k, v⟩ := y
    simp only [cellsWf, Bool.and_eq_true, decide_eq_true_eq] at h
    intro x hx
    rcases List.mem_cons.1 hx with rfl | hx
    · exact ⟨h.1.1.1, h.1.1.2, h.1.2⟩
    · have := ih h.2 x hx
      exact ⟨by omega, this.2⟩

theorem cellsWf_filter_lt {lo len n : Nat} (c : List Host.Cell) (h : cellsWf lo len c = true) :
    cellsWf lo (min len n) (c.filter fun x => decide (x.1 < n)) = true := by
  induction c generalizing lo with
  | nil => rfl
  | cons x c ih =>
    obtain ⟨k, v⟩ := x
    simp only [cellsWf, Bool.and_eq_true, decide_eq_true_eq] at h
    by_cases hk : k < n
    · simp only [List.filter_cons, hk, decide_true, if_true, cellsWf, Bool.and_eq_true, decide_eq_true_eq]
      exact ⟨⟨⟨h.1.1.1, by omega⟩, h.1.2⟩, ih h.2⟩
    · simp only [List.filter_cons, hk, decide_false, Bool.false_eq_true, if_false]
      exact cellsWf_mono _ (by omega) (Nat.le_refl _) (ih h.2)

theorem cellsWf_filter_ge {lo len n : Nat} (c : List Host.Cell) (h : cellsWf lo len c = true) :
    cellsWf n len (c.filter fun x => decide (n ≤ x.1)) = true := by
  have hb := cellsWf_bounds c h
  have key : ∀ lo', cellsWf lo' len c = true → cellsWf (max lo' n) len (c.filter fun x => decide (n ≤ x.1)) = true := by
    clear h hb
    intro lo' h
    induction c generalizing lo' with
    | nil => rfl
    | cons x c ih =>
      obtain ⟨k, v⟩ := x
      simp only [cellsWf, Bool.and_eq_true, decide_eq_true_eq] at h
      by_cases hk : n ≤ k
      · simp only [List.filter_cons, hk, decide_true, if_true, cellsWf, Bool.and_eq_true, decide_eq_true_eq]
        exact ⟨⟨⟨by omega, h.1.1.2⟩, h.1.2⟩, cellsWf_mono _ (by omega) (Nat.le_refl _) (ih _ h.2)⟩
      · simp only [List.filter_cons, hk, decide_false, Bool.false_eq_true, if_false]
        exact cellsWf_mono _ (by omega) (Nat.le_refl _) (ih _ h.2)
  exact cellsWf_mono _ (by omega) (Nat.le_refl _) (key lo h)

theorem cellsWf_cellsAt (s : List Byte) (a len : Nat) (h : a + s.length ≤ len) : cellsWf a len (cellsAt a s) = true := by
  induction s generalizing a with
  | nil => rfl
  | cons b s ih =>
    simp only [List.length_cons] at h
    by_cases hb : b = 0
    · simp only [cellsAt, hb, if_true]
      exact cellsWf_mono _ (by omega) (Nat.le_refl _) (ih (a + 1) (by omega))
    · simp only [cellsAt, hb, if_false, cellsWf, Bool.and_eq_true, decide_eq_true_eq]
      exact ⟨⟨⟨Nat.le_refl _, by omega⟩, hb⟩, ih (a + 1) (by omega)⟩

theorem cellsWf_append {lo mid len : Nat} (c d : List Host.Cell) (hc : cellsWf lo mid c = true)
    (hd : cellsWf mid len d = true) (hlo : lo ≤ mid) (hlen : mid ≤ len) : cellsWf lo len (c ++ d) = true := by
  induction c generalizing lo with
  | nil => exact cellsWf_mono _ hlo (Nat.le_refl _) hd
  | cons x c ih =>
    obtain ⟨k, v⟩ := x
    simp only [cellsWf, Bool.and_eq_true, decide_eq_true_eq] at hc
    simp only [List.cons_append, cellsWf, Bool.and_eq_true, decide_eq_true_eq]
    exact ⟨⟨⟨hc.1.1.1, by omega⟩, hc.1.2⟩, ih hc.2 (by omega)⟩

@[simp] theorem Memory.wf_empty : Memory.empty.wf = true := rfl

theorem Memory.wf_ofBytes (s : List Byte) : (Memory.ofBytes s).wf = true :=
  cellsWf_cellsAt s 0 s.length (by omega)

theorem Memory.wf_truncate {m : Memory} (h : m.wf = true) (n : Nat) : (m.truncate n).wf = true :=
  cellsWf_filter_lt m.cells h

theorem Memory.wf_put {m : Memory} (h : m.wf = true) (a : Nat) (s : List Byte) : (m.put a s).wf = true := by
  unfold Memory.put
  split
  · exact h
  · have hlt : cellsWf 0 a (m.cells.filter fun c => decide (c.1 < a)) = true :=
      cellsWf_mono _ (Nat.le_refl _) (by omega) (cellsWf_filter_lt m.cells h)
    have hmid := cellsWf_cellsAt s a (a + s.length) (Nat.le_refl _)
    have hge := cellsWf_filter_ge (n := a + s.length) m.cells h
    have h₁ := cellsWf_append _ _ hlt hmid (by omega) (by omega)
    exact cellsWf_append _ _ h₁ (cellsWf_mono _ (Nat.le_refl _) (Nat.le_max_left _ _) hge) (by omega)
      (Nat.le_max_right _ _)

theorem Memory.wf_putEnd {m : Memory} (h : m.wf = true) (a : Nat) (s : List Byte) : (m.putEnd a s).wf = true :=
  Memory.wf_put (Memory.wf_truncate h a) a s

theorem Memory.wf_unspecifyFrom {m : Memory} (h : m.wf = true) (lo draw : Nat) : (m.unspecifyFrom lo draw).wf = true :=
  Memory.wf_putEnd h _ _

theorem Memory.wf_unspecify {m : Memory} (h : m.wf = true) (lo hi draw : Nat) : (m.unspecify lo hi draw).wf = true := by
  unfold Memory.unspecify
  split
  · exact Memory.wf_unspecifyFrom h _ _
  · exact Memory.wf_put (Memory.wf_put h _ _) _ _

/-! ## Bytes and lengths -/

@[simp] theorem Memory.len_empty : Memory.empty.len = 0 := rfl
@[simp] theorem Memory.get_empty (p : Nat) : Memory.empty.get p = 0 := rfl
@[simp] theorem Memory.len_ofBytes (s : List Byte) : (Memory.ofBytes s).len = s.length := rfl
@[simp] theorem Memory.len_truncate (m : Memory) (n : Nat) : (m.truncate n).len = min m.len n := rfl
@[simp] theorem Memory.put_nil (m : Memory) (a : Nat) : m.put a [] = m := rfl

/-- Past its end a canonical space lists nothing. -/
theorem Memory.get_of_len_le {m : Memory} (h : m.wf = true) {p : Nat} (hp : m.len ≤ p) : m.get p = 0 :=
  lookupCell_of_forall_ne _ _ fun x hx => by
    have := cellsWf_bounds m.cells h x hx
    omega

theorem Memory.len_put (m : Memory) (a : Nat) {s : List Byte} (h : s ≠ []) :
    (m.put a s).len = max m.len (a + s.length) := by simp [Memory.put, h]

theorem Memory.get_put (m : Memory) (a : Nat) (s : List Byte) (p : Nat) :
    (m.put a s).get p = if a ≤ p ∧ p < a + s.length then s.getD (p - a) 0 else m.get p := by
  unfold Memory.put
  split
  · next h => subst h; rw [if_neg (by simp)]
  · unfold Memory.get
    have hlow : ∀ x ∈ m.cells.filter (fun c => decide (c.1 < a)), x.1 < a := fun x hx => by
      simpa using (List.mem_filter.1 hx).2
    have hhigh : ∀ x ∈ m.cells.filter (fun c => decide (a + s.length ≤ c.1)), a + s.length ≤ x.1 := fun x hx => by
      simpa using (List.mem_filter.1 hx).2
    have hmid := cellsAt_bounds s a
    simp only
    by_cases hin : a ≤ p ∧ p < a + s.length
    · rw [if_pos hin, List.append_assoc, lookupCell_append _ _ _ (fun x hx => by have := hlow x hx; omega),
        lookupCell_append_left _ _ _ (fun x hx => by have := hhigh x hx; omega), lookupCell_cellsAt s a p hin.1]
    · rw [if_neg hin]
      by_cases hp : p < a
      · rw [List.append_assoc, lookupCell_append_left _ _ _ (fun x hx => by
          rcases List.mem_append.1 hx with hx | hx
          · have := hmid x hx; omega
          · have := hhigh x hx; omega)]
        exact lookupCell_filter_of_keeps m.cells p (fun k => decide (k < a)) (by simpa using hp)
      · rw [lookupCell_append _ _ _ (fun x hx => by
          rcases List.mem_append.1 hx with hx | hx
          · have := hlow x hx; omega
          · have := hmid x hx; omega)]
        exact lookupCell_filter_of_keeps m.cells p (fun k => decide (a + s.length ≤ k)) (by simp; omega)

theorem Memory.get_truncate (m : Memory) (n p : Nat) :
    (m.truncate n).get p = if p < n then m.get p else 0 := by
  unfold Memory.truncate Memory.get
  split
  · next h => exact lookupCell_filter_of_keeps m.cells p (fun k => decide (k < n)) (by simpa using h)
  · next h =>
    refine lookupCell_of_forall_ne _ _ fun x hx => ?_
    have : x.1 < n := by simpa using (List.mem_filter.1 hx).2
    omega

theorem Memory.len_putEnd (m : Memory) (a : Nat) {s : List Byte} (h : s ≠ []) :
    (m.putEnd a s).len = a + s.length := by
  rw [Memory.putEnd, Memory.len_put _ _ h, Memory.len_truncate]; omega

theorem Memory.get_putEnd (m : Memory) (a : Nat) (s : List Byte) (p : Nat) :
    (m.putEnd a s).get p = if p < a then m.get p else s.getD (p - a) 0 := by
  rw [Memory.putEnd, Memory.get_put, Memory.get_truncate]
  by_cases hp : p < a
  · rw [if_neg (by omega), if_pos hp, if_pos hp]
  · rw [if_neg hp, if_neg hp]
    split
    · rfl
    · rw [List.getD_eq_default]; omega

theorem Memory.get_ofBytes (s : List Byte) (p : Nat) : (Memory.ofBytes s).get p = s.getD p 0 :=
  lookupCell_cellsAt s 0 p (Nat.zero_le p)

theorem Memory.byte?_of_lt {m : Memory} {p : Nat} (h : p < m.len) : m.byte? p = some (m.get p) := by
  simp [Memory.byte?, h]

theorem Memory.byte?_of_le {m : Memory} {p : Nat} (h : m.len ≤ p) : m.byte? p = none := by
  simp [Memory.byte?, Nat.not_lt.2 h]

/-! ## Ranges -/

@[simp] theorem Memory.getElem_read (m : Memory) (a n i : Nat) (h : i < n) : (m.read a n)[i] = m.get (a + i) := by
  simp [Memory.read]

@[simp] theorem Memory.length_slice (m : Memory) (a b : Nat) : (m.slice a b).length = b - a := by simp [Memory.slice]

theorem Memory.getElem_slice (m : Memory) (a b i : Nat) (h : i < (m.slice a b).length) :
    (m.slice a b)[i] = m.get (a + i) := by
  simp [Memory.slice]

/-- Equal bytes in a range give an equal slice. -/
theorem Memory.slice_congr {m m' : Memory} {a b : Nat} (h : ∀ p, a ≤ p → p < b → m'.get p = m.get p) :
    m'.slice a b = m.slice a b := by
  refine List.ext_getElem (by simp) fun i h₁ h₂ => ?_
  rw [Memory.getElem_slice, Memory.getElem_slice]
  have : i < b - a := by simpa using h₁
  exact h _ (by omega) (by omega)

/-- A range is its two halves one after the other. -/
theorem Memory.slice_append (m : Memory) {a b c : Nat} (h₁ : a ≤ b) (h₂ : b ≤ c) :
    m.slice a b ++ m.slice b c = m.slice a c := by
  refine List.ext_getElem (by simp; omega) fun i hi hi' => ?_
  have hlen : (m.slice a b).length = b - a := by simp
  rw [List.getElem_append, Memory.getElem_slice]
  split
  · rw [Memory.getElem_slice]
  · rw [Memory.getElem_slice, hlen]; congr 1; omega

/-- What was put is read back. -/
theorem Memory.slice_putEnd (m : Memory) (a : Nat) (s : List Byte) : (m.putEnd a s).slice a (a + s.length) = s := by
  refine List.ext_getElem (by simp) fun i h₁ h₂ => ?_
  rw [Memory.getElem_slice, Memory.get_putEnd, if_neg (by omega)]
  simp [h₂]

theorem Memory.toList_ofBytes (s : List Byte) : (Memory.ofBytes s).toList = s := by
  refine List.ext_getElem (by simp [Memory.toList]) fun i h₁ h₂ => ?_
  simp only [Memory.toList, Memory.getElem_slice, Nat.zero_add, Memory.get_ofBytes]
  simp [h₂]

/-! ## Equal memories are equal data -/

theorem lookupCell_head_lt {lo len k : Nat} (c : List Host.Cell) (h : cellsWf lo len c = true) (hk : k < lo) :
    lookupCell c k = 0 :=
  lookupCell_of_forall_ne _ _ fun x hx => by
    have := cellsWf_bounds c h x hx
    omega

theorem cells_ext {lo len lo' len' : Nat} (c d : List Host.Cell) (hc : cellsWf lo len c = true)
    (hd : cellsWf lo' len' d = true) (h : ∀ p, lookupCell c p = lookupCell d p) : c = d := by
  induction c generalizing d lo lo' with
  | nil =>
    cases d with
    | nil => rfl
    | cons y d =>
      obtain ⟨k, v⟩ := y
      have := cellsWf_bounds _ hd (k, v) (by simp)
      have hk := h k
      simp only [lookupCell, if_true] at hk
      exact absurd hk.symm this.2.2
  | cons x c ih =>
    obtain ⟨k, v⟩ := x
    have hx := cellsWf_bounds _ hc (k, v) (by simp)
    cases d with
    | nil =>
      have hk := h k
      simp only [lookupCell, if_true] at hk
      exact absurd hk hx.2.2
    | cons y d =>
      obtain ⟨k', v'⟩ := y
      have hy := cellsWf_bounds _ hd (k', v') (by simp)
      simp only [cellsWf, Bool.and_eq_true, decide_eq_true_eq] at hc hd
      have hkk : k = k' := by
        rcases Nat.lt_trichotomy k k' with hlt | heq | hgt
        · have h0 : lookupCell ((k', v') :: d) k = 0 := by
            rw [lookupCell, if_neg (by omega)]
            exact lookupCell_head_lt d hd.2 (by omega)
          have h1 := h k
          rw [h0] at h1
          simp only [lookupCell, if_true] at h1
          exact absurd h1 hx.2.2
        · exact heq
        · have h0 : lookupCell ((k, v) :: c) k' = 0 := by
            rw [lookupCell, if_neg (by omega)]
            exact lookupCell_head_lt c hc.2 (by omega)
          have h1 := h k'
          rw [h0] at h1
          simp only [lookupCell, if_true] at h1
          exact absurd h1.symm hy.2.2
      subst hkk
      have hv : v = v' := by simpa [lookupCell] using h k
      subst hv
      rw [ih d hc.2 hd.2 fun p => ?_]
      by_cases hp : k = p
      · subst hp
        rw [lookupCell_head_lt c hc.2 (by omega), lookupCell_head_lt d hd.2 (by omega)]
      · simpa [lookupCell, hp] using h p

/-- Two canonical spaces with the same length and the same bytes are the same data. -/
theorem Memory.ext_of_wf {m m' : Memory} (h : m.wf = true) (h' : m'.wf = true) (hlen : m.len = m'.len)
    (hget : ∀ p, p < m.len → m.get p = m'.get p) : m = m' := by
  have hcells : m.cells = m'.cells := cells_ext _ _ h h' fun p => by
    by_cases hp : p < m.len
    · exact hget p hp
    · exact (Memory.get_of_len_le h (by omega)).trans (Memory.get_of_len_le h' (by omega)).symm
  cases m; cases m'; simp_all

/-- A copy made by reading the whole of a space and writing it into an empty one is the space itself (R161). -/
theorem Memory.put_toList_empty {m : Memory} (h : m.wf = true) : Memory.empty.put 0 m.toList = m := by
  by_cases h0 : m.len = 0
  · have hnil : m.toList = [] := List.eq_nil_of_length_eq_zero (by simp [Memory.toList, h0])
    rw [hnil, Memory.put_nil]
    exact Memory.ext_of_wf rfl h (by simp [h0]) (by simp)
  · have hne : m.toList ≠ [] := fun hn => h0 (by simpa [Memory.toList] using congrArg List.length hn)
    have hl : m.toList.length = m.len := by simp [Memory.toList]
    refine Memory.ext_of_wf (Memory.wf_put rfl _ _) h (by rw [Memory.len_put _ _ hne, hl]; simp) fun p hp => ?_
    rw [Memory.len_put _ _ hne, hl] at hp
    have hp' : p < m.len := by simpa using hp
    rw [Memory.get_put, if_pos (by omega)]
    have hi : p < m.toList.length := by omega
    simp only [Nat.sub_zero, List.getD_eq_getElem?_getD, List.getElem?_eq_getElem hi, Option.getD_some]
    simp [Memory.toList, Memory.getElem_slice]

end Sys2Proof.Machine
end

