-- ==== Sys2Proof/Laws/State.lean ====
section
/-! SUPPORT. What each named update of the state does to each field: one lemma a field, so that no proof unfolds an update. -/

namespace Sys2Proof.Machine

variable (s : State)

/-! ## `returns` -/

@[simp] theorem State.returns_phase (o : CmdOutcome) : (s.returns o).phase = s.phase := rfl
@[simp] theorem State.returns_pcur (o : CmdOutcome) : (s.returns o).pcur = s.pcur := rfl
@[simp] theorem State.returns_recOff (o : CmdOutcome) : (s.returns o).recOff = s.recOff := rfl
@[simp] theorem State.returns_recKind (o : CmdOutcome) : (s.returns o).recKind = s.recKind := rfl
@[simp] theorem State.returns_runLen (o : CmdOutcome) : (s.returns o).runLen = s.runLen := rfl
@[simp] theorem State.returns_buf (o : CmdOutcome) : (s.returns o).buf = s.buf := rfl
@[simp] theorem State.returns_rleCand (o : CmdOutcome) : (s.returns o).rleCand = s.rleCand := rfl
@[simp] theorem State.returns_hMagic (o : CmdOutcome) : (s.returns o).hMagic = s.hMagic := rfl
@[simp] theorem State.returns_hDesc (o : CmdOutcome) : (s.returns o).hDesc = s.hDesc := rfl
@[simp] theorem State.returns_hType (o : CmdOutcome) : (s.returns o).hType = s.hType := rfl
@[simp] theorem State.returns_hCart (o : CmdOutcome) : (s.returns o).hCart = s.hCart := rfl
@[simp] theorem State.returns_hCrc (o : CmdOutcome) : (s.returns o).hCrc = s.hCrc := rfl
@[simp] theorem State.returns_hRsvd (o : CmdOutcome) : (s.returns o).hRsvd = s.hRsvd := rfl
@[simp] theorem State.returns_hLen (o : CmdOutcome) : (s.returns o).hLen = s.hLen := rfl
@[simp] theorem State.returns_identOut (o : CmdOutcome) : (s.returns o).identOut = s.identOut := rfl
@[simp] theorem State.returns_errKind (o : CmdOutcome) : (s.returns o).errKind = s.errKind := rfl
@[simp] theorem State.returns_errCrcPat (o : CmdOutcome) : (s.returns o).errCrcPat = s.errCrcPat := rfl
@[simp] theorem State.returns_errCrcImg (o : CmdOutcome) : (s.returns o).errCrcImg = s.errCrcImg := rfl
@[simp] theorem State.returns_errSpace (o : CmdOutcome) : (s.returns o).errSpace = s.errSpace := rfl
@[simp] theorem State.returns_errPos (o : CmdOutcome) : (s.returns o).errPos = s.errPos := rfl
@[simp] theorem State.returns_img (o : CmdOutcome) : (s.returns o).img = s.img := rfl
@[simp] theorem State.returns_pat (o : CmdOutcome) : (s.returns o).pat = s.pat := rfl
@[simp] theorem State.returns_dst (o : CmdOutcome) : (s.returns o).dst = s.dst := rfl
@[simp] theorem State.returns_outcome (o : CmdOutcome) : (s.returns o).outcome = some o := rfl
@[simp] theorem State.returns_host (o : CmdOutcome) : (s.returns o).host = s.host := rfl
@[simp] theorem State.returns_env (o : CmdOutcome) : (s.returns o).env = s.env := rfl
@[simp] theorem State.returns_draws (o : CmdOutcome) : (s.returns o).draws = s.draws := rfl

/-! ## `asked` -/

@[simp] theorem State.asked_phase : (s.asked).phase = s.phase := rfl
@[simp] theorem State.asked_pcur : (s.asked).pcur = s.pcur := rfl
@[simp] theorem State.asked_recOff : (s.asked).recOff = s.recOff := rfl
@[simp] theorem State.asked_recKind : (s.asked).recKind = s.recKind := rfl
@[simp] theorem State.asked_runLen : (s.asked).runLen = s.runLen := rfl
@[simp] theorem State.asked_buf : (s.asked).buf = s.buf := rfl
@[simp] theorem State.asked_rleCand : (s.asked).rleCand = s.rleCand := rfl
@[simp] theorem State.asked_hMagic : (s.asked).hMagic = s.hMagic := rfl
@[simp] theorem State.asked_hDesc : (s.asked).hDesc = s.hDesc := rfl
@[simp] theorem State.asked_hType : (s.asked).hType = s.hType := rfl
@[simp] theorem State.asked_hCart : (s.asked).hCart = s.hCart := rfl
@[simp] theorem State.asked_hCrc : (s.asked).hCrc = s.hCrc := rfl
@[simp] theorem State.asked_hRsvd : (s.asked).hRsvd = s.hRsvd := rfl
@[simp] theorem State.asked_hLen : (s.asked).hLen = s.hLen := rfl
@[simp] theorem State.asked_identOut : (s.asked).identOut = s.identOut := rfl
@[simp] theorem State.asked_errKind : (s.asked).errKind = s.errKind := rfl
@[simp] theorem State.asked_errCrcPat : (s.asked).errCrcPat = s.errCrcPat := rfl
@[simp] theorem State.asked_errCrcImg : (s.asked).errCrcImg = s.errCrcImg := rfl
@[simp] theorem State.asked_errSpace : (s.asked).errSpace = s.errSpace := rfl
@[simp] theorem State.asked_errPos : (s.asked).errPos = s.errPos := rfl
@[simp] theorem State.asked_img : (s.asked).img = s.img := rfl
@[simp] theorem State.asked_pat : (s.asked).pat = s.pat := rfl
@[simp] theorem State.asked_dst : (s.asked).dst = s.dst := rfl
@[simp] theorem State.asked_outcome : (s.asked).outcome = s.outcome := rfl
@[simp] theorem State.asked_host : (s.asked).host = s.host := rfl
@[simp] theorem State.asked_env : (s.asked).env = s.env.tail := rfl
@[simp] theorem State.asked_draws : (s.asked).draws = s.draws := rfl

/-! ## `askedTimes` -/

@[simp] theorem State.askedTimes_phase (n : Nat) : (s.askedTimes n).phase = s.phase := rfl
@[simp] theorem State.askedTimes_pcur (n : Nat) : (s.askedTimes n).pcur = s.pcur := rfl
@[simp] theorem State.askedTimes_recOff (n : Nat) : (s.askedTimes n).recOff = s.recOff := rfl
@[simp] theorem State.askedTimes_recKind (n : Nat) : (s.askedTimes n).recKind = s.recKind := rfl
@[simp] theorem State.askedTimes_runLen (n : Nat) : (s.askedTimes n).runLen = s.runLen := rfl
@[simp] theorem State.askedTimes_buf (n : Nat) : (s.askedTimes n).buf = s.buf := rfl
@[simp] theorem State.askedTimes_rleCand (n : Nat) : (s.askedTimes n).rleCand = s.rleCand := rfl
@[simp] theorem State.askedTimes_hMagic (n : Nat) : (s.askedTimes n).hMagic = s.hMagic := rfl
@[simp] theorem State.askedTimes_hDesc (n : Nat) : (s.askedTimes n).hDesc = s.hDesc := rfl
@[simp] theorem State.askedTimes_hType (n : Nat) : (s.askedTimes n).hType = s.hType := rfl
@[simp] theorem State.askedTimes_hCart (n : Nat) : (s.askedTimes n).hCart = s.hCart := rfl
@[simp] theorem State.askedTimes_hCrc (n : Nat) : (s.askedTimes n).hCrc = s.hCrc := rfl
@[simp] theorem State.askedTimes_hRsvd (n : Nat) : (s.askedTimes n).hRsvd = s.hRsvd := rfl
@[simp] theorem State.askedTimes_hLen (n : Nat) : (s.askedTimes n).hLen = s.hLen := rfl
@[simp] theorem State.askedTimes_identOut (n : Nat) : (s.askedTimes n).identOut = s.identOut := rfl
@[simp] theorem State.askedTimes_errKind (n : Nat) : (s.askedTimes n).errKind = s.errKind := rfl
@[simp] theorem State.askedTimes_errCrcPat (n : Nat) : (s.askedTimes n).errCrcPat = s.errCrcPat := rfl
@[simp] theorem State.askedTimes_errCrcImg (n : Nat) : (s.askedTimes n).errCrcImg = s.errCrcImg := rfl
@[simp] theorem State.askedTimes_errSpace (n : Nat) : (s.askedTimes n).errSpace = s.errSpace := rfl
@[simp] theorem State.askedTimes_errPos (n : Nat) : (s.askedTimes n).errPos = s.errPos := rfl
@[simp] theorem State.askedTimes_img (n : Nat) : (s.askedTimes n).img = s.img := rfl
@[simp] theorem State.askedTimes_pat (n : Nat) : (s.askedTimes n).pat = s.pat := rfl
@[simp] theorem State.askedTimes_dst (n : Nat) : (s.askedTimes n).dst = s.dst := rfl
@[simp] theorem State.askedTimes_outcome (n : Nat) : (s.askedTimes n).outcome = s.outcome := rfl
@[simp] theorem State.askedTimes_host (n : Nat) : (s.askedTimes n).host = s.host := rfl
@[simp] theorem State.askedTimes_env (n : Nat) : (s.askedTimes n).env = s.env.drop n := rfl
@[simp] theorem State.askedTimes_draws (n : Nat) : (s.askedTimes n).draws = s.draws := rfl

/-! ## `tookMove` -/

@[simp] theorem State.tookMove_phase : (s.tookMove).phase = s.phase := rfl
@[simp] theorem State.tookMove_pcur : (s.tookMove).pcur = s.pcur := rfl
@[simp] theorem State.tookMove_recOff : (s.tookMove).recOff = s.recOff := rfl
@[simp] theorem State.tookMove_recKind : (s.tookMove).recKind = s.recKind := rfl
@[simp] theorem State.tookMove_runLen : (s.tookMove).runLen = s.runLen := rfl
@[simp] theorem State.tookMove_buf : (s.tookMove).buf = s.buf := rfl
@[simp] theorem State.tookMove_rleCand : (s.tookMove).rleCand = s.rleCand := rfl
@[simp] theorem State.tookMove_hMagic : (s.tookMove).hMagic = s.hMagic := rfl
@[simp] theorem State.tookMove_hDesc : (s.tookMove).hDesc = s.hDesc := rfl
@[simp] theorem State.tookMove_hType : (s.tookMove).hType = s.hType := rfl
@[simp] theorem State.tookMove_hCart : (s.tookMove).hCart = s.hCart := rfl
@[simp] theorem State.tookMove_hCrc : (s.tookMove).hCrc = s.hCrc := rfl
@[simp] theorem State.tookMove_hRsvd : (s.tookMove).hRsvd = s.hRsvd := rfl
@[simp] theorem State.tookMove_hLen : (s.tookMove).hLen = s.hLen := rfl
@[simp] theorem State.tookMove_identOut : (s.tookMove).identOut = s.identOut := rfl
@[simp] theorem State.tookMove_errKind : (s.tookMove).errKind = s.errKind := rfl
@[simp] theorem State.tookMove_errCrcPat : (s.tookMove).errCrcPat = s.errCrcPat := rfl
@[simp] theorem State.tookMove_errCrcImg : (s.tookMove).errCrcImg = s.errCrcImg := rfl
@[simp] theorem State.tookMove_errSpace : (s.tookMove).errSpace = s.errSpace := rfl
@[simp] theorem State.tookMove_errPos : (s.tookMove).errPos = s.errPos := rfl
@[simp] theorem State.tookMove_img : (s.tookMove).img = s.img := rfl
@[simp] theorem State.tookMove_pat : (s.tookMove).pat = s.pat := rfl
@[simp] theorem State.tookMove_dst : (s.tookMove).dst = s.dst := rfl
@[simp] theorem State.tookMove_outcome : (s.tookMove).outcome = s.outcome := rfl
@[simp] theorem State.tookMove_host : (s.tookMove).host = s.host.tail := rfl
@[simp] theorem State.tookMove_env : (s.tookMove).env = s.env := rfl
@[simp] theorem State.tookMove_draws : (s.tookMove).draws = s.draws := rfl

/-! ## `loseIdent` -/

@[simp] theorem State.loseIdent_phase : (s.loseIdent).phase = s.phase := rfl
@[simp] theorem State.loseIdent_pcur : (s.loseIdent).pcur = s.pcur := rfl
@[simp] theorem State.loseIdent_recOff : (s.loseIdent).recOff = s.recOff := rfl
@[simp] theorem State.loseIdent_recKind : (s.loseIdent).recKind = s.recKind := rfl
@[simp] theorem State.loseIdent_runLen : (s.loseIdent).runLen = s.runLen := rfl
@[simp] theorem State.loseIdent_buf : (s.loseIdent).buf = s.buf := rfl
@[simp] theorem State.loseIdent_rleCand : (s.loseIdent).rleCand = s.rleCand := rfl
@[simp] theorem State.loseIdent_hMagic : (s.loseIdent).hMagic = s.hMagic := rfl
@[simp] theorem State.loseIdent_hDesc : (s.loseIdent).hDesc = s.hDesc := rfl
@[simp] theorem State.loseIdent_hType : (s.loseIdent).hType = s.hType := rfl
@[simp] theorem State.loseIdent_hCart : (s.loseIdent).hCart = s.hCart := rfl
@[simp] theorem State.loseIdent_hCrc : (s.loseIdent).hCrc = s.hCrc := rfl
@[simp] theorem State.loseIdent_hRsvd : (s.loseIdent).hRsvd = s.hRsvd := rfl
@[simp] theorem State.loseIdent_hLen : (s.loseIdent).hLen = s.hLen := rfl
@[simp] theorem State.loseIdent_identOut : (s.loseIdent).identOut = Config.freeBytes 12 s.draws 13 := rfl
@[simp] theorem State.loseIdent_errKind : (s.loseIdent).errKind = s.errKind := rfl
@[simp] theorem State.loseIdent_errCrcPat : (s.loseIdent).errCrcPat = s.errCrcPat := rfl
@[simp] theorem State.loseIdent_errCrcImg : (s.loseIdent).errCrcImg = s.errCrcImg := rfl
@[simp] theorem State.loseIdent_errSpace : (s.loseIdent).errSpace = s.errSpace := rfl
@[simp] theorem State.loseIdent_errPos : (s.loseIdent).errPos = s.errPos := rfl
@[simp] theorem State.loseIdent_img : (s.loseIdent).img = s.img := rfl
@[simp] theorem State.loseIdent_pat : (s.loseIdent).pat = s.pat := rfl
@[simp] theorem State.loseIdent_dst : (s.loseIdent).dst = s.dst := rfl
@[simp] theorem State.loseIdent_outcome : (s.loseIdent).outcome = s.outcome := rfl
@[simp] theorem State.loseIdent_host : (s.loseIdent).host = s.host := rfl
@[simp] theorem State.loseIdent_env : (s.loseIdent).env = s.env := rfl
@[simp] theorem State.loseIdent_draws : (s.loseIdent).draws = s.draws + 1 := rfl

/-! ## `loseDst` -/

@[simp] theorem State.loseDst_phase : (s.loseDst).phase = s.phase := rfl
@[simp] theorem State.loseDst_pcur : (s.loseDst).pcur = s.pcur := rfl
@[simp] theorem State.loseDst_recOff : (s.loseDst).recOff = s.recOff := rfl
@[simp] theorem State.loseDst_recKind : (s.loseDst).recKind = s.recKind := rfl
@[simp] theorem State.loseDst_runLen : (s.loseDst).runLen = s.runLen := rfl
@[simp] theorem State.loseDst_buf : (s.loseDst).buf = s.buf := rfl
@[simp] theorem State.loseDst_rleCand : (s.loseDst).rleCand = s.rleCand := rfl
@[simp] theorem State.loseDst_hMagic : (s.loseDst).hMagic = s.hMagic := rfl
@[simp] theorem State.loseDst_hDesc : (s.loseDst).hDesc = s.hDesc := rfl
@[simp] theorem State.loseDst_hType : (s.loseDst).hType = s.hType := rfl
@[simp] theorem State.loseDst_hCart : (s.loseDst).hCart = s.hCart := rfl
@[simp] theorem State.loseDst_hCrc : (s.loseDst).hCrc = s.hCrc := rfl
@[simp] theorem State.loseDst_hRsvd : (s.loseDst).hRsvd = s.hRsvd := rfl
@[simp] theorem State.loseDst_hLen : (s.loseDst).hLen = s.hLen := rfl
@[simp] theorem State.loseDst_identOut : (s.loseDst).identOut = s.identOut := rfl
@[simp] theorem State.loseDst_errKind : (s.loseDst).errKind = s.errKind := rfl
@[simp] theorem State.loseDst_errCrcPat : (s.loseDst).errCrcPat = s.errCrcPat := rfl
@[simp] theorem State.loseDst_errCrcImg : (s.loseDst).errCrcImg = s.errCrcImg := rfl
@[simp] theorem State.loseDst_errSpace : (s.loseDst).errSpace = s.errSpace := rfl
@[simp] theorem State.loseDst_errPos : (s.loseDst).errPos = s.errPos := rfl
@[simp] theorem State.loseDst_img : (s.loseDst).img = s.img := rfl
@[simp] theorem State.loseDst_pat : (s.loseDst).pat = s.pat := rfl
@[simp] theorem State.loseDst_dst : (s.loseDst).dst = Memory.empty.unspecifyFrom 0 s.draws := rfl
@[simp] theorem State.loseDst_outcome : (s.loseDst).outcome = s.outcome := rfl
@[simp] theorem State.loseDst_host : (s.loseDst).host = s.host := rfl
@[simp] theorem State.loseDst_env : (s.loseDst).env = s.env := rfl
@[simp] theorem State.loseDst_draws : (s.loseDst).draws = s.draws + 1 := rfl

/-! ## `loseHeader` -/

@[simp] theorem State.loseHeader_phase : (s.loseHeader).phase = s.phase := rfl
@[simp] theorem State.loseHeader_pcur : (s.loseHeader).pcur = s.pcur := rfl
@[simp] theorem State.loseHeader_recOff : (s.loseHeader).recOff = s.recOff := rfl
@[simp] theorem State.loseHeader_recKind : (s.loseHeader).recKind = s.recKind := rfl
@[simp] theorem State.loseHeader_runLen : (s.loseHeader).runLen = s.runLen := rfl
@[simp] theorem State.loseHeader_buf : (s.loseHeader).buf = s.buf := rfl
@[simp] theorem State.loseHeader_rleCand : (s.loseHeader).rleCand = s.rleCand := rfl
@[simp] theorem State.loseHeader_hMagic : (s.loseHeader).hMagic = Config.freeBytes 7 s.draws 6 := rfl
@[simp] theorem State.loseHeader_hDesc : (s.loseHeader).hDesc = Config.freeBytes 50 s.draws 7 := rfl
@[simp] theorem State.loseHeader_hType : (s.loseHeader).hType = Config.freeBits 8 s.draws 8 := rfl
@[simp] theorem State.loseHeader_hCart : (s.loseHeader).hCart = Config.freeBytes 3 s.draws 9 := rfl
@[simp] theorem State.loseHeader_hCrc : (s.loseHeader).hCrc = Config.freeBytes 8 s.draws 10 := rfl
@[simp] theorem State.loseHeader_hRsvd : (s.loseHeader).hRsvd = Config.freeBytes 5 s.draws 11 := rfl
@[simp] theorem State.loseHeader_hLen : (s.loseHeader).hLen = Config.freeBits 32 s.draws 12 := rfl
@[simp] theorem State.loseHeader_identOut : (s.loseHeader).identOut = s.identOut := rfl
@[simp] theorem State.loseHeader_errKind : (s.loseHeader).errKind = s.errKind := rfl
@[simp] theorem State.loseHeader_errCrcPat : (s.loseHeader).errCrcPat = s.errCrcPat := rfl
@[simp] theorem State.loseHeader_errCrcImg : (s.loseHeader).errCrcImg = s.errCrcImg := rfl
@[simp] theorem State.loseHeader_errSpace : (s.loseHeader).errSpace = s.errSpace := rfl
@[simp] theorem State.loseHeader_errPos : (s.loseHeader).errPos = s.errPos := rfl
@[simp] theorem State.loseHeader_img : (s.loseHeader).img = s.img := rfl
@[simp] theorem State.loseHeader_pat : (s.loseHeader).pat = s.pat := rfl
@[simp] theorem State.loseHeader_dst : (s.loseHeader).dst = s.dst := rfl
@[simp] theorem State.loseHeader_outcome : (s.loseHeader).outcome = s.outcome := rfl
@[simp] theorem State.loseHeader_host : (s.loseHeader).host = s.host := rfl
@[simp] theorem State.loseHeader_env : (s.loseHeader).env = s.env := rfl
@[simp] theorem State.loseHeader_draws : (s.loseHeader).draws = s.draws + 1 := rfl

/-! ## `latch` -/

@[simp] theorem State.latch_phase (f : Header) : (s.latch f).phase = s.phase := rfl
@[simp] theorem State.latch_pcur (f : Header) : (s.latch f).pcur = s.pcur := rfl
@[simp] theorem State.latch_recOff (f : Header) : (s.latch f).recOff = s.recOff := rfl
@[simp] theorem State.latch_recKind (f : Header) : (s.latch f).recKind = s.recKind := rfl
@[simp] theorem State.latch_runLen (f : Header) : (s.latch f).runLen = s.runLen := rfl
@[simp] theorem State.latch_buf (f : Header) : (s.latch f).buf = s.buf := rfl
@[simp] theorem State.latch_rleCand (f : Header) : (s.latch f).rleCand = s.rleCand := rfl
@[simp] theorem State.latch_hMagic (f : Header) : (s.latch f).hMagic = f.magic := rfl
@[simp] theorem State.latch_hDesc (f : Header) : (s.latch f).hDesc = f.desc := rfl
@[simp] theorem State.latch_hType (f : Header) : (s.latch f).hType = f.type := rfl
@[simp] theorem State.latch_hCart (f : Header) : (s.latch f).hCart = f.cart := rfl
@[simp] theorem State.latch_hCrc (f : Header) : (s.latch f).hCrc = f.crc := rfl
@[simp] theorem State.latch_hRsvd (f : Header) : (s.latch f).hRsvd = f.rsvd := rfl
@[simp] theorem State.latch_hLen (f : Header) : (s.latch f).hLen = f.length := rfl
@[simp] theorem State.latch_identOut (f : Header) : (s.latch f).identOut = s.identOut := rfl
@[simp] theorem State.latch_errKind (f : Header) : (s.latch f).errKind = s.errKind := rfl
@[simp] theorem State.latch_errCrcPat (f : Header) : (s.latch f).errCrcPat = s.errCrcPat := rfl
@[simp] theorem State.latch_errCrcImg (f : Header) : (s.latch f).errCrcImg = s.errCrcImg := rfl
@[simp] theorem State.latch_errSpace (f : Header) : (s.latch f).errSpace = s.errSpace := rfl
@[simp] theorem State.latch_errPos (f : Header) : (s.latch f).errPos = s.errPos := rfl
@[simp] theorem State.latch_img (f : Header) : (s.latch f).img = s.img := rfl
@[simp] theorem State.latch_pat (f : Header) : (s.latch f).pat = s.pat := rfl
@[simp] theorem State.latch_dst (f : Header) : (s.latch f).dst = s.dst := rfl
@[simp] theorem State.latch_outcome (f : Header) : (s.latch f).outcome = s.outcome := rfl
@[simp] theorem State.latch_host (f : Header) : (s.latch f).host = s.host := rfl
@[simp] theorem State.latch_env (f : Header) : (s.latch f).env = s.env := rfl
@[simp] theorem State.latch_draws (f : Header) : (s.latch f).draws = s.draws := rfl

/-! ## `raise` -/

@[simp] theorem State.raise_phase (e : Exc) : (s.raise e).phase = .fault := by cases e <;> rfl
@[simp] theorem State.raise_pcur (e : Exc) : (s.raise e).pcur = s.pcur := by cases e <;> rfl
@[simp] theorem State.raise_recOff (e : Exc) : (s.raise e).recOff = s.recOff := by cases e <;> rfl
@[simp] theorem State.raise_recKind (e : Exc) : (s.raise e).recKind = s.recKind := by cases e <;> rfl
@[simp] theorem State.raise_runLen (e : Exc) : (s.raise e).runLen = s.runLen := by cases e <;> rfl
@[simp] theorem State.raise_buf (e : Exc) : (s.raise e).buf = s.buf := by cases e <;> rfl
@[simp] theorem State.raise_rleCand (e : Exc) : (s.raise e).rleCand = s.rleCand := by cases e <;> rfl
@[simp] theorem State.raise_hMagic (e : Exc) : (s.raise e).hMagic = s.hMagic := by cases e <;> rfl
@[simp] theorem State.raise_hDesc (e : Exc) : (s.raise e).hDesc = s.hDesc := by cases e <;> rfl
@[simp] theorem State.raise_hType (e : Exc) : (s.raise e).hType = s.hType := by cases e <;> rfl
@[simp] theorem State.raise_hCart (e : Exc) : (s.raise e).hCart = s.hCart := by cases e <;> rfl
@[simp] theorem State.raise_hCrc (e : Exc) : (s.raise e).hCrc = s.hCrc := by cases e <;> rfl
@[simp] theorem State.raise_hRsvd (e : Exc) : (s.raise e).hRsvd = s.hRsvd := by cases e <;> rfl
@[simp] theorem State.raise_hLen (e : Exc) : (s.raise e).hLen = s.hLen := by cases e <;> rfl
@[simp] theorem State.raise_identOut (e : Exc) : (s.raise e).identOut = s.identOut := by cases e <;> rfl
@[simp] theorem State.raise_errKind (e : Exc) : (s.raise e).errKind = some e.kind := by cases e <;> rfl
@[simp] theorem State.raise_img (e : Exc) : (s.raise e).img = s.img := by cases e <;> rfl
@[simp] theorem State.raise_pat (e : Exc) : (s.raise e).pat = s.pat := by cases e <;> rfl
@[simp] theorem State.raise_dst (e : Exc) : (s.raise e).dst = s.dst := by cases e <;> rfl
@[simp] theorem State.raise_outcome (e : Exc) : (s.raise e).outcome = some (.fault e.kind) := by cases e <;> rfl
@[simp] theorem State.raise_host (e : Exc) : (s.raise e).host = s.host := by cases e <;> rfl
@[simp] theorem State.raise_env (e : Exc) : (s.raise e).env = s.env := by cases e <;> rfl
@[simp] theorem State.raise_draws (e : Exc) : (s.raise e).draws = s.draws + 1 := by cases e <;> rfl

/-! ## `commitRecord` -/

@[simp] theorem State.commitRecord_phase (r : Record) : (s.commitRecord r).phase = s.phase := by cases r <;> rfl
@[simp] theorem State.commitRecord_recKind (r : Record) : (s.commitRecord r).recKind = recordKind r := by cases r <;> rfl
@[simp] theorem State.commitRecord_rleCand (r : Record) : (s.commitRecord r).rleCand = s.rleCand := by cases r <;> rfl
@[simp] theorem State.commitRecord_hMagic (r : Record) : (s.commitRecord r).hMagic = s.hMagic := by cases r <;> rfl
@[simp] theorem State.commitRecord_hDesc (r : Record) : (s.commitRecord r).hDesc = s.hDesc := by cases r <;> rfl
@[simp] theorem State.commitRecord_hType (r : Record) : (s.commitRecord r).hType = s.hType := by cases r <;> rfl
@[simp] theorem State.commitRecord_hCart (r : Record) : (s.commitRecord r).hCart = s.hCart := by cases r <;> rfl
@[simp] theorem State.commitRecord_hCrc (r : Record) : (s.commitRecord r).hCrc = s.hCrc := by cases r <;> rfl
@[simp] theorem State.commitRecord_hRsvd (r : Record) : (s.commitRecord r).hRsvd = s.hRsvd := by cases r <;> rfl
@[simp] theorem State.commitRecord_hLen (r : Record) : (s.commitRecord r).hLen = s.hLen := by cases r <;> rfl
@[simp] theorem State.commitRecord_identOut (r : Record) : (s.commitRecord r).identOut = s.identOut := by cases r <;> rfl
@[simp] theorem State.commitRecord_errKind (r : Record) : (s.commitRecord r).errKind = s.errKind := by cases r <;> rfl
@[simp] theorem State.commitRecord_errCrcPat (r : Record) : (s.commitRecord r).errCrcPat = s.errCrcPat := by cases r <;> rfl
@[simp] theorem State.commitRecord_errCrcImg (r : Record) : (s.commitRecord r).errCrcImg = s.errCrcImg := by cases r <;> rfl
@[simp] theorem State.commitRecord_errSpace (r : Record) : (s.commitRecord r).errSpace = s.errSpace := by cases r <;> rfl
@[simp] theorem State.commitRecord_errPos (r : Record) : (s.commitRecord r).errPos = s.errPos := by cases r <;> rfl
@[simp] theorem State.commitRecord_img (r : Record) : (s.commitRecord r).img = s.img := by cases r <;> rfl
@[simp] theorem State.commitRecord_pat (r : Record) : (s.commitRecord r).pat = s.pat := by cases r <;> rfl
@[simp] theorem State.commitRecord_dst (r : Record) : (s.commitRecord r).dst = s.dst := by cases r <;> rfl
@[simp] theorem State.commitRecord_outcome (r : Record) : (s.commitRecord r).outcome = s.outcome := by cases r <;> rfl
@[simp] theorem State.commitRecord_host (r : Record) : (s.commitRecord r).host = s.host := by cases r <;> rfl
@[simp] theorem State.commitRecord_env (r : Record) : (s.commitRecord r).env = s.env := by cases r <;> rfl
@[simp] theorem State.commitRecord_draws (r : Record) : (s.commitRecord r).draws = s.draws + 1 := by cases r <;> rfl

/-! ## `doReset` -/

@[simp] theorem State.doReset_phase : (s.doReset).phase = .idle := rfl
@[simp] theorem State.doReset_pcur : (s.doReset).pcur = Config.freeNat s.draws 0 := rfl
@[simp] theorem State.doReset_recOff : (s.doReset).recOff = Config.freeBits 32 s.draws 1 := rfl
@[simp] theorem State.doReset_recKind : (s.doReset).recKind = if Config.freeBool s.draws 2 then .lit else .rle := rfl
@[simp] theorem State.doReset_runLen : (s.doReset).runLen = Config.freeBits 8 s.draws 3 := rfl
@[simp] theorem State.doReset_buf : (s.doReset).buf = Config.freeBytes 255 s.draws 4 := rfl
@[simp] theorem State.doReset_rleCand : (s.doReset).rleCand = Config.freeBool s.draws 5 := rfl
@[simp] theorem State.doReset_hMagic : (s.doReset).hMagic = Config.freeBytes 7 s.draws 6 := rfl
@[simp] theorem State.doReset_hDesc : (s.doReset).hDesc = Config.freeBytes 50 s.draws 7 := rfl
@[simp] theorem State.doReset_hType : (s.doReset).hType = Config.freeBits 8 s.draws 8 := rfl
@[simp] theorem State.doReset_hCart : (s.doReset).hCart = Config.freeBytes 3 s.draws 9 := rfl
@[simp] theorem State.doReset_hCrc : (s.doReset).hCrc = Config.freeBytes 8 s.draws 10 := rfl
@[simp] theorem State.doReset_hRsvd : (s.doReset).hRsvd = Config.freeBytes 5 s.draws 11 := rfl
@[simp] theorem State.doReset_hLen : (s.doReset).hLen = Config.freeBits 32 s.draws 12 := rfl
@[simp] theorem State.doReset_identOut : (s.doReset).identOut = Config.freeBytes 12 s.draws 13 := rfl
@[simp] theorem State.doReset_errKind : (s.doReset).errKind = none := rfl
@[simp] theorem State.doReset_errCrcPat : (s.doReset).errCrcPat = Config.freeBytes 8 s.draws 14 := rfl
@[simp] theorem State.doReset_errCrcImg : (s.doReset).errCrcImg = Config.freeBytes 8 s.draws 15 := rfl
@[simp] theorem State.doReset_errSpace : (s.doReset).errSpace = Config.freeBits 2 s.draws 16 := rfl
@[simp] theorem State.doReset_errPos : (s.doReset).errPos = Config.freeNat s.draws 17 := rfl
@[simp] theorem State.doReset_img : (s.doReset).img = s.img := rfl
@[simp] theorem State.doReset_pat : (s.doReset).pat = s.pat := rfl
@[simp] theorem State.doReset_dst : (s.doReset).dst = s.dst := rfl
@[simp] theorem State.doReset_outcome : (s.doReset).outcome = none := rfl
@[simp] theorem State.doReset_host : (s.doReset).host = s.host := rfl
@[simp] theorem State.doReset_env : (s.doReset).env = s.env := rfl
@[simp] theorem State.doReset_draws : (s.doReset).draws = s.draws + 1 := rfl

/-! ## `bindSpace` -/

@[simp] theorem State.bindSpace_phase (sp : Space) (bs : List Byte) : (s.bindSpace sp bs).phase = s.phase := by cases sp <;> rfl
@[simp] theorem State.bindSpace_pcur (sp : Space) (bs : List Byte) : (s.bindSpace sp bs).pcur = s.pcur := by cases sp <;> rfl
@[simp] theorem State.bindSpace_recOff (sp : Space) (bs : List Byte) : (s.bindSpace sp bs).recOff = s.recOff := by cases sp <;> rfl
@[simp] theorem State.bindSpace_recKind (sp : Space) (bs : List Byte) : (s.bindSpace sp bs).recKind = s.recKind := by cases sp <;> rfl
@[simp] theorem State.bindSpace_runLen (sp : Space) (bs : List Byte) : (s.bindSpace sp bs).runLen = s.runLen := by cases sp <;> rfl
@[simp] theorem State.bindSpace_buf (sp : Space) (bs : List Byte) : (s.bindSpace sp bs).buf = s.buf := by cases sp <;> rfl
@[simp] theorem State.bindSpace_rleCand (sp : Space) (bs : List Byte) : (s.bindSpace sp bs).rleCand = s.rleCand := by cases sp <;> rfl
@[simp] theorem State.bindSpace_hMagic (sp : Space) (bs : List Byte) : (s.bindSpace sp bs).hMagic = s.hMagic := by cases sp <;> rfl
@[simp] theorem State.bindSpace_hDesc (sp : Space) (bs : List Byte) : (s.bindSpace sp bs).hDesc = s.hDesc := by cases sp <;> rfl
@[simp] theorem State.bindSpace_hType (sp : Space) (bs : List Byte) : (s.bindSpace sp bs).hType = s.hType := by cases sp <;> rfl
@[simp] theorem State.bindSpace_hCart (sp : Space) (bs : List Byte) : (s.bindSpace sp bs).hCart = s.hCart := by cases sp <;> rfl
@[simp] theorem State.bindSpace_hCrc (sp : Space) (bs : List Byte) : (s.bindSpace sp bs).hCrc = s.hCrc := by cases sp <;> rfl
@[simp] theorem State.bindSpace_hRsvd (sp : Space) (bs : List Byte) : (s.bindSpace sp bs).hRsvd = s.hRsvd := by cases sp <;> rfl
@[simp] theorem State.bindSpace_hLen (sp : Space) (bs : List Byte) : (s.bindSpace sp bs).hLen = s.hLen := by cases sp <;> rfl
@[simp] theorem State.bindSpace_identOut (sp : Space) (bs : List Byte) : (s.bindSpace sp bs).identOut = s.identOut := by cases sp <;> rfl
@[simp] theorem State.bindSpace_errKind (sp : Space) (bs : List Byte) : (s.bindSpace sp bs).errKind = s.errKind := by cases sp <;> rfl
@[simp] theorem State.bindSpace_errCrcPat (sp : Space) (bs : List Byte) : (s.bindSpace sp bs).errCrcPat = s.errCrcPat := by cases sp <;> rfl
@[simp] theorem State.bindSpace_errCrcImg (sp : Space) (bs : List Byte) : (s.bindSpace sp bs).errCrcImg = s.errCrcImg := by cases sp <;> rfl
@[simp] theorem State.bindSpace_errSpace (sp : Space) (bs : List Byte) : (s.bindSpace sp bs).errSpace = s.errSpace := by cases sp <;> rfl
@[simp] theorem State.bindSpace_errPos (sp : Space) (bs : List Byte) : (s.bindSpace sp bs).errPos = s.errPos := by cases sp <;> rfl
@[simp] theorem State.bindSpace_outcome (sp : Space) (bs : List Byte) : (s.bindSpace sp bs).outcome = s.outcome := by cases sp <;> rfl
@[simp] theorem State.bindSpace_host (sp : Space) (bs : List Byte) : (s.bindSpace sp bs).host = s.host := by cases sp <;> rfl
@[simp] theorem State.bindSpace_env (sp : Space) (bs : List Byte) : (s.bindSpace sp bs).env = s.env := by cases sp <;> rfl
@[simp] theorem State.bindSpace_draws (sp : Space) (bs : List Byte) : (s.bindSpace sp bs).draws = s.draws := by cases sp <;> rfl

/-! ## The fields that depend on what is raised, committed or bound -/

@[simp] theorem State.raise_validation_errCrcPat (p g : Vector Byte 8) : (s.raise (.validation p g)).errCrcPat = p := rfl
@[simp] theorem State.raise_validation_errCrcImg (p g : Vector Byte 8) : (s.raise (.validation p g)).errCrcImg = g := rfl
@[simp] theorem State.raise_io_errSpace (sp : Space) (a : Nat) : (s.raise (.io sp a)).errSpace = sp.code := rfl
@[simp] theorem State.raise_io_errPos (sp : Space) (a : Nat) : (s.raise (.io sp a)).errPos = a := rfl
@[simp] theorem State.raise_format_errSpace (a : Nat) : (s.raise (.format a)).errSpace = Space.pat.code := rfl
@[simp] theorem State.raise_format_errPos (a : Nat) : (s.raise (.format a)).errPos = a := rfl
@[simp] theorem State.commitRecord_literal_recOff (off : Word) (bs : List Byte) : (s.commitRecord (.literal off bs)).recOff = off := rfl
@[simp] theorem State.commitRecord_literal_runLen (off : Word) (bs : List Byte) : (s.commitRecord (.literal off bs)).runLen = BitVec.ofNat 8 bs.length := rfl
@[simp] theorem State.commitRecord_literal_buf (off : Word) (bs : List Byte) : (s.commitRecord (.literal off bs)).buf = bufLoad bs s.draws := rfl
@[simp] theorem State.commitRecord_literal_pcur (off : Word) (bs : List Byte) : (s.commitRecord (.literal off bs)).pcur = s.pcur + (5 + bs.length) := rfl
@[simp] theorem State.commitRecord_runLength_recOff (off : Word) (f n : Byte) : (s.commitRecord (.runLength off f n)).recOff = off := rfl
@[simp] theorem State.commitRecord_runLength_runLen (off : Word) (f n : Byte) : (s.commitRecord (.runLength off f n)).runLen = n := rfl
@[simp] theorem State.commitRecord_runLength_buf (off : Word) (f n : Byte) : (s.commitRecord (.runLength off f n)).buf = bufLoad [f] s.draws := rfl
@[simp] theorem State.commitRecord_runLength_pcur (off : Word) (f n : Byte) : (s.commitRecord (.runLength off f n)).pcur = s.pcur + 7 := rfl
@[simp] theorem State.bindSpace_img_img (bs : List Byte) : (s.bindSpace .img bs).img = Memory.ofBytes bs := rfl
@[simp] theorem State.bindSpace_img_pat (bs : List Byte) : (s.bindSpace .img bs).pat = s.pat := rfl
@[simp] theorem State.bindSpace_img_dst (bs : List Byte) : (s.bindSpace .img bs).dst = s.dst := rfl
@[simp] theorem State.bindSpace_pat_img (bs : List Byte) : (s.bindSpace .pat bs).img = s.img := rfl
@[simp] theorem State.bindSpace_pat_pat (bs : List Byte) : (s.bindSpace .pat bs).pat = Memory.ofBytes bs := rfl
@[simp] theorem State.bindSpace_pat_dst (bs : List Byte) : (s.bindSpace .pat bs).dst = s.dst := rfl
@[simp] theorem State.bindSpace_dst_img (bs : List Byte) : (s.bindSpace .dst bs).img = s.img := rfl
@[simp] theorem State.bindSpace_dst_pat (bs : List Byte) : (s.bindSpace .dst bs).pat = s.pat := rfl
@[simp] theorem State.bindSpace_dst_dst (bs : List Byte) : (s.bindSpace .dst bs).dst = Memory.ofBytes bs := rfl

/-! ## Reading a space through an update that leaves the spaces alone -/

@[simp] theorem State.asked_space (sp : Space) : s.asked.space sp = s.space sp := by cases sp <;> rfl
@[simp] theorem State.space_img : s.space .img = s.img := rfl
@[simp] theorem State.space_pat : s.space .pat = s.pat := rfl
@[simp] theorem State.space_dst : s.space .dst = s.dst := rfl

end Sys2Proof.Machine
end

