-- ==== Sys2Proof/Laws/Ops.lean ====
section
/-! SUPPORT. What each shared operation can do, said once: the accesses, and how a command goes on after one. -/

namespace Sys2Proof.Machine

@[simp] theorem andThen_ok {α : Type} (a : α) (s : State) (k : α → State → Result) :
    andThen (.ok a, s) k = k a s := rfl

@[simp] theorem andThen_error {α : Type} (e : Exc) (s : State) (k : α → State → Result) :
    andThen (.error e, s) k = .next (s.raise e) := rfl

@[simp] theorem onRaise_ok {α : Type} (f : State → State) (a : α) (s : State) :
    onRaise f (.ok a, s) = (.ok a, s) := rfl

@[simp] theorem onRaise_error {α : Type} (f : State → State) (e : Exc) (s : State) :
    onRaise f ((.error e, s) : Access α) = (.error e, f s) := rfl

/-- R56, R57: a read of at least one byte is past the end, failed by the environment, or gives the bytes. -/
theorem memRead_cases (sp : Space) (a n : Nat) (s : State) (hn : n ≠ 0) :
    ((s.space sp).len < a + n ∧ memRead sp a n s = (.error (pastEnd sp a), s))
    ∨ (a + n ≤ (s.space sp).len ∧ s.ioFails = true ∧ memRead sp a n s = (.error (.io sp a), s.asked))
    ∨ (a + n ≤ (s.space sp).len ∧ s.ioFails = false
        ∧ memRead sp a n s = (.ok ((s.space sp).read a n), s.asked)) := by
  unfold memRead
  rw [if_neg hn]
  by_cases h : (s.space sp).len < a + n
  · exact .inl ⟨h, if_pos h⟩
  · rw [if_neg h]
    cases hf : s.ioFails
    · exact .inr (.inr ⟨by omega, rfl, rfl⟩)
    · exact .inr (.inl ⟨by omega, rfl, rfl⟩)

theorem memRead_ok {sp : Space} {a n : Nat} {s : State} (hn : n ≠ 0) (hlen : a + n ≤ (s.space sp).len)
    (hf : s.ioFails = false) : memRead sp a n s = (.ok ((s.space sp).read a n), s.asked) := by
  simp [memRead, hn, Nat.not_lt.2 hlen, hf]

theorem memRead_pastEnd {sp : Space} {a n : Nat} {s : State} (hn : n ≠ 0) (hlen : (s.space sp).len < a + n) :
    memRead sp a n s = (.error (pastEnd sp a), s) := by
  simp [memRead, hn, hlen]

theorem memRead_fails {sp : Space} {a n : Nat} {s : State} (hn : n ≠ 0) (hlen : a + n ≤ (s.space sp).len)
    (hf : s.ioFails = true) : memRead sp a n s = (.error (.io sp a), s.asked) := by
  simp [memRead, hn, Nat.not_lt.2 hlen, hf]

theorem writePat_ok {s : State} (a : Nat) (bs : List Byte) (hf : s.ioFails = false) :
    writePat a bs s = (.ok (), { s.asked with pat := s.pat.putEnd a bs }) := by
  simp [writePat, hf]

theorem writePat_fails {s : State} (a : Nat) (bs : List Byte) (hf : s.ioFails = true) :
    writePat a bs s =
      (.error (.io .pat a), { s.asked with pat := s.pat.unspecifyFrom a s.draws, draws := s.draws + 1 }) := by
  simp [writePat, hf]

theorem writeDst_ok {s : State} (a : Nat) (bs : List Byte) (hf : s.ioFails = false) :
    writeDst a bs s = (.ok (), { s.asked with dst := s.dst.put a bs }) := by
  simp [writeDst, hf]

theorem writeDst_fails {s : State} (a : Nat) (bs : List Byte) (hf : s.ioFails = true) :
    writeDst a bs s =
      (.error (.io .dst a),
        { s.asked with
          dst := s.dst.unspecify (min a s.dst.len) (a + bs.length) s.draws, draws := s.draws + 1 }) := by
  simp [writeDst, hf]

/-! ## The environment's answers -/

/-- An environment that passes the next accesses passes the first, and the rest after it. -/
theorem State.passes_succ {s : State} {n : Nat} (h : s.passes (n + 1)) :
    s.ioFails = false ∧ s.asked.passes n := by
  unfold State.passes at *
  unfold State.ioFails State.asked
  cases he : s.env with
  | nil => simp
  | cons b bs =>
    simp only [he, List.take_succ_cons, List.mem_cons, forall_eq_or_imp] at h
    simpa using h

theorem State.passes_mono {s : State} {m n : Nat} (h : s.passes n) (hmn : m ≤ n) : s.passes m := fun b hb =>
  h b ((List.take_subset_take_left s.env hmn) hb)

theorem State.passes_of_always {s : State} (h : s.alwaysPasses) (n : Nat) : s.passes n := fun b hb =>
  h b (List.mem_of_mem_take hb)

theorem State.alwaysPasses_asked {s : State} (h : s.alwaysPasses) : s.asked.alwaysPasses := fun b hb =>
  h b (List.mem_of_mem_tail hb)

theorem State.asked_eq (s : State) : s.asked = s.askedTimes 1 := by
  simp [State.asked, State.askedTimes, List.drop_one]

@[simp] theorem State.askedTimes_zero (s : State) : s.askedTimes 0 = s := rfl

theorem State.askedTimes_asked (s : State) (n : Nat) : (s.askedTimes n).asked = s.askedTimes (n + 1) := by
  simp [State.asked, State.askedTimes, List.tail_drop]

end Sys2Proof.Machine
end

