-- ==== Sys2Proof/Laws/Commands.lean ====
section
/-! SUPPORT. One inversion lemma for each command: every way it can end, with the state it leaves. Later proofs split on
these and never unfold a meaning. -/

namespace Sys2Proof.Machine

@[simp] theorem finish_next (s : State) : finish s = .next (s.returns .ok) := rfl
@[simp] theorem refuse_next (s : State) : refuse s = .next (s.returns .refused) := rfl
@[simp] theorem raiseExc_next (e : Exc) (s : State) : raiseExc e s = .next (s.raise e) := rfl

/-- R111: `HGEN` is refused, raises at one of its three accesses, or writes the header. -/
theorem execHgen_cases {len : Word} {s t : State} (h : execHgen len s = .next t) :
    (s.phase ≠ .idle ∧ t = s.returns .refused)
    ∨ (s.phase = .idle ∧
        ((s.img.len < 0x3F ∧ t = s.raise (.io .img 0x3C))
        ∨ (0x3F ≤ s.img.len ∧ s.ioFails = true ∧ t = s.asked.raise (.io .img 0x3C))
        ∨ (0x3F ≤ s.img.len ∧ s.ioFails = false ∧ s.asked.ioFails = true ∧ t = s.asked.asked.raise (.io .img 0x10))
        ∨ (0x3F ≤ s.img.len ∧ s.ioFails = false ∧ s.asked.ioFails = false ∧ s.asked.asked.ioFails = true
            ∧ t = State.raise { s.asked.asked.asked with
                pat := Memory.empty.unspecifyFrom 0 s.draws, draws := s.draws + 1 } (.io .pat 0))
        ∨ (0x3F ≤ s.img.len ∧ s.ioFails = false ∧ s.asked.ioFails = false ∧ s.asked.asked.ioFails = false
            ∧ t = State.returns { s.asked.asked.asked with
                pat := Memory.empty.putEnd 0 (hdrBytes (s.img.read 0x3C 3) (s.img.read 0x10 8) len)
                pcur := 0x4E, phase := .enc } .ok))) := by
  unfold execHgen at h
  by_cases hp : s.phase = .idle
  · refine .inr ⟨hp, ?_⟩
    rw [if_neg (not_not.2 hp)] at h
    rcases memRead_cases .img Config.imgOffCart 3 s (by decide) with ⟨hl, hr⟩ | ⟨hl, hf, hr⟩ | ⟨hl, hf, hr⟩
    · rw [hr] at h
      exact .inl ⟨hl, by simpa [pastEnd] using h.symm⟩
    · rw [hr] at h
      exact .inr (.inl ⟨hl, hf, by simpa using h.symm⟩)
    · rw [hr, andThen_ok] at h
      have hl' : Config.imgOffCrc + 8 ≤ (s.asked.space .img).len := by
        simp only [State.space_img, State.asked_img, Config.imgOffCart, Config.imgOffCrc] at hl ⊢; omega
      cases hf₂ : s.asked.ioFails
      · rw [memRead_ok (by decide) hl' hf₂, andThen_ok] at h
        cases hf₃ : s.asked.asked.ioFails
        · rw [writePat_ok _ _ (by simpa [State.ioFails] using hf₃), andThen_ok] at h
          exact .inr (.inr (.inr (.inr ⟨hl, hf, rfl, rfl, by simpa using h.symm⟩)))
        · rw [writePat_fails _ _ (by simpa [State.ioFails] using hf₃), andThen_error] at h
          exact .inr (.inr (.inr (.inl ⟨hl, hf, rfl, rfl, by simpa using h.symm⟩)))
      · rw [memRead_fails (by decide) hl' hf₂] at h
        exact .inr (.inr (.inl ⟨hl, hf, rfl, by simpa using h.symm⟩))
  · rw [if_pos hp] at h
    exact .inl ⟨hp, by simpa using h.symm⟩

/-- R113: `HPARSE` is refused, raises (the latches lose their values), or latches the header. -/
theorem execHparse_cases {s t : State} (h : execHparse s = .next t) :
    (s.phase ≠ .idle ∧ t = s.returns .refused)
    ∨ (s.phase = .idle ∧
        ((s.pat.len < 78 ∧ t = s.loseHeader.raise (.format 0))
        ∨ (78 ≤ s.pat.len ∧ s.ioFails = true ∧ t = s.asked.loseHeader.raise (.io .pat 0))
        ∨ (78 ≤ s.pat.len ∧ s.ioFails = false ∧ t = (s.asked.latch (hdrParse (s.pat.read 0 78))).returns .ok))) := by
  unfold execHparse at h
  by_cases hp : s.phase = .idle
  · refine .inr ⟨hp, ?_⟩
    rw [if_neg (not_not.2 hp)] at h
    rcases memRead_cases .pat 0 78 s (by decide) with ⟨hl, hr⟩ | ⟨hl, hf, hr⟩ | ⟨hl, hf, hr⟩
    · rw [hr] at h
      exact .inl ⟨by simpa using hl, by simpa [pastEnd] using h.symm⟩
    · rw [hr] at h
      exact .inr (.inl ⟨by simpa using hl, hf, by simpa using h.symm⟩)
    · rw [hr] at h
      exact .inr (.inr ⟨by simpa using hl, hf, by simpa using h.symm⟩)
  · rw [if_pos hp] at h
    exact .inl ⟨hp, by simpa using h.symm⟩

/-- R180: `IDENT` is refused, raises (`IDENT_OUT` loses its value), or names the patch. -/
theorem execIdent_cases {s t : State} (h : execIdent s = .next t) :
    (s.phase ≠ .idle ∧ t = s.returns .refused)
    ∨ (s.phase = .idle ∧
        ((s.pat.len < 0x41 ∧ t = s.loseIdent.raise (.format 0x3D))
        ∨ (0x41 ≤ s.pat.len ∧ s.ioFails = true ∧ t = s.asked.loseIdent.raise (.io .pat 0x3D))
        ∨ (0x41 ≤ s.pat.len ∧ s.ioFails = false
            ∧ t = State.returns { s.asked with identOut := identName (s.pat.read 0x3D 4) } .ok))) := by
  unfold execIdent at h
  by_cases hp : s.phase = .idle
  · refine .inr ⟨hp, ?_⟩
    rw [if_neg (not_not.2 hp)] at h
    rcases memRead_cases .pat Config.offCrc 4 s (by decide) with ⟨hl, hr⟩ | ⟨hl, hf, hr⟩ | ⟨hl, hf, hr⟩
    · rw [hr] at h
      exact .inl ⟨by simpa using hl, by simpa [pastEnd] using h.symm⟩
    · rw [hr] at h
      exact .inr (.inl ⟨by simpa using hl, hf, by simpa using h.symm⟩)
    · rw [hr] at h
      exact .inr (.inr ⟨by simpa using hl, hf, by simpa using h.symm⟩)
  · rw [if_pos hp] at h
    exact .inl ⟨hp, by simpa using h.symm⟩

/-- R150: `CRCCHK` is refused, raises at one of its reads or at the comparison, or passes. -/
theorem execCrcchk_cases {s t : State} (h : execCrcchk s = .next t) :
    (s.phase ≠ .idle ∧ t = s.returns .refused)
    ∨ (s.phase = .idle ∧
        ((s.pat.len < 0x45 ∧ t = s.raise (.format 0x3D))
        ∨ (0x45 ≤ s.pat.len ∧ s.ioFails = true ∧ t = s.asked.raise (.io .pat 0x3D))
        ∨ (0x45 ≤ s.pat.len ∧ s.ioFails = false ∧ s.img.len < 0x18 ∧ t = s.asked.raise (.io .img 0x10))
        ∨ (0x45 ≤ s.pat.len ∧ s.ioFails = false ∧ 0x18 ≤ s.img.len ∧ s.asked.ioFails = true
            ∧ t = s.asked.asked.raise (.io .img 0x10))
        ∨ (0x45 ≤ s.pat.len ∧ s.ioFails = false ∧ 0x18 ≤ s.img.len ∧ s.asked.ioFails = false
            ∧ crcEqual (s.pat.read 0x3D 8) (s.img.read 0x10 8) = false
            ∧ t = s.asked.asked.raise (.validation (s.pat.read 0x3D 8) (s.img.read 0x10 8)))
        ∨ (0x45 ≤ s.pat.len ∧ s.ioFails = false ∧ 0x18 ≤ s.img.len ∧ s.asked.ioFails = false
            ∧ crcEqual (s.pat.read 0x3D 8) (s.img.read 0x10 8) = true
            ∧ t = State.returns { s.asked.asked with phase := .valid } .ok))) := by
  unfold execCrcchk at h
  by_cases hp : s.phase = .idle
  · refine .inr ⟨hp, ?_⟩
    rw [if_neg (not_not.2 hp)] at h
    rcases memRead_cases .pat Config.offCrc 8 s (by decide) with ⟨hl, hr⟩ | ⟨hl, hf, hr⟩ | ⟨hl, hf, hr⟩
    · rw [hr] at h
      exact .inl ⟨by simpa using hl, by simpa [pastEnd] using h.symm⟩
    · rw [hr] at h
      exact .inr (.inl ⟨by simpa using hl, hf, by simpa using h.symm⟩)
    · rw [hr, andThen_ok] at h
      have hl₁ : 0x45 ≤ s.pat.len := by simpa using hl
      rcases memRead_cases .img Config.imgOffCrc 8 s.asked (by decide) with ⟨hl₂, hr₂⟩ | ⟨hl₂, hf₂, hr₂⟩ | ⟨hl₂, hf₂, hr₂⟩
      · rw [hr₂] at h
        exact .inr (.inr (.inl ⟨hl₁, hf, by simpa using hl₂, by simpa [pastEnd] using h.symm⟩))
      · rw [hr₂] at h
        exact .inr (.inr (.inr (.inl ⟨hl₁, hf, by simpa using hl₂, hf₂, by simpa using h.symm⟩)))
      · rw [hr₂, andThen_ok] at h
        have hl₃ : 0x18 ≤ s.img.len := by simpa using hl₂
        split at h
        · next hc =>
          exact .inr (.inr (.inr (.inr (.inr ⟨hl₁, hf, hl₃, hf₂, by simpa using hc, by simpa using h.symm⟩))))
        · next hc =>
          exact .inr (.inr (.inr (.inr (.inl ⟨hl₁, hf, hl₃, hf₂, by simpa using hc, by simpa using h.symm⟩))))
  · rw [if_pos hp] at h
    exact .inl ⟨hp, by simpa using h.symm⟩

/-- R161: `DCOPY` is refused, raises at the read or the write, or copies `IMG`. -/
theorem execDcopy_cases {s t : State} (h : execDcopy s = .next t) :
    (s.phase ≠ .valid ∧ t = s.returns .refused)
    ∨ (s.phase = .valid ∧
        ((s.img.len = 0 ∧ t = State.returns { s with dst := Memory.empty, pcur := 0x4E, phase := .dec } .ok)
        ∨ (s.img.len ≠ 0 ∧ s.ioFails = true ∧ t = s.asked.loseDst.raise (.io .img 0))
        ∨ (s.img.len ≠ 0 ∧ s.ioFails = false ∧ s.asked.ioFails = true ∧ t = s.asked.asked.loseDst.raise (.io .dst 0))
        ∨ (s.img.len ≠ 0 ∧ s.ioFails = false ∧ s.asked.ioFails = false
            ∧ t = State.returns { s.asked.asked with dst := s.img, pcur := 0x4E, phase := .dec } .ok))) := by
  unfold execDcopy at h
  by_cases hp : s.phase = .valid
  · refine .inr ⟨hp, ?_⟩
    rw [if_neg (not_not.2 hp)] at h
    by_cases hl : s.img.len = 0
    · rw [if_pos hl] at h
      exact .inl ⟨hl, by simpa using h.symm⟩
    · rw [if_neg hl] at h
      cases hf : s.ioFails
      · cases hf₂ : s.asked.ioFails
        · simp only [hf, hf₂] at h
          exact .inr (.inr (.inr ⟨hl, rfl, rfl, by simpa using h.symm⟩))
        · simp only [hf, hf₂] at h
          exact .inr (.inr (.inl ⟨hl, rfl, rfl, by simpa using h.symm⟩))
      · simp only [hf] at h
        exact .inr (.inl ⟨hl, rfl, by simpa using h.symm⟩)
  · rw [if_pos hp] at h
    exact .inl ⟨hp, by simpa using h.symm⟩

/-- R131: `RBEGIN` is refused or opens a run. -/
theorem execRbegin_cases {off : Word} {s t : State} (h : execRbegin off s = .next t) :
    (s.phase ≠ .enc ∧ t = s.returns .refused)
    ∨ (s.phase = .enc
        ∧ t = State.returns { s with
            recOff := off, runLen := 0, rleCand := true, phase := .run
            buf := bufLoad [] s.draws, draws := s.draws + 1 } .ok) := by
  unfold execRbegin at h
  split at h
  · next hp => exact .inl ⟨hp, by simpa using h.symm⟩
  · next hp => exact .inr ⟨not_not.1 hp, by simpa using h.symm⟩

/-- R23: `FULL` as a condition on `RUN_LEN`. -/
theorem State.full_iff (s : State) : s.full = true ↔ s.runLen = 255 := by
  rw [State.full, beq_iff_eq]
  exact ⟨fun h => BitVec.eq_of_toNat_eq h, fun h => h ▸ rfl⟩

/-- R132: `RPUSH` is refused or adds its byte to the run. -/
theorem execRpush_cases {b : Byte} {s t : State} (h : execRpush b s = .next t) :
    ((s.phase ≠ .run ∨ s.runLen = 255) ∧ t = s.returns .refused)
    ∨ (s.phase = .run ∧ s.runLen ≠ 255
        ∧ t = State.returns { s with
            rleCand := pushedCand s b, buf := s.buf.setIfInBounds s.runLen.toNat b, runLen := s.runLen + 1 } .ok) := by
  unfold execRpush at h
  split at h
  · next hp => exact .inl ⟨hp.imp_right s.full_iff.1, by simpa using h.symm⟩
  · next hp =>
    obtain ⟨h₁, h₂⟩ := not_or.1 hp
    exact .inr ⟨not_not.1 h₁, mt s.full_iff.2 h₂, by simpa using h.symm⟩

/-- R133: `RFLUSH` is refused, raises at its write, or appends the run's record. -/
theorem execRflush_cases {s t : State} (h : execRflush s = .next t) :
    ((s.phase ≠ .run ∨ s.runLen = 0) ∧ t = s.returns .refused)
    ∨ (s.phase = .run ∧ s.runLen ≠ 0 ∧
        ((s.ioFails = true
            ∧ t = State.raise { s.asked with pat := s.pat.unspecifyFrom s.pcur s.draws, draws := s.draws + 1 }
                (.io .pat s.pcur))
        ∨ (s.ioFails = false
            ∧ t = State.returns { s.asked with
                pat := s.pat.putEnd s.pcur (recBytes s.runRecord), pcur := s.pcur + (recBytes s.runRecord).length
                recKind := recordKind s.runRecord, phase := .enc } .ok))) := by
  unfold execRflush at h
  split at h
  · next hp => exact .inl ⟨hp, by simpa using h.symm⟩
  · next hp =>
    obtain ⟨h₁, h₂⟩ := not_or.1 hp
    refine .inr ⟨not_not.1 h₁, h₂, ?_⟩
    cases hf : s.ioFails
    · rw [writePat_ok _ _ hf] at h
      exact .inr ⟨rfl, by simpa using h.symm⟩
    · rw [writePat_fails _ _ hf] at h
      exact .inl ⟨rfl, by simpa using h.symm⟩

/-- R136: `EFIN` is refused or ends the patch. -/
theorem execEfin_cases {s t : State} (h : execEfin s = .next t) :
    (s.phase ≠ .enc ∧ t = s.returns .refused)
    ∨ (s.phase = .enc ∧ t = State.returns { s with phase := .idle } .ok) := by
  unfold execEfin at h
  split at h
  · next hp => exact .inl ⟨hp, by simpa using h.symm⟩
  · next hp => exact .inr ⟨not_not.1 hp, by simpa using h.symm⟩

/-- R163, R164: a record performed writes `DST` or raises at the write; a record of no byte does neither. -/
theorem performRecord_cases {r : Record} {s t : State} (h : performRecord r s = .next t) :
    (t = s.returns .ok ∧ ∀ d, apply1 d r = d)
    ∨ (s.ioFails = false ∧ t = State.returns { s.asked with dst := apply1 s.dst r } .ok)
    ∨ (s.ioFails = true ∧ ∃ off n, t = State.raise { s.asked with
        dst := s.dst.unspecify (min off s.dst.len) (off + n) s.draws, draws := s.draws + 1 } (.io .dst off)) := by
  cases r with
  | literal off bs =>
    simp only [performRecord, execLit] at h
    cases hf : s.ioFails
    · rw [writeDst_ok _ _ hf] at h
      exact .inr (.inl ⟨rfl, by simpa [apply1] using h.symm⟩)
    · rw [writeDst_fails _ _ hf] at h
      exact .inr (.inr ⟨rfl, off.toNat, bs.length, by simpa using h.symm⟩)
  | runLength off f n =>
    simp only [performRecord, execRle] at h
    split at h
    · next hn =>
      refine .inl ⟨by simpa using h.symm, fun d => ?_⟩
      subst hn
      simp [apply1]
    · cases hf : s.ioFails
      · rw [writeDst_ok _ _ hf] at h
        exact .inr (.inl ⟨rfl, by simpa [apply1] using h.symm⟩)
      · rw [writeDst_fails _ _ hf] at h
        exact .inr (.inr ⟨rfl, off.toNat, n.toNat, by simpa using h.symm⟩)

/-- R92: the record at the front of a space's bytes from `a` on. -/
def Memory.recordAt (m : Memory) (a : Nat) : Record :=
  recordOf (m.read a 5).toList (m.read (a + 5) (tailLen (lenOrZero (m.read a 5).toList))).toList

@[simp] theorem lenOrZero_read (m : Memory) (a : Nat) : lenOrZero (m.read a 5).toList = m.get (a + 4) := by
  simp [lenOrZero, Memory.read]

theorem tailLen_ne_zero (n : Byte) : tailLen n ≠ 0 := by
  unfold tailLen
  split
  · decide
  · next h => exact fun h0 => h (BitVec.eq_of_toNat_eq (by simpa using h0))

/-- R162, R165: `RDEC` is refused, ends at the end of the stream, raises while it fetches (nothing committed), or commits
the record at `PCUR` and performs it. -/
theorem execRdec_cases {s t : State} (h : execRdec s = .next t) :
    (s.phase ≠ .dec ∧ t = s.returns .refused)
    ∨ (s.phase = .dec ∧
        ((s.pcur = s.pat.len ∧ t = State.returns { s with phase := .idle } .endOfPatch)
        ∨ (s.pcur ≠ s.pat.len ∧ s.pat.len < s.pcur + 5 ∧ t = s.raise (.format s.pcur))
        ∨ (s.pcur + 5 ≤ s.pat.len ∧ s.ioFails = true ∧ t = s.asked.raise (.io .pat s.pcur))
        ∨ (s.pcur + 5 ≤ s.pat.len ∧ s.ioFails = false ∧ s.pat.len < s.pcur + 5 + tailLen (s.pat.get (s.pcur + 4))
            ∧ t = s.asked.raise (.format (s.pcur + 5)))
        ∨ (s.pcur + 5 + tailLen (s.pat.get (s.pcur + 4)) ≤ s.pat.len ∧ s.ioFails = false ∧ s.asked.ioFails = true
            ∧ t = s.asked.asked.raise (.io .pat (s.pcur + 5)))
        ∨ (s.pcur + 5 + tailLen (s.pat.get (s.pcur + 4)) ≤ s.pat.len ∧ s.ioFails = false ∧ s.asked.ioFails = false
            ∧ performRecord (s.pat.recordAt s.pcur) (s.asked.asked.commitRecord (s.pat.recordAt s.pcur)) = .next t))) := by
  unfold execRdec at h
  by_cases hp : s.phase = .dec
  · refine .inr ⟨hp, ?_⟩
    rw [if_neg (not_not.2 hp)] at h
    by_cases hend : s.pcur = s.pat.len
    · rw [if_pos hend] at h
      exact .inl ⟨hend, by simpa using h.symm⟩
    · rw [if_neg hend] at h
      rcases memRead_cases .pat s.pcur 5 s (by decide) with ⟨hl, hr⟩ | ⟨hl, hf, hr⟩ | ⟨hl, hf, hr⟩
      · rw [hr] at h
        exact .inr (.inl ⟨hend, by simpa using hl, by simpa [pastEnd] using h.symm⟩)
      · rw [hr] at h
        exact .inr (.inr (.inl ⟨by simpa using hl, hf, by simpa using h.symm⟩))
      · rw [hr, andThen_ok] at h
        have hl₁ : s.pcur + 5 ≤ s.pat.len := by simpa using hl
        rcases memRead_cases .pat (s.asked.pcur + Config.recHead)
          (tailLen (lenOrZero ((s.space .pat).read s.pcur 5).toList)) s.asked
          (tailLen_ne_zero _) with ⟨hl₂, hr₂⟩ | ⟨hl₂, hf₂, hr₂⟩ | ⟨hl₂, hf₂, hr₂⟩
        · rw [hr₂] at h
          exact .inr (.inr (.inr (.inl ⟨hl₁, hf, by simpa using hl₂, by simpa [pastEnd] using h.symm⟩)))
        · rw [hr₂] at h
          exact .inr (.inr (.inr (.inr (.inl ⟨by simpa using hl₂, hf, hf₂, by simpa using h.symm⟩))))
        · rw [hr₂, andThen_ok] at h
          exact .inr (.inr (.inr (.inr (.inr ⟨by simpa using hl₂, hf, hf₂, h⟩))))
  · rw [if_pos hp] at h
    exact .inl ⟨hp, by simpa using h.symm⟩

end Sys2Proof.Machine
end

