-- ==== Sys2Proof/Laws/Decode.lean ====
section
/-! SUPPORT. The small lemmas of the encodings: byte order (R10), the fields of a command word (R100), and which
instructions the command decoder can give. -/

namespace Sys2Proof

/-! ## Well-formed records (R94) -/

@[simp] theorem Record.wf_literal (off : Word) (bytes : List Byte) :
    (Record.literal off bytes).wf = true ↔ 1 ≤ bytes.length ∧ bytes.length ≤ 255 := by
  simp only [Record.wf, Bool.and_eq_true, decide_eq_true_eq]

@[simp] theorem Record.wf_runLength (off : Word) (fill count : Byte) :
    (Record.runLength off fill count).wf = true := rfl

@[simp] theorem Instr.wf_lit (off : Word) (data : List Byte) :
    (Instr.lit off data).wf = true ↔ 1 ≤ data.length ∧ data.length ≤ 255 := by
  simp only [Instr.wf, Bool.and_eq_true, decide_eq_true_eq]

/-! ## Byte order -/

@[simp] theorem length_bytesLe32 (v : Word) : (bytesLe32 v).length = 4 := rfl

/-- R10: `le32(bytes_le32(v)) = v`. -/
theorem le32_bytesLe32 (v : Word) (t : List Byte) : le32 (bytesLe32 v ++ t) = v := by
  refine BitVec.eq_of_toNat_eq ?_
  have h : v.toNat < 2 ^ 32 := v.isLt
  simp [le32, bytesLe32, BitVec.extractLsb'_toNat, Nat.shiftRight_eq_div_pow]
  omega

/-- R10: `bytes_le32(le32(s)) = s` for four bytes. -/
theorem bytesLe32_le32 (a b c d : Byte) (t : List Byte) : bytesLe32 (le32 (a :: b :: c :: d :: t)) = [a, b, c, d] := by
  have ha : a.toNat < 2 ^ 8 := a.isLt
  have hb : b.toNat < 2 ^ 8 := b.isLt
  have hc : c.toNat < 2 ^ 8 := c.isLt
  have hd : d.toNat < 2 ^ 8 := d.isLt
  simp only [le32, bytesLe32, List.getD_cons_zero, List.getD_cons_succ, List.cons.injEq, and_true]
  refine ⟨?_, ?_, ?_, ?_⟩ <;> refine BitVec.eq_of_toNat_eq ?_ <;>
    simp only [BitVec.extractLsb'_toNat, BitVec.toNat_ofNat, Nat.shiftRight_eq_div_pow] <;> omega

/-! ## Command words -/

@[simp] theorem opcodeOf_commandWord (arg : Word) (op : Byte) : opcodeOf (commandWord arg op) = op := by
  refine BitVec.eq_of_toNat_eq ?_
  have : op.toNat < 2 ^ 8 := op.isLt
  simp only [opcodeOf, commandWord, BitVec.extractLsb'_toNat, BitVec.toNat_ofNat, Nat.shiftRight_eq_div_pow]
  omega

@[simp] theorem argOf_commandWord (arg : Word) (op : Byte) : argOf (commandWord arg op) = arg := by
  refine BitVec.eq_of_toNat_eq ?_
  have : op.toNat < 2 ^ 8 := op.isLt
  have : arg.toNat < 2 ^ 32 := arg.isLt
  simp only [argOf, commandWord, BitVec.extractLsb'_toNat, BitVec.toNat_ofNat, Nat.shiftRight_eq_div_pow]
  omega

/-- A command word is its operand and its opcode. -/
theorem commandWord_argOf_opcodeOf (cw : CommandWord) : commandWord (argOf cw) (opcodeOf cw) = cw := by
  refine BitVec.eq_of_toNat_eq ?_
  have : cw.toNat < 2 ^ 40 := cw.isLt
  simp only [argOf, opcodeOf, commandWord, BitVec.extractLsb'_toNat, BitVec.toNat_ofNat, Nat.shiftRight_eq_div_pow]
  omega

/-- The command decoder gives commands, never a record of the patch (R101). -/
theorem isCommand_of_decodeCommand {cw : CommandWord} {i : Instr} (h : decodeCommand cw = .ok i) :
    i.isCommand = true := by
  unfold decodeCommand at h
  split at h <;> first | (injection h with h; subst h; rfl) | exact absurd h (by simp)

end Sys2Proof
end

