-- ==== Sys2Proof/Laws/PerInstr.lean ====
section
/-! SUPPORT. The family `CodeWordShape`, one lemma for each instruction: the shape of its code word. A command word
carries the instruction's opcode in its low byte (R101); a record is a five-byte prefix and what its fifth byte announces
(R93). -/

namespace Sys2Proof.Laws.CodeWordShape

/-- Whether a code word is a command word with this opcode. -/
def isCommandWord (w : CodeWord) (opcode : Byte) : Prop := ∃ cw, w = .command cw ∧ opcodeOf cw = opcode

/-- Whether a code word is the bytes of one whole record with this fifth byte. -/
def isRecordBytes (w : CodeWord) (n : Byte) : Prop :=
  ∃ bs, w = .record bs ∧ lenOrZero bs = n ∧ bs.length = Config.recHead + tailLen n

/-- R93, R101: the shape of the code word of a well-formed instruction. -/
def Statement (i : Instr) : Prop :=
  i.wf = true →
    match i with
    | .rle _ _ _ => isRecordBytes (encode i) 0
    | .lit _ data => isRecordBytes (encode i) (BitVec.ofNat 8 data.length)
    | .reset => isCommandWord (encode i) 0x00
    | .hgen _ => isCommandWord (encode i) 0x01
    | .rbegin _ => isCommandWord (encode i) 0x02
    | .rpush _ => isCommandWord (encode i) 0x03
    | .rflush => isCommandWord (encode i) 0x04
    | .efin => isCommandWord (encode i) 0x05
    | .hparse => isCommandWord (encode i) 0x06
    | .ident => isCommandWord (encode i) 0x07
    | .crcchk => isCommandWord (encode i) 0x08
    | .dcopy => isCommandWord (encode i) 0x09
    | .rdec => isCommandWord (encode i) 0x0A

theorem rle (off : Word) (f n : Byte) : Statement (.rle off f n) := fun _ => ⟨_, rfl, rfl, rfl⟩

theorem lit (off : Word) (data : List Byte) : Statement (.lit off data) := fun h => by
  obtain ⟨h₁, h₂⟩ := (Instr.wf_lit off data).1 h
  have hn : (BitVec.ofNat 8 data.length).toNat = data.length := by rw [BitVec.toNat_ofNat]; omega
  have hne : BitVec.ofNat 8 data.length ≠ 0 := fun h₀ => by
    rw [h₀] at hn
    simp at hn
    omega
  refine ⟨_, rfl, rfl, ?_⟩
  rw [tailLen, if_neg hne, hn]
  simp [recBytes]
  omega

theorem reset : Statement .reset := fun _ => ⟨_, rfl, opcodeOf_commandWord _ _⟩
theorem hgen (n : Word) : Statement (.hgen n) := fun _ => ⟨_, rfl, opcodeOf_commandWord _ _⟩
theorem rbegin (off : Word) : Statement (.rbegin off) := fun _ => ⟨_, rfl, opcodeOf_commandWord _ _⟩
theorem rpush (b : Byte) : Statement (.rpush b) := fun _ => ⟨_, rfl, opcodeOf_commandWord _ _⟩
theorem rflush : Statement .rflush := fun _ => ⟨_, rfl, opcodeOf_commandWord _ _⟩
theorem efin : Statement .efin := fun _ => ⟨_, rfl, opcodeOf_commandWord _ _⟩
theorem hparse : Statement .hparse := fun _ => ⟨_, rfl, opcodeOf_commandWord _ _⟩
theorem ident : Statement .ident := fun _ => ⟨_, rfl, opcodeOf_commandWord _ _⟩
theorem crcchk : Statement .crcchk := fun _ => ⟨_, rfl, opcodeOf_commandWord _ _⟩
theorem dcopy : Statement .dcopy := fun _ => ⟨_, rfl, opcodeOf_commandWord _ _⟩
theorem rdec : Statement .rdec := fun _ => ⟨_, rfl, opcodeOf_commandWord _ _⟩

end Sys2Proof.Laws.CodeWordShape
end

