-- ==== Sys2Proof/Laws/Step.lean ====
section
/-! SUPPORT. What one step can do: the host's moves, and that a command never stops the machine. -/

namespace Sys2Proof.Machine

/-- An access followed by what always ends in a state ends in a state. -/
theorem andThen_next {α : Type} {r : Access α} {k : α → State → Result} (h : ∀ a s, ∃ t, k a s = .next t) :
    ∃ t, andThen r k = .next t := by
  obtain ⟨e | a, s⟩ := r
  · exact ⟨_, rfl⟩
  · exact h a s

theorem performRecord_next (r : Record) (s : State) : ∃ t, performRecord r s = .next t := by
  cases r with
  | literal off bs => exact andThen_next fun _ _ => ⟨_, rfl⟩
  | runLength off f n =>
    simp only [performRecord, execRle]
    split
    · exact ⟨_, rfl⟩
    · exact andThen_next fun _ _ => ⟨_, rfl⟩

/-- Performing a record is executing it as the instruction it is (R162 to R164). -/
theorem performRecord_eq_exec (r : Record) (s : State) : performRecord r s = exec r.toInstr s := by
  cases r <;> rfl

/-- Every instruction ends in a next state: a refusal and a raise are next states too (R13). -/
theorem exec_next (i : Instr) (s : State) : ∃ t, exec i s = .next t := by
  cases i with
  | rle off f n => exact performRecord_next (.runLength off f n) s
  | lit off d => exact performRecord_next (.literal off d) s
  | reset => exact ⟨_, rfl⟩
  | hgen n =>
    simp only [exec, execHgen]
    split
    · exact ⟨_, rfl⟩
    · exact andThen_next fun _ _ => andThen_next fun _ _ => andThen_next fun _ _ => ⟨_, rfl⟩
  | rbegin off =>
    simp only [exec, execRbegin]
    split <;> exact ⟨_, rfl⟩
  | rpush b =>
    simp only [exec, execRpush]
    split <;> exact ⟨_, rfl⟩
  | rflush =>
    simp only [exec, execRflush]
    split
    · exact ⟨_, rfl⟩
    · exact andThen_next fun _ _ => ⟨_, rfl⟩
  | efin =>
    simp only [exec, execEfin]
    split <;> exact ⟨_, rfl⟩
  | hparse =>
    simp only [exec, execHparse]
    split
    · exact ⟨_, rfl⟩
    · exact andThen_next fun _ _ => ⟨_, rfl⟩
  | ident =>
    simp only [exec, execIdent]
    split
    · exact ⟨_, rfl⟩
    · exact andThen_next fun _ _ => ⟨_, rfl⟩
  | crcchk =>
    simp only [exec, execCrcchk]
    split
    · exact ⟨_, rfl⟩
    · refine andThen_next fun _ _ => andThen_next fun _ _ => ?_
      split <;> exact ⟨_, rfl⟩
  | dcopy =>
    simp only [exec, execDcopy]
    repeat' split
    all_goals exact ⟨_, rfl⟩
  | rdec =>
    simp only [exec, execRdec]
    split
    · exact ⟨_, rfl⟩
    · split
      · exact ⟨_, rfl⟩
      · exact andThen_next fun _ _ => andThen_next fun _ _ => performRecord_next _ _

/-- Everything a step that ends in a state can have been: no move of the host, a command, a word that is no command, the
reset input, or a space bound while the host may bind it. -/
theorem step_cases {s t : State} (h : step s = .next t) :
    (s.host = [] ∧ t = s)
    ∨ (∃ cw i, s.host.head? = some (.command cw) ∧ decodeCommand cw = .ok i ∧ i.isCommand = true
        ∧ exec i s.tookMove = .next t)
    ∨ (∃ cw e, s.host.head? = some (.command cw) ∧ decodeCommand cw = .error e ∧ t = s.tookMove.returns .refused)
    ∨ (s.host.head? = some .resetLine ∧ t = s.tookMove.doReset)
    ∨ (∃ sp bs, s.host.head? = some (.bind sp bs) ∧ hostMayBind sp s.phase = true
        ∧ t = s.tookMove.bindSpace sp bs) := by
  unfold step advance at h
  split at h
  · next he => exact .inl ⟨he, by simpa using h.symm⟩
  · next m rest he =>
    refine .inr ?_
    simp only [he, List.head?_cons, Option.some.injEq]
    cases m with
    | command cw =>
      simp only [hostMove, issue] at h
      split at h
      · next i hd => exact .inl ⟨cw, i, rfl, hd, isCommand_of_decodeCommand hd, h⟩
      · next e hd => exact .inr (.inl ⟨cw, e, rfl, hd, by simpa using h.symm⟩)
    | resetLine => exact .inr (.inr (.inl ⟨rfl, by simpa [hostMove] using h.symm⟩))
    | bind sp bs =>
      simp only [hostMove] at h
      split at h
      · next hb => exact .inr (.inr (.inr ⟨sp, bs, rfl, by simpa using hb, by simpa using h.symm⟩))
      · exact absurd h (by simp)

/-- A property that every instruction, the reset and a permitted binding keep, and that does not look at the host's
moves or the outcome, every step keeps. -/
theorem step_keeps {P : State → Prop} (hview : ∀ s h o, P s → P { s with host := h, outcome := o })
    (hexec : ∀ i s t, i.isCommand = true → P s → exec i s = .next t → P t) (hreset : ∀ s, P s → P s.doReset)
    (hbind : ∀ s sp bs, hostMayBind sp s.phase = true → P s → P (s.bindSpace sp bs)) {s t : State} (hs : P s)
    (h : step s = .next t) : P t := by
  have htook : P s.tookMove := hview s s.host.tail s.outcome hs
  rcases step_cases h with ⟨-, rfl⟩ | ⟨cw, i, -, -, hi, he⟩ | ⟨cw, e, -, -, rfl⟩ | ⟨-, rfl⟩ | ⟨sp, bs, -, hb, rfl⟩
  · exact hs
  · exact hexec i _ _ hi htook he
  · exact hview _ s.host.tail (some .refused) htook
  · exact hreset _ htook
  · exact hbind _ sp bs (by simpa using hb) htook

end Sys2Proof.Machine
end

