-- ==== Sys2Proof/Laws/Streams.lean ====
section
/-! SUPPORT. Ranges of a space as byte sequences, and what a write, a failed write and an append leave, in the terms of
Safety.lean. -/

namespace Sys2Proof.Machine

/-! ## Ranges as byte sequences -/

theorem Memory.toList_read (m : Memory) (a n : Nat) : (m.read a n).toList = m.slice a (a + n) := by
  unfold Memory.slice
  rw [show a + n - a = n by omega]

theorem Memory.take_slice (m : Memory) {a b n : Nat} (h : a + n ≤ b) :
    (m.slice a b).take n = (m.read a n).toList := by
  refine List.ext_getElem (by simp; omega) fun i h₁ h₂ => ?_
  simp [Memory.getElem_slice, Memory.getElem_read]

theorem Memory.drop_slice (m : Memory) (a b n : Nat) : (m.slice a b).drop n = m.slice (a + n) b := by
  refine List.ext_getElem (by simp; omega) fun i h₁ h₂ => ?_
  simp only [List.getElem_drop, Memory.getElem_slice]
  congr 1
  omega

/-- What stands before an append stays. -/
theorem Memory.slice_putEnd_before (m : Memory) {a b c : Nat} (s : List Byte) (h : c ≤ a) :
    (m.putEnd a s).slice b c = m.slice b c := by
  refine Memory.slice_congr fun p _ hp => ?_
  rw [Memory.get_putEnd, if_pos (by omega)]

/-- A space in canonical form without a byte is the empty space. -/
theorem Memory.eq_empty_of_len {m : Memory} (h : m.wf = true) (h₀ : m.len = 0) : m = Memory.empty :=
  Memory.ext_of_wf h rfl h₀ fun p hp => by omega

/-! ## Written, appended, unspecified -/

theorem Memory.len_le_put (m : Memory) (a : Nat) (s : List Byte) : m.len ≤ (m.put a s).len := by
  by_cases h : s = []
  · subst h; simp
  · rw [Memory.len_put m a h]; omega

theorem Memory.min_le_len_putEnd (m : Memory) (a : Nat) (s : List Byte) : min a m.len ≤ (m.putEnd a s).len := by
  have h := Memory.len_le_put (m.truncate a) a s
  rw [Memory.len_truncate] at h
  unfold Memory.putEnd
  omega

/-- R59: a write of at least one byte. -/
theorem wroteAt_put {d : Memory} (hd : d.wf = true) (a : Nat) {bs : List Byte} (h : bs ≠ []) :
    WroteAt d (d.put a bs) a bs := by
  have hlen := Memory.len_put d a h
  have hpos : 0 < bs.length := List.length_pos_iff.2 h
  refine ⟨hlen, fun i hi => ?_, fun p h₁ h₂ => ?_, fun p h₁ h₂ => ?_⟩
  · rw [Memory.byte?_of_lt (by rw [hlen]; omega), Memory.get_put]
    simp [hi]
  · rw [Memory.byte?_of_lt (by rw [hlen]; omega), Memory.get_put, if_neg (by omega), Memory.get_of_len_le hd h₁]
  · rw [Memory.byte?_of_lt (by rw [hlen]; omega), Memory.byte?_of_lt h₁, Memory.get_put, if_neg h₂]

/-- R58: an append of at least one byte. -/
theorem wroteAt_putEnd (d : Memory) {bs : List Byte} (h : bs ≠ []) : WroteAt d (d.putEnd d.len bs) d.len bs := by
  have hlen := Memory.len_putEnd d d.len h
  refine ⟨by omega, fun i hi => ?_, fun p h₁ h₂ => by omega, fun p h₁ h₂ => ?_⟩
  · rw [Memory.byte?_of_lt (by rw [hlen]; omega), Memory.get_putEnd, if_neg (by omega)]
    simp [hi]
  · rw [Memory.byte?_of_lt (by rw [hlen]; omega), Memory.byte?_of_lt h₁, Memory.get_putEnd, if_pos h₁]

/-- An append is an append of the bytes. -/
theorem toList_of_wroteAt {d m : Memory} {bs : List Byte} (h : WroteAt d m d.len bs) : m.toList = d.toList ++ bs := by
  obtain ⟨hmax, hnew, -, hold⟩ := h
  have hlen : m.len = d.len + bs.length := by omega
  refine List.ext_getElem (by simp [Memory.toList, hlen]) fun i h₁ h₂ => ?_
  have hi : i < m.len := by simpa [Memory.toList] using h₁
  rw [List.getElem_append]
  simp only [Memory.toList, Memory.getElem_slice, Memory.length_slice, Nat.zero_add]
  split
  · have := hold i (by omega) (by omega)
    rw [Memory.byte?_of_lt hi, Memory.byte?_of_lt (by omega)] at this
    simpa using this
  · have hb : i - d.len < bs.length := by omega
    have := hnew (i - d.len) hb
    rw [show d.len + (i - d.len) = i by omega, Memory.byte?_of_lt hi] at this
    simpa [hb] using this

/-- R219: what a failed append leaves of the bytes before it. -/
theorem byte?_unspecifyFrom (d : Memory) (a draw : Nat) {p : Nat} (hp : p < a) (hd : p < d.len) :
    (d.unspecifyFrom a draw).byte? p = d.byte? p := by
  unfold Memory.unspecifyFrom
  have := Memory.min_le_len_putEnd d (min a d.len) (Config.freeStream draw 0)
  rw [Memory.byte?_of_lt (by omega), Memory.byte?_of_lt hd, Memory.get_putEnd, if_pos (by omega)]

/-- R60, R219: what a failed write leaves of the bytes outside it. -/
theorem keptOutside_unspecify (d : Memory) (a n draw : Nat) :
    KeptOutside d (d.unspecify (min a d.len) (a + n) draw) a n := by
  intro p h₁ h₂
  unfold Memory.unspecify
  split
  · exact byte?_unspecifyFrom d _ draw (by omega) h₁
  · have l₁ := Memory.len_le_put d (min a d.len) (Config.freeBytes (a + n - min a d.len) draw 0).toList
    have l₂ := Memory.len_le_put (d.put (min a d.len) (Config.freeBytes (a + n - min a d.len) draw 0).toList) d.len
      (Config.freeStream draw 0)
    rw [Memory.byte?_of_lt (by omega), Memory.byte?_of_lt h₁, Memory.get_put, if_neg (by omega), Memory.get_put,
      if_neg (by simp; omega)]

/-! ## The environment's answers, as an update of `env` -/

theorem State.asked_env_drop (s : State) : s.asked = { s with env := s.env.drop 1 } := by
  rw [State.asked_eq]; rfl

theorem State.asked_asked_env_drop (s : State) : s.asked.asked = { s with env := s.env.drop 2 } := by
  cases h : s.env <;> simp [State.asked, h]

theorem State.asked_asked_asked_env_drop (s : State) : s.asked.asked.asked = { s with env := s.env.drop 3 } := by
  rcases h : s.env with _ | ⟨a, _ | ⟨b, t⟩⟩ <;> simp [State.asked, h]

end Sys2Proof.Machine
end

