-- ==== Sys2Proof/Laws/Runs.lean ====
section
/-! SUPPORT. The run buffer, the record at `PCUR`, and sequences: of commands (R104), and of steps. -/

namespace Sys2Proof.Machine

/-! ## The run buffer (R26) -/

theorem runLen_toNat_lt {n : BitVec 8} (h : n ≠ 255) : n.toNat < 255 := by
  have h₁ : n.toNat ≠ 255 := fun h₀ => h (BitVec.eq_of_toNat_eq (by simpa using h₀))
  have h₂ := n.isLt
  omega

theorem runLen_succ {n : BitVec 8} (h : n ≠ 255) : (n + 1).toNat = n.toNat + 1 := by
  have h₁ := runLen_toNat_lt h
  simp [BitVec.toNat_add]
  omega

theorem runLen_ne_zero {n : BitVec 8} (h : n ≠ 0) : n.toNat ≠ 0 := fun h₀ => h (BitVec.eq_of_toNat_eq (by simpa using h₀))

/-- The run after a push is the run before it and the byte. -/
theorem take_push (u : Vector Byte 255) {n : Nat} (b : Byte) (h : n < 255) :
    (u.setIfInBounds n b).toList.take (n + 1) = u.toList.take n ++ [b] := by
  refine List.ext_getElem (by simp; omega) fun i h₁ h₂ => ?_
  simp at h₁ h₂
  by_cases hi : i = n
  · subst hi
    simp
  · rw [List.getElem_append_left (by simp; omega)]
    simp [Ne.symm hi]

/-- R26: what the bytes of the loaded buffer spell, whatever the bytes above hold. -/
theorem take_bufLoad (draw : Nat) {l : List Byte} (h : l.length ≤ 255) :
    (bufLoad l draw).toList.take l.length = l := by
  refine List.ext_getElem (by simp; omega) fun i h₁ h₂ => ?_
  simp [bufLoad, List.getElem?_eq_getElem h₂]

/-! ## The record at a position (R92) -/

theorem recBytes_ne_nil (r : Record) : recBytes r ≠ [] := by cases r <;> simp [recBytes, bytesLe32]

@[simp] theorem length_hdrBytes (cart : Vector Byte 3) (crc : Vector Byte 8) (n : Word) :
    (hdrBytes cart crc n).length = 78 := by
  simp [hdrBytes, Config.magic]

theorem lenOrZero_slice (m : Memory) {a b : Nat} (h : a + 5 ≤ b) : lenOrZero (m.slice a b) = m.get (a + 4) := by
  have : 4 < (m.slice a b).length := by simp; omega
  unfold lenOrZero
  rw [List.getD_eq_getElem?_getD, List.getElem?_eq_getElem this, Memory.getElem_slice]
  rfl

/-- R92, R93: a record stands whole at `a` exactly when the stream reaches to its end, and then it is that record. -/
theorem decodeRecord_slice_iff (m : Memory) (a k : Nat) (r : Record) :
    decodeRecord (m.slice a m.len) = .ok (r, k) ↔
      a + 5 + tailLen (m.get (a + 4)) ≤ m.len ∧ r = m.recordAt a ∧ k = 5 + tailLen (m.get (a + 4)) := by
  have hwhole : a + 5 + tailLen (m.get (a + 4)) ≤ m.len →
      decodeRecord (m.slice a m.len) = .ok (m.recordAt a, 5 + tailLen (m.get (a + 4))) := fun h => by
    unfold decodeRecord
    rw [lenOrZero_slice _ (by omega), if_neg (by simp; omega), if_neg (by simp; omega), Memory.drop_slice]
    simp only [Config.recHead]
    rw [Memory.take_slice _ (by omega), Memory.take_slice _ (by omega), Memory.recordAt, lenOrZero_read]
  constructor
  · intro h
    have hl : a + 5 + tailLen (m.get (a + 4)) ≤ m.len := by
      unfold decodeRecord at h
      split at h
      · cases h
      · next h₁ =>
        simp at h₁
        rw [lenOrZero_slice _ (by omega)] at h
        split at h
        · cases h
        · next h₂ => simp at h₂; omega
    rw [hwhole hl] at h
    simp at h
    exact ⟨hl, h.1.symm, h.2.symm⟩
  · rintro ⟨h, rfl, rfl⟩
    exact hwhole h

theorem State.commitRecord_pcur (s : State) (r : Record) : (s.commitRecord r).pcur = s.pcur + (recBytes r).length := by
  cases r <;> (simp [State.commitRecord, recBytes, bytesLe32]; try omega)

@[simp] theorem State.commitRecord_ioFails (s : State) (r : Record) : (s.commitRecord r).ioFails = s.ioFails := by
  cases r <;> rfl

/-- R27: the record registers spell the record that was committed. -/
theorem State.record_commitRecord (s : State) {r : Record} (h : r.wf = true) : (s.commitRecord r).record = r := by
  cases r with
  | literal off bs =>
    obtain ⟨-, h₂⟩ := (Record.wf_literal _ _).1 h
    have hl : (BitVec.ofNat 8 bs.length).toNat = bs.length := by rw [BitVec.toNat_ofNat]; omega
    simp only [State.commitRecord, State.record, State.runBytes]
    rw [hl, take_bufLoad _ h₂]
  | runLength off f n => simp [State.commitRecord, State.record, bufLoad]

/-! ## Sequences of commands (R104) -/

theorem runInstrs_cons_ok {i : Instr} {s t : State} (h : exec i s = .next t) (ho : t.outcome = some .ok)
    (rest : List Instr) : runInstrs (i :: rest) s = runInstrs rest t := by
  conv => lhs; unfold runInstrs
  rw [h]
  simp [ho]

theorem runInstrs_cons_stop {i : Instr} {s t : State} (h : exec i s = .next t) (ho : t.outcome ≠ some .ok)
    (rest : List Instr) : runInstrs (i :: rest) s = .next t := by
  unfold runInstrs
  rw [h]
  simp [ho]

/-- A sequence that ended `OK` is followed by what comes after it. -/
theorem runInstrs_append {l k : List Instr} {s t : State} (h : runInstrs l s = .next t) (ho : t.outcome = some .ok)
    (hl : l ≠ []) : runInstrs (l ++ k) s = runInstrs k t := by
  induction l generalizing s with
  | nil => exact absurd rfl hl
  | cons i l ih =>
    obtain ⟨u, hu⟩ := exec_next i s
    by_cases hq : u.outcome = some .ok
    · rw [runInstrs_cons_ok hu hq] at h
      rw [List.cons_append, runInstrs_cons_ok hu hq]
      by_cases hn : l = []
      · subst hn
        simp only [runInstrs, Host.Outcome.next.injEq] at h
        subst h
        rfl
      · exact ih h hn
    · rw [runInstrs_cons_stop hu hq] at h
      simp only [Host.Outcome.next.injEq] at h
      subst h
      exact absurd ho hq

/-! ## Sequences of steps -/

theorem run_succ {n : Nat} {s t : State} (h : step s = .next t) :
    Sys2Proof.core.run (n + 1) s = Sys2Proof.core.run n t := by
  have h' : Sys2Proof.core.step s = .next t := h
  simp only [Host.Core.run, h']

theorem run_first {n : Nat} {s t : State} (h : Sys2Proof.core.run (n + 1) s = .next t) :
    ∃ u, step s = .next u ∧ Sys2Proof.core.run n u = .next t := by
  simp only [Host.Core.run] at h
  rw [show Sys2Proof.core.step s = step s from rfl] at h
  cases hs : step s with
  | next u => rw [hs] at h; exact ⟨u, rfl, h⟩
  | fault f => rw [hs] at h; cases h
  | refused f => rw [hs] at h; cases h

theorem run_last {n : Nat} {s t : State} (h : Sys2Proof.core.run (n + 1) s = .next t) :
    ∃ u, Sys2Proof.core.run n s = .next u ∧ step u = .next t := by
  induction n generalizing s with
  | zero =>
    obtain ⟨u, h₁, h₂⟩ := run_first h
    simp only [Host.Core.run] at h₂
    cases h₂
    exact ⟨s, rfl, h₁⟩
  | succ n ih =>
    obtain ⟨u, h₁, h₂⟩ := run_first h
    obtain ⟨v, h₃, h₄⟩ := ih h₂
    exact ⟨v, by rw [run_succ h₁, h₃], h₄⟩

end Sys2Proof.Machine
end

