-- ==== Sys2Proof/Tests/Slice0.lean ====
section
/-! SUPPORT. The model's own tests, each on one step, with the expected values of spec/95_test_vectors.md (the vector is
named at each), and a witness for the hypotheses of every statement of Obligations.lean. -/

namespace Sys2Proof.Tests

/- Many short evaluations: checked one after another, they do not each take a thread. -/
set_option Elab.async false

open Sys2Proof Sys2Proof.Machine

/-! ## States to test on -/

/-- A state in phase `ph` with the three spaces bound to the bytes given and every register zero. -/
def plain (ph : Phase) (img pat dst : List Byte) : State where
  phase := ph
  pcur := 0x4E
  recOff := 0
  recKind := .rle
  runLen := 0
  buf := Vector.replicate 255 0
  rleCand := true
  hMagic := Vector.replicate 7 0
  hDesc := Vector.replicate 50 0
  hType := 0
  hCart := Vector.replicate 3 0
  hCrc := Vector.replicate 8 0
  hRsvd := Vector.replicate 5 0
  hLen := 0
  identOut := Vector.replicate 12 0
  errKind := none
  errCrcPat := Vector.replicate 8 0
  errCrcImg := Vector.replicate 8 0
  errSpace := 0
  errPos := 0
  img := Memory.ofBytes img
  pat := Memory.ofBytes pat
  dst := Memory.ofBytes dst
  outcome := none
  host := []
  env := []
  draws := 1

/-- The next state of an answer, if it is one. -/
def nextOf (r : Result) : Option State :=
  match r with
  | .next t => some t
  | .fault _ => none
  | .refused _ => none

/-- What a field of the next state is. -/
def after {α : Type} (r : Result) (f : State → α) : Option α := (nextOf r).map f

/-- The bytes 0, 1, ..., `n - 1`: images A (`n = 128`) and C (`n = 64`) of the vectors. -/
def rising (n : Nat) : List Byte := (List.range n).map (BitVec.ofNat 8)

/-- `HDR(3C 3D 3E, 10 11 12 13 14 15 16 17, 0x12345678)`, the 78 bytes of V30-14, written out. -/
def header : List Byte :=
  [0x41, 0x50, 0x53, 0x31, 0x30, 0x01, 0x00] ++ List.replicate 50 0x20 ++ [0x01] ++ [0x3C, 0x3D, 0x3E]
    ++ [0x10, 0x11, 0x12, 0x13, 0x14, 0x15, 0x16, 0x17] ++ List.replicate 5 0x00 ++ [0x78, 0x56, 0x34, 0x12]

/-- The patch Q of group V42, with the CRC field `AA BB CC DD EE FF 00 11`. -/
def patchQ : List Byte := header.take 0x3D ++ [0xAA, 0xBB, 0xCC, 0xDD, 0xEE, 0xFF, 0x00, 0x11] ++ header.drop 0x45

/-- Image B of group V42: 64 bytes, zero but for the CRC bytes. -/
def imageB (crc : List Byte) : List Byte := List.replicate 16 0 ++ crc ++ List.replicate 40 0

/-- A state in `RUN` at 0x100 with the run `bytes` pushed, over a patch that is a header. -/
def running (bytes : List Byte) (cand : Bool) : State :=
  { plain .run (rising 128) header [] with
    recOff := 0x100, runLen := BitVec.ofNat 8 bytes.length, buf := Vector.ofFn fun i => bytes.getD i.val 0, rleCand := cand }

/-- A state in `DEC` at the first record of a patch with the body given, over image C. -/
def decoding (body : List Byte) : State := plain .dec (rising 64) (header ++ body) (rising 64)

theorem passes_of_nil {s : State} (h : s.env = []) (n : Nat) : s.passes n := by simp [State.passes, h]

theorem alwaysPasses_of_nil {s : State} (h : s.env = []) : s.alwaysPasses := by simp [State.alwaysPasses, h]

/-! ## Well-formedness -/

/-- R95: a literal record of no byte is refused. -/
theorem test_wf_refuses_empty_literal : (Instr.lit 5 []).wf = false ∧ (Record.literal 5 []).wf = false := by decide

/-- R94: a literal record of 256 bytes is refused; one of 255, and a run-length record with count 0, are not. -/
theorem test_wf_bounds :
    (Instr.lit 0 (List.replicate 256 1)).wf = false ∧ (Record.literal 0 (List.replicate 256 1)).wf = false
    ∧ (Instr.lit 0 (List.replicate 255 1)).wf = true ∧ (Instr.rle 0 0 0).wf = true := by decide +kernel

/-! ## Decoding: words written out from R90, R91, R100, R101 -/

/-- R101's eleven opcodes, `CW = ARG * 2^8 + opcode`. -/
theorem test_decode_commands :
    decodeCommand 0x0000000000 = .ok .reset ∧ decodeCommand 0x0000040001 = .ok (.hgen 0x400)
    ∧ decodeCommand 0x0000006402 = .ok (.rbegin 0x64) ∧ decodeCommand 0x0000007A03 = .ok (.rpush 0x7A)
    ∧ decodeCommand 0x0000000004 = .ok .rflush ∧ decodeCommand 0x0000000005 = .ok .efin
    ∧ decodeCommand 0x0000000006 = .ok .hparse ∧ decodeCommand 0x0000000007 = .ok .ident
    ∧ decodeCommand 0x0000000008 = .ok .crcchk ∧ decodeCommand 0x0000000009 = .ok .dcopy
    ∧ decodeCommand 0x000000000A = .ok .rdec := by decide

/-- V41-17, R100: the operand bits that are ignored. -/
theorem test_decode_ignored_bits :
    decodeCommand 0x000001FF03 = .ok (.rpush 0xFF) ∧ decodeCommand 0xFFFFFFFF04 = .ok .rflush
    ∧ decodeCommand 0xFFFFFFFF02 = .ok (.rbegin 0xFFFFFFFF) := by decide

/-- V30-17 and the first reserved opcode. -/
theorem test_decode_reserved :
    decodeCommand 0x12345678FF = .error (.reservedOpcode 0xFF) ∧ decodeCommand 0x000000000B = .error (.reservedOpcode 0x0B) := by
  decide

/-- V30-5 and V30-6. -/
theorem test_decode_records :
    decodeRecord [0x64, 0x00, 0x00, 0x00, 0x00, 0xFF, 0x04, 0x99] = .ok (.runLength 100 0xFF 4, 7)
    ∧ decodeRecord [0xF4, 0x01, 0x00, 0x00, 0x01, 0x7A, 0x99] = .ok (.literal 500 [0x7A], 6) := by decide

/-- V30-8, V30-9, V30-10. -/
theorem test_decode_short_records :
    decodeRecord [0x10, 0x00, 0x00, 0x00, 0x03, 0x01, 0x02] = .error .shortRecord
    ∧ decodeRecord [0x10, 0x00, 0x00, 0x00] = .error .shortRecord
    ∧ decodeRecord [0x10, 0x00, 0x00, 0x00, 0x00, 0x41] = .error .shortRecord := by decide

/-- V30-11 and V30-12. -/
theorem test_encode_records :
    recBytes (.literal 0x12345678 [0xDE, 0xAD]) = [0x78, 0x56, 0x34, 0x12, 0x02, 0xDE, 0xAD]
    ∧ recBytes (.runLength 0xFFFFFFFF 0x00 255) = [0xFF, 0xFF, 0xFF, 0xFF, 0x00, 0x00, 0xFF] := by decide

/-- V30-16, and the table words of spec/opcode_table.json: a command, and the prefixes of a run-length record at 0x64 and
of a literal record of one byte at 0x1F4. -/
theorem test_table_words :
    encode (.rbegin 0x1F4) = .command 0x000001F402
    ∧ decodeTableWord 40 0x0000006402 = some (.rbegin 0x64)
    ∧ decodeTableWord 40 0x0000000064 = some (.rle 0x64 0 0)
    ∧ decodeTableWord 40 0x01000001F4 = some (.lit 0x1F4 [0]) := by decide +kernel

/-- A table word placed by `withFetchWord` is what the next step runs: `RBEGIN` is refused in `IDLE` (V60-1), and a record
of the patch is performed, `PCUR` past its six bytes. -/
theorem test_fetch_word_runs :
    after (step ((plain .idle [] [] []).withFetchWord 40 0x0000006402)) (·.outcome) = some (some .refused)
    ∧ after (step ((plain .idle [] [] []).withFetchWord 40 0x01000001F4)) (fun t => (t.outcome, t.pcur, t.dst.len))
      = some (some .ok, 0x54, 0x1F5) := by decide +kernel

/-! ## One step of each instruction -/

/-- V60-4: `RESET` leaves `FAULT`; the spaces stay. -/
theorem test_reset_leaves_fault :
    after (exec .reset { plain .fault [1] [2] [3] with errKind := some .validationError })
        (fun t => ((t.outcome, t.phase, t.errKind), t.img.toList, t.pat.toList, t.dst.toList))
      = some ((some .ok, .idle, none), [1], [2], [3]) := by decide +kernel

/-- V40-1. -/
theorem test_hgen_header :
    after (exec (.hgen 0x12345678) (plain .idle (rising 128) [] []))
        (fun t => (t.outcome, t.pat.toList, t.pat.len, t.pcur, t.phase))
      = some (some .ok, header, 78, 0x4E, .enc) := by decide +kernel

/-- V40-6: the cartridge ID is read first. -/
theorem test_hgen_short_image :
    after (exec (.hgen 0) (plain .idle (rising 0x10) [7] []))
        (fun t => ((t.outcome, errCode t.errKind), t.errSpace, t.errPos, t.phase, t.pat.toList))
      = some ((some (.fault .ioError), 2), 0, 0x3C, .fault, [7]) := by decide +kernel

/-- P1, row 2. -/
theorem test_rbegin_opens :
    after (exec (.rbegin 0x64) (plain .enc [] header [])) 
        (fun t => ((t.outcome, t.phase), t.recOff, t.runLen, t.rleCand, t.pcur))
      = some ((some .ok, .run), 0x64, 0, true, 0x4E) := by decide +kernel

/-- V41-4: the third byte `AC` ends the candidate. -/
theorem test_rpush_clears_candidate :
    after (exec (.rpush 0xAC) (running [0xAB, 0xAB] true)) (fun t => (t.outcome, t.runBytes, t.rleCand))
      = some (some .ok, [0xAB, 0xAB, 0xAC], false) := by decide +kernel

/-- V41-16: the 256th push. -/
theorem test_rpush_full :
    after (exec (.rpush 7) (running (List.replicate 255 7) true)) (fun t => (t.outcome, t.full, t.runLen))
      = some (some .refused, true, 255) := by decide +kernel

/-- V41-3. -/
theorem test_rflush_run :
    after (exec .rflush (running [0xAB, 0xAB, 0xAB] true))
        (fun t => (t.outcome, t.pat.slice 0x4E t.pat.len, t.recKind, t.pcur, t.phase))
      = some (some .ok, [0x00, 0x01, 0x00, 0x00, 0x00, 0xAB, 0x03], .rle, 0x55, .enc) := by decide +kernel

/-- V41-2: two equal bytes stay a literal. -/
theorem test_rflush_literal :
    after (exec .rflush (running [0xAB, 0xAB] true)) (fun t => (t.outcome, t.pat.slice 0x4E t.pat.len, t.recKind, t.pcur))
      = some (some .ok, [0x00, 0x01, 0x00, 0x00, 0x02, 0xAB, 0xAB], .lit, 0x55) := by decide +kernel

/-- V41-20. -/
theorem test_efin :
    after (exec .efin (plain .enc [] header [])) (fun t => (t.outcome, t.phase, t.pat.len)) = some (some .ok, .idle, 78) := by
  decide +kernel

/-- V40-8. -/
theorem test_hparse_latches :
    after (exec .hparse (plain .idle [] header []))
        (fun t => ((t.hMagic.toList, t.hDesc.toList, t.hType, t.hCart.toList), t.hCrc.toList, t.hRsvd.toList, t.hLen))
      = some (([0x41, 0x50, 0x53, 0x31, 0x30, 0x01, 0x00], List.replicate 50 0x20, 0x01, [0x3C, 0x3D, 0x3E]),
          [0x10, 0x11, 0x12, 0x13, 0x14, 0x15, 0x16, 0x17], List.replicate 5 0x00, 0x12345678) := by decide +kernel

/-- V40-9. -/
theorem test_hparse_short :
    after (exec .hparse (plain .idle [] (header.take 77) [])) (fun t => (t.outcome, errCode t.errKind, t.errSpace, t.errPos))
      = some (some (.fault .formatError), 3, 1, 0) := by decide +kernel

/-- V44-3: `000AF0FF.aps`. -/
theorem test_ident_name :
    after (exec .ident (plain .idle [] (header.take 0x3D ++ [0x00, 0x0A, 0xF0, 0xFF]) [])) (fun t => (t.outcome, t.identOut.toList))
      = some (some .ok, [0x30, 0x30, 0x30, 0x41, 0x46, 0x30, 0x46, 0x46, 0x2E, 0x61, 0x70, 0x73]) := by decide +kernel

/-- V44-4. -/
theorem test_ident_short :
    after (exec .ident (plain .idle [] (header.take 0x3D ++ [0x12, 0x34, 0x56]) []))
        (fun t => (t.outcome, t.errSpace, t.errPos, t.phase))
      = some (some (.fault .formatError), 1, 0x3D, .fault) := by decide +kernel

/-- V42-2: the last byte differs in one bit; the report's strings are `AABBCCDDEEFF0011` and `AABBCCDDEEFF0010`. -/
theorem test_crcchk_mismatch :
    after (exec .crcchk (plain .idle (imageB [0xAA, 0xBB, 0xCC, 0xDD, 0xEE, 0xFF, 0x00, 0x10]) patchQ [9]))
        (fun t => ((t.outcome, errCode t.errKind), t.errCrcPat.toList, t.errCrcImg.toList, t.phase, t.dst.toList))
      = some ((some (.fault .validationError), 1), [0xAA, 0xBB, 0xCC, 0xDD, 0xEE, 0xFF, 0x00, 0x11],
          [0xAA, 0xBB, 0xCC, 0xDD, 0xEE, 0xFF, 0x00, 0x10], .fault, [9])
    ∧ crcReport #v[0xAA, 0xBB, 0xCC, 0xDD, 0xEE, 0xFF, 0x00, 0x11]
      = [0x41, 0x41, 0x42, 0x42, 0x43, 0x43, 0x44, 0x44, 0x45, 0x45, 0x46, 0x46, 0x30, 0x30, 0x31, 0x31] := by decide +kernel

/-- V42-1; V42-10: the patch is read before the image. -/
theorem test_crcchk_match_and_order :
    after (exec .crcchk (plain .idle (imageB [0xAA, 0xBB, 0xCC, 0xDD, 0xEE, 0xFF, 0x00, 0x11]) patchQ []))
        (fun t => (t.outcome, t.phase, t.errKind)) = some (some .ok, .valid, none)
    ∧ after (exec .crcchk (plain .idle (rising 0x17) (patchQ.take 0x44) [])) (fun t => (t.outcome, t.errSpace, t.errPos))
      = some (some (.fault .formatError), 1, 0x3D) := by decide +kernel

/-- P6, row 2; V43-23: `DCOPY` without a check is refused. -/
theorem test_dcopy :
    after (exec .dcopy (plain .valid (rising 64) header [1, 2])) (fun t => (t.outcome, t.dst.toList, t.pcur, t.phase))
      = some (some .ok, rising 64, 0x4E, .dec)
    ∧ after (exec .dcopy (plain .idle (rising 64) header [1, 2])) (fun t => (t.outcome, t.dst.toList))
      = some (some .refused, [1, 2]) := by decide +kernel

/-- V43-2. -/
theorem test_rdec_literal :
    after (exec .rdec (decoding [0x20, 0x00, 0x00, 0x00, 0x03, 0xAA, 0xBB, 0xCC]))
        (fun t => ((t.outcome, t.recKind, t.recOff, t.runBytes), t.pcur, t.dst.slice 0x1F 0x24, t.dst.len))
      = some ((some .ok, .lit, 0x20, [0xAA, 0xBB, 0xCC]), 0x56, [0x1F, 0xAA, 0xBB, 0xCC, 0x23], 64) := by decide +kernel

/-- V43-19: nothing of a cut record is written. -/
theorem test_rdec_cut_record :
    after (exec .rdec (decoding [0x20, 0x00, 0x00, 0x00, 0x03, 0xAA, 0xBB]))
        (fun t => (t.outcome, t.errSpace, t.errPos, t.pcur, t.dst.slice 0x20 0x22))
      = some (some (.fault .formatError), 1, 0x53, 0x4E, [0x20, 0x21]) := by decide +kernel

/-- V43-8: a literal record that runs past the end. -/
theorem test_lit_grows :
    after (exec (.lit 0x3E [0xA1, 0xA2, 0xA3, 0xA4]) (decoding [])) (fun t => (t.outcome, t.dst.toList))
      = some (some .ok, (rising 64).take 0x3E ++ [0xA1, 0xA2, 0xA3, 0xA4]) := by decide +kernel

/-- V43-24, the record's part: its write fails. -/
theorem test_lit_fails :
    after (exec (.lit 0x20 [0xAA, 0xBB, 0xCC]) { decoding [] with env := [true] })
        (fun t => (t.outcome, errCode t.errKind, t.errSpace, t.errPos, t.phase))
      = some (some (.fault .ioError), 2, 2, 0x20, .fault) := by decide +kernel

/-- V43-9: a run that starts past the end leaves a gap of zeros. -/
theorem test_rle_gap :
    after (exec (.rle 0x44 0x77 3) (decoding [])) (fun t => (t.outcome, t.dst.toList))
      = some (some .ok, rising 64 ++ [0x00, 0x00, 0x00, 0x00, 0x77, 0x77, 0x77]) := by decide +kernel

/-- V43-5: count 0 writes nothing and lengthens nothing. -/
theorem test_rle_count_zero :
    after (exec (.rle 0x100 0x55 0) (decoding [])) (fun t => (t.outcome, t.dst.toList)) = some (some .ok, rising 64) := by
  decide +kernel

/-- V44-7. -/
theorem test_hex2 :
    hex2 0x00 = [0x30, 0x30] ∧ hex2 0x0A = [0x30, 0x41] ∧ hex2 0x9F = [0x39, 0x46] ∧ hex2 0xA0 = [0x41, 0x30] := by decide

/-- V30-3 and V30-4. -/
theorem test_le32 : le32 [0x78, 0x56, 0x34, 0x12] = 0x12345678 ∧ le32 [0xFF, 0xFF, 0xFF, 0xFF] = 0xFFFFFFFF := by decide

/-- V45-2 at a small size: the equal byte between two differing ones ends the first run. -/
theorem test_scan_stops_at_an_equal_byte :
    scanRuns (List.replicate 4 0) [0x00, 0xAB, 0x00, 0xAB] = [(1, [0xAB]), (3, [0xAB])] := by decide

/-! ## Witnesses: states and operands that meet the hypotheses of the statements, clause by clause -/

theorem witness_everyInstructionDecodesFromItsEncoding :
    (Instr.lit 0xFFFFFFFF (List.replicate 255 0)).wf = true ∧ (Instr.lit 0 [0]).wf = true ∧ (Instr.rle 0 0 0xFF).wf = true := by
  decide +kernel

theorem witness_recordBytesAndRecordsCorrespond :
    (Record.literal 7 [1]).wf = true ∧ (Record.runLength 7 1 0).wf = true
    ∧ decodeRecord [0x07, 0, 0, 0, 1, 9, 8] = .ok (.literal 7 [9], 6) := by decide

/-- Each way to be short at its last short length, and the first length that is not. -/
theorem witness_recordIsShortExactlyWhenItsBytesEnd :
    decodeRecord [1, 2, 3, 4] = .error .shortRecord
    ∧ decodeRecord [1, 2, 3, 4, 0, 6] = .error .shortRecord ∧ decodeRecord [1, 2, 3, 4, 0, 6, 7] ≠ .error .shortRecord
    ∧ decodeRecord [1, 2, 3, 4, 2, 6] = .error .shortRecord ∧ decodeRecord [1, 2, 3, 4, 2, 6, 7] ≠ .error .shortRecord := by
  decide

/-- The first and the last reserved opcode. -/
theorem witness_reservedOpcodeIsRefusedInEveryPhase :
    (∃ s : State, s.host = [.command 0x000000000B] ∧ s.phase = .idle) ∧ 0x0B ≤ ((0x000000000B : CommandWord).extractLsb' 0 8).toNat
    ∧ (∃ s : State, s.host = [.command 0x12345678FF] ∧ s.phase = .fault)
    ∧ 0x0B ≤ ((0x12345678FF : CommandWord).extractLsb' 0 8).toNat :=
  ⟨⟨{ plain .idle [] [] [] with host := [.command 0x000000000B] }, rfl, rfl⟩, by decide,
    ⟨{ plain .fault [] [] [] with host := [.command 0x12345678FF] }, rfl, rfl⟩, by decide⟩

theorem witness_stepRunsTheIssuedCommand :
    (∃ s : State, s.host = [.command 0x0000000005]) ∧ decode (.command 0x0000000005) = .ok .efin ∧ ∃ s : State, s.host = [] :=
  ⟨⟨{ plain .enc [] [] [] with host := [.command 0x0000000005] }, rfl⟩, by decide, plain .enc [] [] [], rfl⟩

theorem witness_resetGivesIdleWithoutError :
    ∃ s : State, s.host = [.resetLine] ∧ s.phase = .fault ∧ s.errKind ≠ none :=
  ⟨{ plain .fault [] [] [] with host := [.resetLine], errKind := some .ioError }, rfl, rfl, by decide⟩

/-- Refused, accepted, and an opcode of no command. -/
theorem witness_refusedExactlyWhenNotAccepted :
    (running (List.replicate 255 7) true).accepts (.rpush 7) = false
    ∧ (running (List.replicate 254 7) true).accepts (.rpush 7) = true
    ∧ (running [] true).accepts .rflush = false ∧ (running [7] true).accepts .rflush = true
    ∧ (plain .fault [] [] []).accepts .crcchk = false ∧ (plain .fault [] [] []).accepts .reset = true
    ∧ decodeCommand 0x000000000B = .error (.reservedOpcode 0x0B) := by decide +kernel

/-- Each row of the phase table is taken by some state. -/
theorem witness_phaseMovesOnlyAlongItsTable :
    after (exec .reset (plain .run [] [] [])) (·.phase) = some .idle
    ∧ after (exec .hparse (plain .idle [] [] [])) (·.phase) = some .fault
    ∧ after (exec (.hgen 0) (plain .idle (rising 63) [] [])) (·.phase) = some .enc
    ∧ after (exec .crcchk (plain .idle (rising 64) header [])) (·.phase) = some .valid
    ∧ after (exec (.rbegin 0) (plain .enc [] [] [])) (·.phase) = some .run
    ∧ after (exec .efin (plain .enc [] [] [])) (·.phase) = some .idle
    ∧ after (exec .rflush (running [1] true)) (·.phase) = some .enc
    ∧ after (exec .dcopy (plain .valid [1] [] [])) (·.phase) = some .dec
    ∧ after (exec .rdec (decoding [])) (·.phase) = some .idle := by decide +kernel

theorem witness_faultStaysUntilReset :
    ∃ s t : State, s.phase = .fault ∧ step s = .next t ∧ s.host.head? ≠ some .resetLine
      ∧ ∀ cw, s.host.head? = some (.command cw) → decodeCommand cw ≠ .ok .reset := by
  refine ⟨{ plain .fault [] [] [] with host := [.command 0x0000000008] }, _, rfl, rfl, by decide, fun cw h => ?_⟩
  cases h
  decide

/-- Every register of R20's table is written by some instruction: the premises of each clause. -/
theorem witness_registersChangeOnlyByTheirCommands :
    after (exec .rdec (decoding [0x20, 0, 0, 0, 1, 0xAA])) (fun t => decide (t.pcur ≠ 0x4E ∧ t.recOff ≠ 0 ∧ t.recKind ≠ .rle
        ∧ t.runLen ≠ 0 ∧ t.buf[0] ≠ 0)) = some true
    ∧ after (exec (.rpush 2) (running [1] true)) (fun t => t.rleCand) = some false
    ∧ after (exec .hparse (plain .idle [] header [])) (fun t => decide (t.hType ≠ 0)) = some true
    ∧ after (exec .ident (plain .idle [] header [])) (fun t => decide (t.identOut ≠ Vector.replicate 12 0)) = some true
    ∧ after (exec .ident (plain .idle [] [] [])) (fun t => decide (t.errKind ≠ none)) = some true := by decide +kernel

theorem witness_spacesChangeOnlyByTheirCommands :
    after (exec (.hgen 5) (plain .idle (rising 64) [] [])) (fun t => decide (t.pat ≠ Memory.empty)) = some true
    ∧ after (exec (.lit 0 [1]) (plain .dec [] [] [])) (fun t => decide (t.dst ≠ Memory.empty)) = some true := by decide +kernel

theorem witness_headerFieldsStandAtTheirOffsets :
    ∃ h : Vector Byte 78, h.toList = hdrBytes #v[0x3C, 0x3D, 0x3E] #v[0x10, 0x11, 0x12, 0x13, 0x14, 0x15, 0x16, 0x17] 0x12345678 :=
  ⟨⟨(hdrBytes #v[0x3C, 0x3D, 0x3E] #v[0x10, 0x11, 0x12, 0x13, 0x14, 0x15, 0x16, 0x17] 0x12345678).toArray, by decide +kernel⟩, rfl⟩

/-- The shortest image that holds both fields. -/
theorem witness_hgenWritesTheHeader : ∃ s : State, s.phase = .idle ∧ s.img.len = 0x3F ∧ s.passes 3 :=
  ⟨plain .idle (rising 0x3F) [] [], rfl, by decide +kernel, passes_of_nil rfl 3⟩

theorem witness_hgenRaisesIoError :
    (∃ s : State, s.phase = .idle ∧ s.img.len = 0x3E)
    ∧ (∃ s : State, s.phase = .idle ∧ 0x3F ≤ s.img.len ∧ s.env = [true])
    ∧ (∃ s : State, s.phase = .idle ∧ 0x3F ≤ s.img.len ∧ s.env = [false, true])
    ∧ ∃ s : State, s.phase = .idle ∧ 0x3F ≤ s.img.len ∧ s.env = [false, false, true] :=
  ⟨⟨plain .idle (rising 0x3E) [] [], rfl, by decide +kernel⟩,
    ⟨{ plain .idle (rising 0x3F) [] [] with env := [true] }, rfl, by decide +kernel, rfl⟩,
    ⟨{ plain .idle (rising 0x3F) [] [] with env := [false, true] }, rfl, by decide +kernel, rfl⟩,
    ⟨{ plain .idle (rising 0x3F) [] [] with env := [false, false, true] }, rfl, by decide +kernel, rfl⟩⟩

theorem witness_hparseLatchesTheHeader :
    (∃ s : State, s.phase ≠ .idle) ∧ (∃ s : State, s.phase = .idle ∧ s.pat.len = 78 ∧ s.passes 1)
    ∧ (∃ s : State, s.phase = .idle ∧ s.pat.len = 77)
    ∧ ∃ s : State, s.phase = .idle ∧ s.pat.len = 78 ∧ s.env = [true] :=
  ⟨⟨plain .enc [] [] [], by decide⟩, ⟨plain .idle [] header [], rfl, by decide +kernel, passes_of_nil rfl 1⟩,
    ⟨plain .idle [] (header.take 77) [], rfl, by decide +kernel⟩,
    ⟨{ plain .idle [] header [] with env := [true] }, rfl, by decide +kernel, rfl⟩⟩

theorem witness_generatedHeaderParsesAndValidates : ∃ s : State, s.phase = .idle ∧ s.img.len = 0x3F ∧ s.passes 6 :=
  ⟨plain .idle (rising 0x3F) [] [], rfl, by decide +kernel, passes_of_nil rfl 6⟩

theorem witness_rbeginOpensARun : (∃ s : State, s.phase ≠ .enc) ∧ ∃ s : State, s.phase = .enc :=
  ⟨⟨plain .run [] [] [], by decide⟩, plain .enc [] [] [], rfl⟩

/-- Refused by the phase, refused by the 255th byte, and accepted at both ends of the run's length. -/
theorem witness_rpushAddsAByte :
    (∃ s : State, s.phase ≠ .run) ∧ (∃ s : State, s.phase = .run ∧ s.runLen = 255)
    ∧ (∃ s : State, s.phase = .run ∧ s.runLen = 254) ∧ ∃ s : State, s.phase = .run ∧ s.runLen = 0 ∧ s.runLen ≠ 255 :=
  ⟨⟨plain .enc [] [] [], by decide⟩, ⟨running (List.replicate 255 7) true, rfl, by decide +kernel⟩,
    ⟨running (List.replicate 254 7) true, rfl, by decide +kernel⟩, running [] true, rfl, by decide, by decide⟩

/-- A run of 3 equal bytes and one of 2. -/
theorem witness_rflushAppendsTheRunsRecord :
    (∃ (s : State) (r : Record), s.phase = .run ∧ s.runLen ≠ 0 ∧ s.pat.len = s.pcur ∧ s.passes 1
      ∧ r = (if s.rleCand = true ∧ 2 < s.runLen.toNat then .runLength s.recOff s.buf[0] s.runLen
        else .literal s.recOff (s.buf.toList.take s.runLen.toNat)) ∧ r = .runLength 0x100 0xAB 3)
    ∧ ∃ (s : State) (r : Record), s.phase = .run ∧ s.runLen ≠ 0 ∧ s.pat.len = s.pcur ∧ s.passes 1
      ∧ r = (if s.rleCand = true ∧ 2 < s.runLen.toNat then .runLength s.recOff s.buf[0] s.runLen
        else .literal s.recOff (s.buf.toList.take s.runLen.toNat)) ∧ r = .literal 0x100 [0xAB, 0xAB] :=
  ⟨⟨running [0xAB, 0xAB, 0xAB] true, .runLength 0x100 0xAB 3, rfl, by decide +kernel, by decide +kernel, passes_of_nil rfl 1,
      by decide +kernel, rfl⟩,
    running [0xAB, 0xAB] true, .literal 0x100 [0xAB, 0xAB], rfl, by decide +kernel, by decide +kernel, passes_of_nil rfl 1,
      by decide +kernel, rfl⟩

theorem witness_rflushRefusesOrRaises :
    (∃ s : State, s.phase ≠ .run) ∧ (∃ s : State, s.phase = .run ∧ s.runLen = 0)
    ∧ ∃ s : State, s.phase = .run ∧ s.runLen ≠ 0 ∧ s.pat.len = s.pcur ∧ s.env = [true] :=
  ⟨⟨plain .enc [] [] [], by decide⟩, ⟨running [] true, rfl, by decide⟩,
    { running [1] true with env := [true] }, rfl, by decide +kernel, by decide +kernel, rfl⟩

theorem witness_efinEndsThePatch : (∃ s : State, s.phase ≠ .enc) ∧ ∃ s : State, s.phase = .enc :=
  ⟨⟨plain .run [] [] [], by decide⟩, plain .enc [] [] [], rfl⟩

/-- The shortest and the longest run. -/
theorem witness_rencAppendsTheFramedRecord :
    (1 ≤ [(5 : Byte)].length ∧ (List.replicate 255 (5 : Byte)).length ≤ 255)
    ∧ ∃ s : State, s.phase = .enc ∧ s.pat.len = s.pcur ∧ s.passes 1 :=
  ⟨by decide +kernel, plain .enc [] header [], rfl, by decide +kernel, passes_of_nil rfl 1⟩

/-- The two shortest streams that pass, and what stops each clause short of it. -/
theorem witness_crcchkComparesPatchAndImage :
    (∃ s : State, s.phase ≠ .idle)
    ∧ (∃ s : State, s.phase = .idle ∧ s.pat.len = 0x44)
    ∧ (∃ s : State, s.phase = .idle ∧ s.pat.len = 0x45 ∧ s.env = [true])
    ∧ (∃ s : State, s.phase = .idle ∧ s.pat.len = 0x45 ∧ s.passes 1 ∧ s.img.len = 0x17)
    ∧ (∃ s : State, s.phase = .idle ∧ s.pat.len = 0x45 ∧ s.img.len = 0x18 ∧ s.env = [false, true])
    ∧ (∃ s : State, s.phase = .idle ∧ s.pat.len = 0x45 ∧ s.img.len = 0x18 ∧ s.passes 2
      ∧ ∀ i, i < 8 → s.pat.get (0x3D + i) = s.img.get (0x10 + i))
    ∧ ∃ s : State, s.phase = .idle ∧ s.pat.len = 0x45 ∧ s.img.len = 0x18 ∧ s.passes 2
      ∧ ∃ i, i < 8 ∧ s.pat.get (0x3D + i) ≠ s.img.get (0x10 + i) :=
  ⟨⟨plain .valid [] [] [], by decide⟩,
    ⟨plain .idle [] (header.take 0x44) [], rfl, by decide +kernel⟩,
    ⟨{ plain .idle [] (header.take 0x45) [] with env := [true] }, rfl, by decide +kernel, rfl⟩,
    ⟨plain .idle (rising 0x17) (header.take 0x45) [], rfl, by decide +kernel, passes_of_nil rfl 1, by decide +kernel⟩,
    ⟨{ plain .idle (rising 0x18) (header.take 0x45) [] with env := [false, true] }, rfl, by decide +kernel, by decide +kernel, rfl⟩,
    ⟨plain .idle (rising 0x18) (header.take 0x45) [], rfl, by decide +kernel, by decide +kernel, passes_of_nil rfl 2,
      by decide +kernel⟩,
    plain .idle (rising 0x18) (patchQ.take 0x45) [], rfl, by decide +kernel, by decide +kernel, passes_of_nil rfl 2, 7,
      by decide, by decide +kernel⟩

theorem witness_identNamesThePatch :
    (∃ s : State, s.phase ≠ .idle) ∧ (∃ s : State, s.phase = .idle ∧ s.pat.len = 0x41 ∧ s.passes 1)
    ∧ (∃ s : State, s.phase = .idle ∧ s.pat.len = 0x40)
    ∧ ∃ s : State, s.phase = .idle ∧ s.pat.len = 0x41 ∧ s.env = [true] :=
  ⟨⟨plain .dec [] [] [], by decide⟩,
    ⟨plain .idle [] (header.take 0x41) [], rfl, by decide +kernel, passes_of_nil rfl 1⟩,
    ⟨plain .idle [] (header.take 0x40) [], rfl, by decide +kernel⟩,
    ⟨{ plain .idle [] (header.take 0x41) [] with env := [true] }, rfl, by decide +kernel, rfl⟩⟩

/-- The nibbles 9 and 10, where the two clauses of each digit meet. -/
theorem witness_hexSpellsTheHighNibbleFirst :
    (0x9A : Byte).toNat / 16 = 9 ∧ (0x9A : Byte).toNat % 16 = 10 ∧ (0xA9 : Byte).toNat / 16 = 10 ∧ (0xA9 : Byte).toNat % 16 = 9
    ∧ hex2 0x9A = [0x39, 0x41] ∧ hex2 0xA9 = [0x41, 0x39] := by decide

theorem witness_dcopyCopiesTheImage :
    (∃ s : State, s.phase ≠ .valid) ∧ (∃ s : State, s.phase = .valid ∧ s.img.len = 1 ∧ s.passes 2)
    ∧ (∃ s : State, s.phase = .valid ∧ s.img.len = 0)
    ∧ (∃ s : State, s.phase = .valid ∧ s.img.len = 1 ∧ s.env = [true])
    ∧ ∃ s : State, s.phase = .valid ∧ s.img.len = 1 ∧ s.env = [false, true] :=
  ⟨⟨plain .idle [] [] [], by decide⟩, ⟨plain .valid [5] [] [], rfl, rfl, passes_of_nil rfl 2⟩, ⟨plain .valid [] [] [], rfl, rfl⟩,
    ⟨{ plain .valid [5] [] [] with env := [true] }, rfl, rfl, rfl⟩,
    ⟨{ plain .valid [5] [] [] with env := [false, true] }, rfl, rfl, rfl⟩⟩

/-- A literal record, and a run-length record with count 0, each the last of its patch. -/
theorem witness_rdecCommitsAndPerformsTheRecord :
    (∃ (s : State) (r : Record) (k : Nat), s.phase = .dec ∧ decodeRecord s.restOfPatch = .ok (r, k) ∧ s.passes 2
      ∧ r = .literal 0x20 [0xAA])
    ∧ ∃ (s : State) (r : Record) (k : Nat), s.phase = .dec ∧ decodeRecord s.restOfPatch = .ok (r, k) ∧ s.passes 2
      ∧ r = .runLength 0x100 0x55 0 :=
  ⟨⟨decoding [0x20, 0, 0, 0, 1, 0xAA], .literal 0x20 [0xAA], 6, rfl, by decide +kernel, passes_of_nil rfl 2, rfl⟩,
    decoding [0x00, 1, 0, 0, 0, 0x55, 0], .runLength 0x100 0x55 0, 7, rfl, by decide +kernel, passes_of_nil rfl 2, rfl⟩

theorem witness_rdecAppliesTheRecordAndContinues :
    ∃ (s : State) (r : Record) (k : Nat), s.phase = .dec ∧ decodeRecord s.restOfPatch = .ok (r, k) ∧ s.passes 3 :=
  ⟨decoding [0x20, 0, 0, 0, 1, 0xAA], .literal 0x20 [0xAA], 6, rfl, by decide +kernel, passes_of_nil rfl 3⟩

/-- V43-22, V43-1, V43-16, V43-21, V43-18, V43-19: each clause at its last failing length. -/
theorem witness_rdecEndsOrRejectsACutRecord :
    (∃ s : State, s.phase ≠ .dec)
    ∧ (∃ s : State, s.phase = .dec ∧ s.pcur = s.pat.len)
    ∧ (∃ s : State, s.phase = .dec ∧ s.pcur ≠ s.pat.len ∧ s.pat.len = s.pcur + 4)
    ∧ (∃ s : State, s.phase = .dec ∧ s.pcur ≠ s.pat.len ∧ s.pat.len < s.pcur)
    ∧ (∃ s : State, s.phase = .dec ∧ s.pcur + 5 ≤ s.pat.len ∧ s.pat.get (s.pcur + 4) = 0 ∧ s.pat.len = s.pcur + 6 ∧ s.passes 1)
    ∧ ∃ s : State, s.phase = .dec ∧ s.pcur + 5 ≤ s.pat.len ∧ s.pat.get (s.pcur + 4) ≠ 0
      ∧ s.pat.len + 1 = s.pcur + 5 + (s.pat.get (s.pcur + 4)).toNat ∧ s.passes 1 :=
  ⟨⟨plain .idle [] [] [], by decide⟩, ⟨decoding [], rfl, by decide +kernel⟩,
    ⟨decoding [0x20, 0, 0, 0], rfl, by decide +kernel, by decide +kernel⟩,
    ⟨plain .dec [] (header.take 0x4D) [], rfl, by decide +kernel, by decide +kernel⟩,
    ⟨decoding [0x20, 0, 0, 0, 0, 0xEE], rfl, by decide +kernel, by decide +kernel, by decide +kernel, passes_of_nil rfl 1⟩,
    decoding [0x20, 0, 0, 0, 3, 0xAA, 0xBB], rfl, by decide +kernel, by decide +kernel, by decide +kernel, passes_of_nil rfl 1⟩

theorem witness_rdecIoErrorIsPrecise :
    (∃ s : State, s.phase = .dec ∧ s.pcur ≠ s.pat.len ∧ s.pat.len = s.pcur + 5 ∧ s.env = [true])
    ∧ (∃ (s : State) (r : Record) (k : Nat), s.phase = .dec ∧ s.pcur ≠ s.pat.len ∧ decodeRecord s.restOfPatch = .ok (r, k)
      ∧ s.env = [false, true])
    ∧ ∃ (s : State) (r : Record) (k : Nat), s.phase = .dec ∧ s.pcur ≠ s.pat.len ∧ decodeRecord s.restOfPatch = .ok (r, k)
      ∧ r.toBytes ≠ [] ∧ s.env = [false, false, true] :=
  ⟨⟨{ decoding [0x20, 0, 0, 0, 0] with env := [true] }, rfl, by decide +kernel, by decide +kernel, rfl⟩,
    ⟨{ decoding [0x20, 0, 0, 0, 1, 0xAA] with env := [false, true] }, .literal 0x20 [0xAA], 6, rfl, by decide +kernel,
      by decide +kernel, rfl⟩,
    { decoding [0x20, 0, 0, 0, 1, 0xAA] with env := [false, false, true] }, .literal 0x20 [0xAA], 6, rfl, by decide +kernel,
      by decide +kernel, by decide, rfl⟩

theorem witness_litWritesItsBytes :
    (Instr.lit 0x40 [0x5A]).wf = true ∧ (∃ s : State, s.dst.wf = true ∧ s.passes 1)
    ∧ ∃ s : State, s.dst.wf = true ∧ s.env = [true] :=
  ⟨by decide, ⟨decoding [], by decide +kernel, passes_of_nil rfl 1⟩, { decoding [] with env := [true] }, by decide +kernel, rfl⟩

theorem witness_rleWritesCopiesOfItsFill :
    (∃ s : State, s.dst.wf = true ∧ s.passes 1) ∧ (∃ s : State, s.dst.wf = true ∧ s.env = [true])
    ∧ (1 : Byte) ≠ 0 ∧ (255 : Byte) ≠ 0 :=
  ⟨⟨decoding [], by decide +kernel, passes_of_nil rfl 1⟩, ⟨{ decoding [] with env := [true] }, by decide +kernel, rfl⟩,
    by decide, by decide⟩

/-- A whole body, and one that ends inside a record (V43-2, V43-19). -/
theorem witness_applyComputesApplyAll :
    (∃ (s : State) (d : Memory), s.phase = .idle ∧ s.alwaysPasses ∧ 0x4E ≤ s.pat.len ∧ 0x18 ≤ s.img.len
      ∧ crcEqual (s.pat.read 0x3D 8) (s.img.read 0x10 8) = true ∧ applyAll s.img (s.pat.slice 0x4E s.pat.len) = some d)
    ∧ ∃ s : State, s.phase = .idle ∧ s.alwaysPasses ∧ 0x4E ≤ s.pat.len ∧ 0x18 ≤ s.img.len
      ∧ crcEqual (s.pat.read 0x3D 8) (s.img.read 0x10 8) = true ∧ applyAll s.img (s.pat.slice 0x4E s.pat.len) = none :=
  ⟨⟨{ decoding [0x20, 0, 0, 0, 3, 0xAA, 0xBB, 0xCC] with phase := .idle }, (Memory.ofBytes (rising 64)).put 0x20 [0xAA, 0xBB, 0xCC],
      rfl, alwaysPasses_of_nil rfl, by decide +kernel, by decide +kernel, by decide +kernel, by decide +kernel⟩,
    { decoding [0x20, 0, 0, 0, 3, 0xAA, 0xBB] with phase := .idle }, rfl, alwaysPasses_of_nil rfl, by decide +kernel,
      by decide +kernel, by decide +kernel, by decide +kernel⟩

theorem witness_applyAlwaysEndsWithinItsBound : ∃ s : State, s.phase = .idle ∧ s.env = [false, true] :=
  ⟨{ plain .idle [] [] [] with env := [false, true] }, rfl, rfl⟩

theorem witness_raiseRecordsKindAndInformation :
    (∃ e p g, e = Exc.validation p g) ∧ (∃ e sp a, e = Exc.io sp a) ∧ ∃ e a, e = Exc.format a :=
  ⟨⟨_, Vector.replicate 8 1, Vector.replicate 8 2, rfl⟩, ⟨_, .dst, 5, rfl⟩, _, 7, rfl⟩

theorem witness_stepKeepsTheSpacesCanonical : ∃ s t : State, s.memWf ∧ step s = .next t ∧ t.pat ≠ s.pat :=
  ⟨{ plain .idle (rising 64) [] [] with host := [.command 0x0000000001] }, _,
    ⟨by decide +kernel, by decide +kernel, by decide +kernel⟩, rfl, by decide +kernel⟩

theorem witness_stepKeepsErrorOnlyInFault : ∃ s t : State, s.errInv ∧ step s = .next t ∧ t.phase = .fault :=
  ⟨{ plain .idle [] [] [] with host := [.command 0x0000000006] }, _, by simp [State.errInv, plain], rfl, by decide +kernel⟩

theorem witness_stepKeepsTheCandidateFlagTrue :
    ∃ s t : State, s.runInv ∧ s.phase = .run ∧ step s = .next t ∧ t.rleCand = false :=
  ⟨{ running [7, 7] true with host := [.command 0x0000000803] }, _, fun _ => by decide +kernel, rfl, rfl, by decide +kernel⟩

/-- A header and one record, and the next run opened. -/
theorem witness_stepKeepsThePatchWellFormed :
    ∃ s t : State, s.encInv ∧ s.phase = .enc ∧ step s = .next t ∧ t.phase = .run :=
  ⟨{ plain .enc [] (header ++ [0x20, 0, 0, 0, 1, 0xAA]) [] with pcur := 0x54, host := [.command 0x0000000502] }, _,
    fun _ => ⟨by decide +kernel, by decide +kernel,
      ⟨#v[0x3C, 0x3D, 0x3E], #v[0x10, 0x11, 0x12, 0x13, 0x14, 0x15, 0x16, 0x17], 0x12345678, by decide +kernel⟩,
      [.literal 0x20 [0xAA]], by decide, by decide +kernel⟩, rfl, rfl, by decide +kernel⟩

theorem witness_stepKeepsTheCrcMatched :
    ∃ s t : State, s.crcInv ∧ s.phase = .valid ∧ step s = .next t ∧ t.phase = .dec :=
  ⟨{ plain .valid (rising 64) header [] with host := [.command 0x0000000009] }, _,
    fun _ => ⟨by decide +kernel, by decide +kernel, by decide +kernel⟩, rfl, rfl, by decide +kernel⟩

/-- One record applied, the next about to be. -/
theorem witness_stepKeepsDstTheAppliedPrefix :
    ∃ s t : State, s.memWf ∧ s.decInv ∧ s.phase = .dec ∧ step s = .next t ∧ t.dst ≠ s.dst :=
  ⟨{ plain .dec (rising 64) (header ++ [0x20, 0, 0, 0, 1, 0xAA, 0x21, 0, 0, 0, 0, 0xEE, 2]) ((rising 64).set 0x20 0xAA) with
      pcur := 0x54, host := [.command 0x000000000A] }, _,
    ⟨by decide +kernel, by decide +kernel, by decide +kernel⟩,
    fun _ => ⟨by decide +kernel, [.literal 0x20 [0xAA]], by decide, by decide +kernel, by decide +kernel⟩, rfl, rfl,
    by decide +kernel⟩

/-- `CRCCHK`, then the `DCOPY` that changes `DST`. -/
theorem witness_dstChangesOnlyAfterAPassedCheck :
    ∃ s t t' : State, s.phase ≠ .valid ∧ s.phase ≠ .dec ∧ Sys2Proof.core.run 1 s = .next t ∧ step t = .next t' ∧ t'.dst ≠ t.dst :=
  ⟨{ plain .idle (rising 64) header [] with host := [.command 0x0000000008, .command 0x0000000009] }, _, _, by decide, by decide,
    rfl, rfl, by decide +kernel⟩

/-- Two states in `IDLE` that differ in `PCUR`, and both step; and a host that moves a stream it must not. -/
theorem witness_stepReadsOnlyKnownRegisters :
    (∃ s s' t : State, SameKnown s s' ∧ s.pcur ≠ s'.pcur ∧ step s = .next t)
    ∧ ∃ s s' : State, SameKnown s s' ∧ s.recOff ≠ s'.recOff ∧ step s = .fault (.hostMovesStream .pat) :=
  ⟨⟨{ plain .idle [] header [] with host := [.command 0x0000000007] },
      { plain .idle [] header [] with host := [.command 0x0000000007], pcur := 5 }, _,
      ⟨rfl, rfl, rfl, rfl, rfl, rfl, rfl, rfl, rfl, fun h => by simp [plain] at h, fun h => by simp [plain] at h⟩,
      by decide, rfl⟩,
    { plain .enc [] [] [] with host := [.bind .pat []] }, { plain .enc [] [] [] with host := [.bind .pat []], recOff := 5 },
    ⟨rfl, rfl, rfl, rfl, rfl, rfl, rfl, rfl, rfl, fun _ => rfl, fun h => by simp [plain] at h⟩, by decide, rfl⟩

/-- The shortest original, with a modified image that is empty and one that is longer than it. -/
theorem witness_createWritesHeaderAndScannedRecords :
    ∃ (o m : List Byte) (s : State), o.length = 0x3F ∧ m.length < 2 ^ 32 ∧ s.phase = .idle ∧ s.img = Memory.ofBytes o
      ∧ s.alwaysPasses ∧ scanRecords o m = [.literal 0x3F [7]] :=
  ⟨rising 0x3F, rising 0x3F ++ [7], plain .idle (rising 0x3F) [] [], by decide +kernel, by decide +kernel, rfl, rfl,
    alwaysPasses_of_nil rfl, by decide +kernel⟩

theorem witness_scannedRunsCoverExactlyTheDifferences :
    (1, [0xAB]) ∈ scanRuns [0, 0] [0, 0xAB] ∧ 1 < [0, (0xAB : Byte)].length
    ∧ [0, (0xAB : Byte)].getD 1 0 ≠ virtualByte [0, 0] 1 := by decide

/-- Both clauses: a modified image as long as the original, and one a byte longer that ends in zero. -/
theorem witness_createThenApplyGivesTheModifiedImage :
    (∃ (o m : List Byte) (s : State), o.length = 0x3F ∧ m.length < 2 ^ 32 ∧ s.phase = .idle ∧ s.img = Memory.ofBytes o
      ∧ s.alwaysPasses ∧ m.length = o.length ∧ m ≠ o)
    ∧ ∃ (o m : List Byte) (s : State), o.length = 0x3F ∧ m.length < 2 ^ 32 ∧ s.phase = .idle ∧ s.img = Memory.ofBytes o
      ∧ s.alwaysPasses ∧ o.length + 1 = m.length ∧ m.getD 0x3F 1 = 0 :=
  ⟨⟨rising 0x3F, (rising 0x3F).set 5 9, plain .idle (rising 0x3F) [] [], by decide +kernel, by decide +kernel, rfl, rfl,
      alwaysPasses_of_nil rfl, by decide +kernel, by decide +kernel⟩,
    rising 0x3F, rising 0x3F ++ [0], plain .idle (rising 0x3F) [] [], by decide +kernel, by decide +kernel, rfl, rfl,
      alwaysPasses_of_nil rfl, by decide +kernel, by decide +kernel⟩

/-- R250's four good ends, a bad one, and an `OK` that ends nothing. -/
theorem witness_operationsEndInIdleOrFault :
    (∃ s t : State, s.errInv ∧ exec .efin s = .next t ∧ Operation.create.endedWell .efin t)
    ∧ (∃ s t : State, s.errInv ∧ exec .rdec s = .next t ∧ Operation.apply.endedWell .rdec t)
    ∧ (∃ s t : State, s.errInv ∧ exec .ident s = .next t ∧ Operation.rename.endedWell .ident t)
    ∧ (∃ s t : State, s.errInv ∧ exec .hparse s = .next t ∧ Operation.inspect.endedWell .hparse t)
    ∧ (∃ s t : State, s.errInv ∧ exec .hparse s = .next t ∧ t.endedBadly)
    ∧ ∃ s t : State, s.errInv ∧ exec .rdec s = .next t ∧ t.outcome = some .ok ∧ t.phase = .dec :=
  ⟨⟨plain .enc [] header [], _, by simp [State.errInv, plain], rfl, rfl, by decide +kernel⟩,
    ⟨decoding [], _, by simp [State.errInv, decoding, plain], rfl, rfl, by decide +kernel⟩,
    ⟨plain .idle [] header [], _, by simp [State.errInv, plain], rfl, rfl, by decide +kernel⟩,
    ⟨plain .idle [] header [], _, by simp [State.errInv, plain], rfl, rfl, by decide +kernel⟩,
    ⟨plain .idle [] [] [], _, by simp [State.errInv, plain], rfl, .formatError, by decide +kernel⟩,
    decoding [0x20, 0, 0, 0, 1, 0xAA], _, by simp [State.errInv, decoding, plain], rfl, by decide +kernel, by decide +kernel⟩

end Sys2Proof.Tests
end

section
/-! What one step does, read forwards from the host's list of moves, and the statements of 00_scope.md. -/

namespace Sys2Proof.Machine

/-- The state with the next move taken keeps the moves that follow it. -/
theorem State.tookMove_of_host_cons {s : State} {m : HostMove} {rest : List HostMove} (h : s.host = m :: rest) :
    s.tookMove = { s with host := rest } := by
  simp only [State.tookMove, h, List.tail_cons]

/-- R240: while the host makes no move, the step waits. -/
theorem step_of_host_nil {s : State} (h : s.host = []) : step s = .next s := by
  simp only [step, advance, h]

theorem step_of_host_cons {s : State} {m : HostMove} {rest : List HostMove} (h : s.host = m :: rest) :
    step s = hostMove m { s with host := rest } := by
  rw [← State.tookMove_of_host_cons h]
  simp only [step, advance, h]

theorem issue_of_decodeCommand_ok {cw : CommandWord} {i : Instr} (h : decodeCommand cw = .ok i) (s : State) :
    issue cw s = exec i s := by
  simp only [issue, h]

theorem step_of_command {s : State} {cw : CommandWord} {rest : List HostMove} {i : Instr}
    (hhost : s.host = .command cw :: rest) (hdec : decodeCommand cw = .ok i) :
    step s = exec i { s with host := rest } :=
  calc step s = issue cw { s with host := rest } := step_of_host_cons hhost
    _ = exec i { s with host := rest } := issue_of_decodeCommand_ok hdec _

/-- Settles O7: a command word's code word decodes as the word itself, and the step issues the word to the state with the
move taken; with no move to take it waits. -/
theorem stepRunsTheIssuedCommand : Obligations.StepRunsTheIssuedCommand :=
  ⟨fun _ _ _ _ hhost hdec => step_of_command hhost hdec, fun _ hnil => step_of_host_nil hnil⟩

end Sys2Proof.Machine
end

section
/-! Every way an instruction can end, in one relation, and what follows from it alone: the statements of 10_state.md on
which registers a command writes, how `PHASE` moves, and the error registers. -/

namespace Sys2Proof.Machine

/-! ## Every way an instruction ends -/

/-- The ends of an instruction at `s`: the one refusal (R220), the raises, told apart by what they leave without a value
or committed (R219), and the good ends. What the environment still answers, and what a failed write leaves in the spaces,
is left open. `exec_ends` ties it to `exec`. -/
inductive Ends (s : State) : Instr → State → Prop
  | refused (i : Instr) : Ends s i (s.returns .refused)
  | raised (i : Instr) (env : List Bool) (pat dst : Memory) (draws : Nat) (e : Exc) :
      Ends s i (State.raise { s with env := env, pat := pat, dst := dst, draws := draws } e)
  | latchesLost (env : List Bool) (e : Exc) : Ends s .hparse (State.raise (State.loseHeader { s with env := env }) e)
  | nameLost (env : List Bool) (e : Exc) : Ends s .ident (State.raise (State.loseIdent { s with env := env }) e)
  | recordNotWritten (r : Record) (env : List Bool) (dst : Memory) (draws : Nat) (e : Exc) :
      Ends s .rdec (State.raise { s.commitRecord r with env := env, dst := dst, draws := draws } e)
  | record (r : Record) (env : List Bool) :
      Ends s r.toInstr (State.returns { s with env := env, dst := apply1 s.dst r } .ok)
  | reset : Ends s .reset (s.doReset.returns .ok)
  | headerWritten (n : Word) (env : List Bool) (hp : s.phase = .idle) :
      Ends s (.hgen n) (State.returns { s with
        env := env, pat := Memory.empty.putEnd 0 (hdrBytes (s.img.read 0x3C 3) (s.img.read 0x10 8) n)
        pcur := 0x4E, phase := .enc } .ok)
  | runOpened (off : Word) (hp : s.phase = .enc) :
      Ends s (.rbegin off) (State.returns { s with
        recOff := off, runLen := 0, rleCand := true, phase := .run, buf := bufLoad [] s.draws
        draws := s.draws + 1 } .ok)
  | bytePushed (b : Byte) (hp : s.phase = .run) (hfull : s.runLen ≠ 255) :
      Ends s (.rpush b) (State.returns { s with
        rleCand := pushedCand s b, buf := s.buf.setIfInBounds s.runLen.toNat b, runLen := s.runLen + 1 } .ok)
  | runFlushed (env : List Bool) (hp : s.phase = .run) (hrun : s.runLen ≠ 0) :
      Ends s .rflush (State.returns { s with
        env := env, pat := s.pat.putEnd s.pcur (recBytes s.runRecord), pcur := s.pcur + (recBytes s.runRecord).length
        recKind := recordKind s.runRecord, phase := .enc } .ok)
  | patchEnded (hp : s.phase = .enc) : Ends s .efin (State.returns { s with phase := .idle } .ok)
  | headerLatched (env : List Bool) (f : Header) (hp : s.phase = .idle) :
      Ends s .hparse ((State.latch { s with env := env } f).returns .ok)
  | named (env : List Bool) (name : Vector Byte 12) (hp : s.phase = .idle) :
      Ends s .ident (State.returns { s with env := env, identOut := name } .ok)
  | crcMatched (env : List Bool) (hp : s.phase = .idle) (hpat : 0x45 ≤ s.pat.len) (himg : 0x18 ≤ s.img.len)
      (hcrc : crcEqual (s.pat.read 0x3D 8) (s.img.read 0x10 8) = true) :
      Ends s .crcchk (State.returns { s with env := env, phase := .valid } .ok)
  | imageCopied (env : List Bool) (dst : Memory) (hp : s.phase = .valid)
      (hdst : dst = s.img ∨ s.img.len = 0 ∧ dst = Memory.empty) :
      Ends s .dcopy (State.returns { s with env := env, dst := dst, pcur := 0x4E, phase := .dec } .ok)
  | patchApplied (hp : s.phase = .dec) : Ends s .rdec (State.returns { s with phase := .idle } .endOfPatch)
  | recordApplied (env : List Bool) (hp : s.phase = .dec)
      (hwhole : s.pcur + 5 + tailLen (s.pat.get (s.pcur + 4)) ≤ s.pat.len) :
      Ends s .rdec (State.returns { s.commitRecord (s.pat.recordAt s.pcur) with
        env := env, dst := apply1 s.dst (s.pat.recordAt s.pcur) } .ok)

theorem execHgen_ends {n : Word} {s t : State} (h : execHgen n s = .next t) : Ends s (.hgen n) t := by
  rcases execHgen_cases h with
    ⟨-, rfl⟩ | ⟨hp, ⟨-, rfl⟩ | ⟨-, -, rfl⟩ | ⟨-, -, -, rfl⟩ | ⟨-, -, -, -, rfl⟩ | ⟨-, -, -, -, rfl⟩⟩
  · exact .refused _
  · exact .raised _ _ _ _ _ _
  · exact .raised _ _ _ _ _ _
  · exact .raised _ _ _ _ _ _
  · simpa using Ends.raised (.hgen n) s.asked.asked.asked.env (Memory.empty.unspecifyFrom 0 s.draws) s.dst (s.draws + 1)
      (.io .pat 0)
  · simpa using Ends.headerWritten n s.asked.asked.asked.env hp

theorem execHparse_ends {s t : State} (h : execHparse s = .next t) : Ends s .hparse t := by
  rcases execHparse_cases h with ⟨-, rfl⟩ | ⟨hp, ⟨-, rfl⟩ | ⟨-, -, rfl⟩ | ⟨-, -, rfl⟩⟩
  · exact .refused _
  · exact .latchesLost _ _
  · exact .latchesLost _ _
  · exact .headerLatched _ _ hp

theorem execIdent_ends {s t : State} (h : execIdent s = .next t) : Ends s .ident t := by
  rcases execIdent_cases h with ⟨-, rfl⟩ | ⟨hp, ⟨-, rfl⟩ | ⟨-, -, rfl⟩ | ⟨-, -, rfl⟩⟩
  · exact .refused _
  · exact .nameLost _ _
  · exact .nameLost _ _
  · exact .named _ _ hp

theorem execCrcchk_ends {s t : State} (h : execCrcchk s = .next t) : Ends s .crcchk t := by
  rcases execCrcchk_cases h with
    ⟨-, rfl⟩ | ⟨hp, ⟨-, rfl⟩ | ⟨-, -, rfl⟩ | ⟨-, -, -, rfl⟩ | ⟨-, -, -, -, rfl⟩ | ⟨-, -, -, -, -, rfl⟩
      | ⟨hpat, -, himg, -, hcrc, rfl⟩⟩
  · exact .refused _
  · exact .raised _ _ _ _ _ _
  · exact .raised _ _ _ _ _ _
  · exact .raised _ _ _ _ _ _
  · exact .raised _ _ _ _ _ _
  · exact .raised _ _ _ _ _ _
  · exact .crcMatched _ hp hpat himg hcrc

theorem execDcopy_ends {s t : State} (h : execDcopy s = .next t) : Ends s .dcopy t := by
  rcases execDcopy_cases h with ⟨-, rfl⟩ | ⟨hp, ⟨hl, rfl⟩ | ⟨-, -, rfl⟩ | ⟨-, -, -, rfl⟩ | ⟨-, -, -, rfl⟩⟩
  · exact .refused _
  · exact .imageCopied _ _ hp (.inr ⟨hl, rfl⟩)
  · exact .raised _ _ _ _ _ _
  · exact .raised _ _ _ _ _ _
  · exact .imageCopied _ _ hp (.inl rfl)

theorem execRflush_ends {s t : State} (h : execRflush s = .next t) : Ends s .rflush t := by
  rcases execRflush_cases h with ⟨-, rfl⟩ | ⟨hp, hrun, ⟨-, rfl⟩ | ⟨-, rfl⟩⟩
  · exact .refused _
  · exact .raised _ _ _ _ _ _
  · exact .runFlushed _ hp hrun

/-- A record performed ends `OK` with the record applied, whether it writes a byte or none, or raises at its write. -/
theorem performRecord_ends {r : Record} {s t : State} (h : performRecord r s = .next t) :
    (∃ env, t = State.returns { s with env := env, dst := apply1 s.dst r } .ok)
    ∨ ∃ env dst draws e, t = State.raise { s with env := env, dst := dst, draws := draws } e := by
  rcases performRecord_cases h with ⟨rfl, hnone⟩ | ⟨-, rfl⟩ | ⟨-, off, n, rfl⟩
  · exact .inl ⟨s.env, by rw [hnone]⟩
  · exact .inl ⟨_, rfl⟩
  · exact .inr ⟨_, _, _, _, rfl⟩

theorem record_ends {r : Record} {s t : State} (h : performRecord r s = .next t) : Ends s r.toInstr t := by
  rcases performRecord_ends h with ⟨env, rfl⟩ | ⟨env, dst, draws, e, rfl⟩
  · exact .record r env
  · exact .raised _ _ _ _ _ _

theorem State.commitRecord_asked (s : State) (r : Record) : s.asked.commitRecord r = (s.commitRecord r).asked := by
  cases r <;> rfl

theorem execRdec_ends {s t : State} (h : execRdec s = .next t) : Ends s .rdec t := by
  rcases execRdec_cases h with
    ⟨-, rfl⟩ | ⟨hp, ⟨-, rfl⟩ | ⟨-, -, rfl⟩ | ⟨-, -, rfl⟩ | ⟨-, -, -, rfl⟩ | ⟨-, -, -, rfl⟩ | ⟨hwhole, -, -, h⟩⟩
  · exact .refused _
  · exact .patchApplied hp
  · exact .raised _ _ _ _ _ _
  · exact .raised _ _ _ _ _ _
  · exact .raised _ _ _ _ _ _
  · exact .raised _ _ _ _ _ _
  · rw [State.commitRecord_asked, State.commitRecord_asked] at h
    rcases performRecord_ends h with ⟨env, rfl⟩ | ⟨env, dst, draws, e, rfl⟩
    · simpa using Ends.recordApplied env hp hwhole
    · simpa using Ends.recordNotWritten (s.pat.recordAt s.pcur) env dst draws e

/-- Every instruction ends in one of the ways of `Ends`. -/
theorem exec_ends {i : Instr} {s t : State} (h : exec i s = .next t) : Ends s i t := by
  cases i with
  | rle off f n => exact record_ends (r := .runLength off f n) h
  | lit off d => exact record_ends (r := .literal off d) h
  | reset =>
    obtain rfl : s.doReset.returns .ok = t := by simpa [exec, execReset] using h
    exact .reset
  | hgen n => exact execHgen_ends h
  | rbegin off =>
    rcases execRbegin_cases h with ⟨-, rfl⟩ | ⟨hp, rfl⟩
    · exact .refused _
    · exact .runOpened off hp
  | rpush b =>
    rcases execRpush_cases h with ⟨-, rfl⟩ | ⟨hp, hfull, rfl⟩
    · exact .refused _
    · exact .bytePushed b hp hfull
  | rflush => exact execRflush_ends h
  | efin =>
    rcases execEfin_cases h with ⟨-, rfl⟩ | ⟨hp, rfl⟩
    · exact .refused _
    · exact .patchEnded hp
  | hparse => exact execHparse_ends h
  | ident => exact execIdent_ends h
  | crcchk => exact execCrcchk_ends h
  | dcopy => exact execDcopy_ends h
  | rdec => exact execRdec_ends h

/-! ## How `PHASE` moves -/

theorem raise_enters_fault {s u : State} {e : Exc} (hne : (u.raise e).phase ≠ s.phase) :
    s.phase ≠ .fault ∧ (u.raise e).phase = .fault ∧ ∃ k, (u.raise e).outcome = some (.fault k) :=
  ⟨fun hs => hne (by simp [hs]), u.raise_phase e, e.kind, u.raise_outcome e⟩

/-- Settles O11: a refusal, a record and the commands that open or close nothing keep `PHASE`; each other end is one row
of R21's table, and a raise is the row into `FAULT`. -/
theorem phaseMovesOnlyAlongItsTable : Obligations.PhaseMovesOnlyAlongItsTable := by
  intro i s t h hne
  cases exec_ends h with
  | refused | record | bytePushed | headerLatched | named | recordApplied => simp at hne
  | raised | latchesLost | nameLost | recordNotWritten => exact .inr (.inl (raise_enters_fault hne))
  | reset => exact .inl ⟨rfl, rfl⟩
  | headerWritten _ _ hp | runOpened _ hp | runFlushed _ hp | patchEnded hp | crcMatched _ hp | imageCopied _ _ hp
  | patchApplied hp => simp [hp]

/-! ## Which registers an instruction writes -/

/-- Settles O13: each end writes the registers of its command's row; the error registers change with a raise alone. -/
theorem registersChangeOnlyByTheirCommands : Obligations.RegistersChangeOnlyByTheirCommands := by
  intro i s t h hi
  cases exec_ends h with
  | reset => exact absurd rfl hi
  | raised | latchesLost | nameLost | recordNotWritten => simp [SameHeader]
  | refused | record | headerWritten | runOpened | bytePushed | runFlushed | patchEnded | headerLatched | named
  | crcMatched | imageCopied | patchApplied | recordApplied => simp [SameHeader, SameErrors]

/-! ## The error registers -/

theorem State.errInv_raise (s : State) (e : Exc) : (s.raise e).errInv := by simp [State.errInv]

theorem exec_keeps_errInv {i : Instr} {s t : State} (hs : s.errInv) (h : exec i s = .next t) : t.errInv := by
  cases exec_ends h with
  | raised | latchesLost | nameLost | recordNotWritten => exact State.errInv_raise _ _
  | refused | record | bytePushed | headerLatched | named | recordApplied => simpa [State.errInv] using hs
  | reset => simp [State.errInv]
  | headerWritten _ _ hp | runOpened _ hp | runFlushed _ hp | patchEnded hp | crcMatched _ hp | imageCopied _ _ hp
  | patchApplied hp => simpa [State.errInv, hp] using hs

/-- Settles O44: a raise enters `FAULT` and writes `ERR_KIND` together, only reset leaves `FAULT` and clears it, and what
else moves `PHASE` moves it between the other phases. -/
theorem stepKeepsErrorOnlyInFault : Obligations.StepKeepsErrorOnlyInFault := fun _ _ hs h =>
  step_keeps (fun _ _ _ hs => hs) (fun _ _ _ _ hs he => exec_keeps_errInv hs he) (fun _ _ => by simp [State.errInv])
    (fun _ _ _ _ hs => by simpa [State.errInv] using hs) hs h

/-! ## Reset and the registers' codes -/

/-- Settles O8: both resets are the same update, which leaves the spaces and the host's other moves alone. -/
theorem resetGivesIdleWithoutError : Obligations.ResetGivesIdleWithoutError :=
  ⟨⟨rfl, rfl⟩, fun s rest hhost =>
    ⟨State.doReset { s with host := rest }, step_of_host_cons hhost, rfl, rfl, rfl, rfl, rfl, rfl⟩⟩

/-- Settles O54: twelve values, read off the codes' definitions. -/
theorem registerCodesAreTheSpecs : Obligations.RegisterCodesAreTheSpecs := by
  unfold Obligations.RegisterCodesAreTheSpecs
  decide

end Sys2Proof.Machine
end

section
/-! The bytes of a record and of a run, as the invariants of R36 need them: what a whole record spells (R96), what a push
does to the run (R132), and that the CRC comparison is equality (R151). -/

namespace Sys2Proof

@[simp] theorem Record.isCommand_toInstr (r : Record) : r.toInstr.isCommand = false := by cases r <;> rfl

/-- R96: five leading bytes and the bytes they announce are the bytes of the record they spell, which is well formed. -/
theorem recBytes_recordOf : ∀ {head tail : List Byte}, head.length = 5 → tail.length = tailLen (lenOrZero head) →
    recBytes (recordOf head tail) = head ++ tail ∧ (recordOf head tail).wf = true
  | [a, b, c, d, n], tail, _, htail => by
    have hn : lenOrZero [a, b, c, d, n] = n := rfl
    rw [hn] at htail
    unfold recordOf
    by_cases h₀ : n = 0
    · rw [tailLen, if_pos h₀] at htail
      obtain ⟨f, k, rfl⟩ := List.length_eq_two.1 htail
      rw [hn, if_pos h₀]
      exact ⟨by simp [recBytes, bytesLe32_le32, h₀], rfl⟩
    · rw [tailLen, if_neg h₀] at htail
      have hpos : n.toNat ≠ 0 := fun h => h₀ (BitVec.eq_of_toNat_eq (by simpa using h))
      have hlt : n.toNat < 256 := n.isLt
      rw [hn, if_neg h₀]
      exact ⟨by simp [recBytes, bytesLe32_le32, htail], (Record.wf_literal _ _).2 (by omega)⟩

end Sys2Proof

namespace Sys2Proof.Machine

/-! ## Records in a space -/

theorem Memory.recBytes_recordAt_and_wf (m : Memory) (a : Nat) :
    recBytes (m.recordAt a) = m.slice a (a + 5 + tailLen (m.get (a + 4))) ∧ (m.recordAt a).wf = true := by
  obtain ⟨hbytes, hwf⟩ := recBytes_recordOf (head := (m.read a 5).toList)
    (tail := (m.read (a + 5) (tailLen (lenOrZero (m.read a 5).toList))).toList) (by simp) (by simp)
  refine ⟨?_, hwf⟩
  rw [Memory.recordAt, hbytes, lenOrZero_read, Memory.toList_read, Memory.toList_read,
    Memory.slice_append _ (by omega) (by omega)]

theorem Memory.wf_recordAt (m : Memory) (a : Nat) : (m.recordAt a).wf = true := (m.recBytes_recordAt_and_wf a).2

/-- R96: the record at a position spells the bytes it was read from. -/
theorem Memory.recBytes_recordAt (m : Memory) (a : Nat) :
    recBytes (m.recordAt a) = m.slice a (a + (recBytes (m.recordAt a)).length) := by
  have hbytes := (m.recBytes_recordAt_and_wf a).1
  have hlen : (recBytes (m.recordAt a)).length = 5 + tailLen (m.get (a + 4)) := by rw [hbytes]; simp; omega
  rw [hlen, ← Nat.add_assoc]
  exact hbytes

@[simp] theorem Memory.slice_self (m : Memory) (a : Nat) : m.slice a a = [] := List.eq_nil_of_length_eq_zero (by simp)

@[simp] theorem bodyBytes_nil : bodyBytes [] = [] := rfl

@[simp] theorem bodyBytes_concat (rs : List Record) (r : Record) : bodyBytes (rs ++ [r]) = bodyBytes rs ++ recBytes r := by
  simp [bodyBytes]

@[simp] theorem applyRecords_concat (d : Memory) (rs : List Record) (r : Record) :
    applyRecords d (rs ++ [r]) = apply1 (applyRecords d rs) r := by
  simp [applyRecords]

/-! ## The run (R22, R132) -/

@[simp] theorem State.length_runBytes (s : State) : s.runBytes.length = s.runLen.toNat := by
  have := s.runLen.isLt
  simp [State.runBytes]
  omega

/-- R133: the record of a run that is not empty is well formed. -/
theorem State.wf_runRecord {s : State} (h : s.runLen ≠ 0) : s.runRecord.wf = true := by
  unfold State.runRecord
  split
  · rfl
  · have hpos := runLen_ne_zero h
    have hlt := s.runLen.isLt
    exact (Record.wf_literal _ _).2 (by rw [State.length_runBytes]; omega)

/-- R26: the first byte of a run that is not empty stands in `BUF[0]`. -/
theorem State.runBytes_head? {s : State} (h : s.runLen ≠ 0) : s.runBytes.head? = some s.buf[0] := by
  have hpos := runLen_ne_zero h
  simp [State.runBytes, List.head?_eq_getElem?, Nat.pos_of_ne_zero hpos]

/-- R132: a push adds its byte to the run. -/
theorem runBytes_bytePushed {s t : State} (b : Byte) (hfull : s.runLen ≠ 255)
    (hbuf : t.buf = s.buf.setIfInBounds s.runLen.toNat b) (hlen : t.runLen = s.runLen + 1) :
    t.runBytes = s.runBytes ++ [b] := by
  rw [State.runBytes, hbuf, hlen, runLen_succ hfull, take_push _ _ (runLen_toNat_lt hfull), State.runBytes]

/-- R132: the flag after a push. -/
theorem pushedCand_iff (s : State) (b : Byte) :
    pushedCand s b = true ↔ s.rleCand = true ∧ (s.runLen ≠ 0 → b = s.buf[0]) := by
  have hpos : 1 ≤ s.runLen.toNat ↔ s.runLen ≠ 0 :=
    ⟨fun h h₀ => by simp [h₀] at h, fun h => Nat.pos_of_ne_zero (runLen_ne_zero h)⟩
  simp only [pushedCand, hpos]
  split
  · next h => exact ⟨nofun, fun ⟨_, hb⟩ => absurd (hb h.1) h.2⟩
  · next h => simpa using fun _ hne => not_not.1 fun hb => h ⟨hne, hb⟩

/-! ## The CRC (R151) -/

theorem crcEqual_iff (p g : Vector Byte 8) : crcEqual p g = true ↔ p = g := by
  simp only [crcEqual, List.all_eq_true, List.mem_range, beq_iff_eq]
  refine ⟨fun h => Vector.ext fun i hi => ?_, fun h _ _ => by rw [h]⟩
  simpa [hi] using h i hi

end Sys2Proof.Machine
end

section
/-! The invariants of R22 and R36. Each speaks of some phases only: in the others it holds of itself, and among the ends of
an instruction only those that lead into its phases have to be looked at. -/

namespace Sys2Proof.Machine

/-! ## Where an invariant says nothing -/

theorem State.runInv_of_phase_ne {s : State} (h : s.phase ≠ .run) : s.runInv := fun hp => absurd hp h

theorem State.encInv_of_phase_ne {s : State} (h₁ : s.phase ≠ .enc) (h₂ : s.phase ≠ .run) : s.encInv := fun hp =>
  absurd hp (not_or.2 ⟨h₁, h₂⟩)

theorem State.crcInv_of_phase_ne {s : State} (h₁ : s.phase ≠ .valid) (h₂ : s.phase ≠ .dec) : s.crcInv := fun hp =>
  absurd hp (not_or.2 ⟨h₁, h₂⟩)

theorem State.decInv_of_phase_ne {s : State} (h : s.phase ≠ .dec) : s.decInv := fun hp => absurd hp h

/-- R242, R246: the host binds its inputs in `IDLE`, and the destination in `VALID`. -/
theorem hostMayBind_iff {sp : Space} {ph : Phase} :
    hostMayBind sp ph = true ↔ (sp ≠ .dst ∧ ph = .idle) ∨ (sp = .dst ∧ ph = .valid) := by
  cases sp <;> simp [hostMayBind]

/-- The host binds no space while a patch is encoded or applied. -/
theorem phase_of_hostMayBind {sp : Space} {ph : Phase} (h : hostMayBind sp ph = true) : ph = .idle ∨ ph = .valid :=
  (hostMayBind_iff.1 h).imp And.right And.right

/-- Settles O42: the reset state is in `IDLE` without an error, its spaces are empty, and the other invariants speak of
other phases. -/
theorem resetMeetsTheInvariants : Obligations.ResetMeetsTheInvariants := by
  have hp : State.reset.phase = .idle := rfl
  have herr : State.reset.errKind = none := rfl
  exact ⟨⟨Memory.wf_empty, Memory.wf_empty, Memory.wf_empty⟩, by simp [State.errInv, hp, herr],
    State.runInv_of_phase_ne (by simp [hp]), State.encInv_of_phase_ne (by simp [hp]) (by simp [hp]),
    State.crcInv_of_phase_ne (by simp [hp]) (by simp [hp]), State.decInv_of_phase_ne (by simp [hp])⟩

/-! ## `RLE_CAND` (R22) -/

theorem runInv_runOpened {s : State} (h₁ : s.runLen = 0) (h₂ : s.rleCand = true) : s.runInv := fun _ => by
  simp [h₂, State.runBytes, h₁]

/-- R132: a push clears the flag exactly when the byte differs from the run's first. -/
theorem runInv_bytePushed {s t : State} (hs : s.runInv) (b : Byte) (hp : s.phase = .run) (hfull : s.runLen ≠ 255)
    (hcand : t.rleCand = pushedCand s b) (hbuf : t.buf = s.buf.setIfInBounds s.runLen.toNat b)
    (hlen : t.runLen = s.runLen + 1) : t.runInv := by
  have hrun := runBytes_bytePushed b hfull hbuf hlen
  intro _
  rw [hcand, pushedCand_iff, hs hp, hrun]
  by_cases h₀ : s.runLen = 0
  · have hnil : s.runBytes = [] := by simp [State.runBytes, h₀]
    have hfirst : t.buf[0] = b := by simp [hbuf, h₀]
    simp [h₀, hnil, hfirst]
  · have hfirst : t.buf[0] = s.buf[0] := by
      have := runLen_ne_zero h₀
      simp [hbuf, this]
    rw [imp_iff_right h₀]
    simp [hfirst, or_imp, forall_and]

theorem exec_keeps_runInv {i : Instr} {s t : State} (hs : s.runInv) (h : exec i s = .next t) : t.runInv := by
  cases exec_ends h with
  | refused | record | headerLatched | named => exact hs
  | raised | latchesLost | nameLost | recordNotWritten => exact State.runInv_of_phase_ne (by simp)
  | reset | headerWritten | runFlushed | patchEnded | crcMatched | imageCopied | patchApplied =>
    exact State.runInv_of_phase_ne (by simp)
  | recordApplied _ hp => exact State.runInv_of_phase_ne (by simp [hp])
  | runOpened => exact runInv_runOpened rfl rfl
  | bytePushed b hp hfull => exact runInv_bytePushed hs b hp hfull rfl rfl rfl

/-- Settles O45: a run is opened with the flag set and no byte, a push keeps the flag what it means, and no other end in
`RUN` writes the run. -/
theorem stepKeepsTheCandidateFlagTrue : Obligations.StepKeepsTheCandidateFlagTrue := fun _ _ hs h =>
  step_keeps (fun _ _ _ hs => hs) (fun _ _ _ _ hs he => exec_keeps_runInv hs he)
    (fun _ _ => State.runInv_of_phase_ne (by simp))
    (fun _ _ _ hb _ => State.runInv_of_phase_ne (by rcases phase_of_hostMayBind hb with hp | hp <;> simp [hp])) hs h

/-! ## The patch being encoded (R36) -/

/-- What `encInv` says of a patch of which `n` bytes are written: a generated header, whole records, and no more. -/
def IsPatchOf (pat : Memory) (n : Nat) : Prop :=
  pat.len = n ∧ Config.hdrLen ≤ n ∧ (∃ cart crc length, pat.slice 0 Config.hdrLen = hdrBytes cart crc length)
    ∧ ∃ rs, (∀ r ∈ rs, r.wf = true) ∧ pat.slice Config.hdrLen n = bodyBytes rs

theorem State.encInv_iff {s : State} : s.encInv ↔ (s.phase = .enc ∨ s.phase = .run → IsPatchOf s.pat s.pcur) := Iff.rfl

theorem isPatchOf_header (cart : Vector Byte 3) (crc : Vector Byte 8) (n : Word) :
    IsPatchOf (Memory.empty.putEnd 0 (hdrBytes cart crc n)) 78 := by
  have hne : hdrBytes cart crc n ≠ [] := List.ne_nil_of_length_eq_add_one (length_hdrBytes cart crc n)
  refine ⟨by rw [Memory.len_putEnd _ _ hne]; simp, by decide, ⟨cart, crc, n, ?_⟩, [], by simp, by simp⟩
  simpa using Memory.slice_putEnd Memory.empty 0 (hdrBytes cart crc n)

theorem IsPatchOf.append {pat : Memory} {n : Nat} (h : IsPatchOf pat n) {r : Record} (hr : r.wf = true) :
    IsPatchOf (pat.putEnd n (recBytes r)) (n + (recBytes r).length) := by
  obtain ⟨-, hn, ⟨cart, crc, length, hhdr⟩, rs, hwf, hbody⟩ := h
  refine ⟨Memory.len_putEnd _ _ (recBytes_ne_nil r), by omega, ⟨cart, crc, length, ?_⟩, rs ++ [r], ?_, ?_⟩
  · rw [Memory.slice_putEnd_before _ _ hn, hhdr]
  · simpa [or_imp, forall_and, hr] using hwf
  · rw [← Memory.slice_append _ hn (Nat.le_add_right _ _), Memory.slice_putEnd_before _ _ (Nat.le_refl n), hbody,
      Memory.slice_putEnd, bodyBytes_concat]

theorem exec_keeps_encInv {i : Instr} {s t : State} (hs : s.encInv) (h : exec i s = .next t) : t.encInv := by
  cases exec_ends h with
  | refused | record | headerLatched | named | bytePushed => exact hs
  | raised | latchesLost | nameLost | recordNotWritten => exact State.encInv_of_phase_ne (by simp) (by simp)
  | reset | patchEnded | crcMatched | imageCopied | patchApplied =>
    exact State.encInv_of_phase_ne (by simp) (by simp)
  | recordApplied _ hp => exact State.encInv_of_phase_ne (by simp [hp]) (by simp [hp])
  | headerWritten n => exact fun _ => isPatchOf_header _ _ n
  | runOpened _ hp => exact fun _ => hs (.inl hp)
  | runFlushed _ hp hrun => exact fun _ => (State.encInv_iff.1 hs (.inr hp)).append (State.wf_runRecord hrun)

/-- Settles O46: `HGEN` writes the header, `RFLUSH` appends one well-formed record at `PCUR`, and nothing else writes
`PAT` or `PCUR` in `ENC` and `RUN`. -/
theorem stepKeepsThePatchWellFormed : Obligations.StepKeepsThePatchWellFormed := fun _ _ hs h =>
  step_keeps (fun _ _ _ hs => hs) (fun _ _ _ _ hs he => exec_keeps_encInv hs he)
    (fun _ _ => State.encInv_of_phase_ne (by simp) (by simp))
    (fun _ _ _ hb _ => by
      rcases phase_of_hostMayBind hb with hp | hp <;>
        exact State.encInv_of_phase_ne (by simp [hp]) (by simp [hp])) hs h

/-! ## The CRC fields (R36) -/

/-- R150: what a passed comparison says of the two fields. -/
theorem slice_eq_of_crcEqual {pat img : Memory} (h : crcEqual (pat.read 0x3D 8) (img.read 0x10 8) = true) :
    pat.slice 0x3D 0x45 = img.slice 0x10 0x18 := by
  rw [← Memory.toList_read pat 0x3D 8, ← Memory.toList_read img 0x10 8, (crcEqual_iff _ _).1 h]

theorem exec_keeps_crcInv {i : Instr} {s t : State} (hs : s.crcInv) (h : exec i s = .next t) : t.crcInv := by
  cases exec_ends h with
  | refused | record | headerLatched | named | bytePushed => exact hs
  | raised | latchesLost | nameLost | recordNotWritten => exact State.crcInv_of_phase_ne (by simp) (by simp)
  | reset | headerWritten | runOpened | runFlushed | patchEnded | patchApplied =>
    exact State.crcInv_of_phase_ne (by simp) (by simp)
  | crcMatched _ _ hpat himg hcrc => exact fun _ => ⟨hpat, himg, slice_eq_of_crcEqual hcrc⟩
  | imageCopied _ _ hp => exact fun _ => hs (.inl hp)
  | recordApplied _ hp => simpa [State.crcInv] using hs

theorem bindSpace_keeps_crcInv {s : State} {sp : Space} (bs : List Byte) (hb : hostMayBind sp s.phase = true)
    (hs : s.crcInv) : (s.bindSpace sp bs).crcInv := by
  rcases hostMayBind_iff.1 hb with ⟨-, hp⟩ | ⟨rfl, -⟩
  · exact State.crcInv_of_phase_ne (by simp [hp]) (by simp [hp])
  · exact hs

/-- Settles O47: `CRCCHK` enters `VALID` only when the fields are equal, and in `VALID` and `DEC` neither an instruction
nor the host writes `PAT` or `IMG`. -/
theorem stepKeepsTheCrcMatched : Obligations.StepKeepsTheCrcMatched := fun _ _ hs h =>
  step_keeps (fun _ _ _ hs => hs) (fun _ _ _ _ hs he => exec_keeps_crcInv hs he)
    (fun _ _ => State.crcInv_of_phase_ne (by simp) (by simp)) (fun _ _ bs hb hs => bindSpace_keeps_crcInv bs hb hs) hs h

/-! ## The patch being applied (R36, R170) -/

/-- What `decInv` says of a patch applied up to position `n`. -/
def IsAppliedTo (img pat dst : Memory) (n : Nat) : Prop :=
  Config.hdrLen ≤ n
    ∧ ∃ rs, (∀ r ∈ rs, r.wf = true) ∧ pat.slice Config.hdrLen n = bodyBytes rs ∧ dst = applyRecords img rs

theorem State.decInv_iff {s : State} : s.decInv ↔ (s.phase = .dec → IsAppliedTo s.img s.pat s.dst s.pcur) := Iff.rfl

theorem isAppliedTo_header (img pat : Memory) : IsAppliedTo img pat img 78 :=
  ⟨Nat.le_refl _, [], by simp, by simp, rfl⟩

theorem IsAppliedTo.next {img pat dst : Memory} {n : Nat} (h : IsAppliedTo img pat dst n) :
    IsAppliedTo img pat (apply1 dst (pat.recordAt n)) (n + (recBytes (pat.recordAt n)).length) := by
  obtain ⟨hn, rs, hwf, hbody, hdst⟩ := h
  refine ⟨by omega, rs ++ [pat.recordAt n], ?_, ?_, by rw [applyRecords_concat, hdst]⟩
  · simpa [or_imp, forall_and, pat.wf_recordAt n] using hwf
  · rw [bodyBytes_concat, ← hbody, ← Memory.slice_append _ hn (Nat.le_add_right n _), ← pat.recBytes_recordAt n]

theorem exec_img {i : Instr} {s t : State} (h : exec i s = .next t) : t.img = s.img := by
  cases exec_ends h <;> simp

theorem exec_keeps_decInv {i : Instr} {s t : State} (hi : i.isCommand = true) (himg : s.img.wf = true) (hs : s.decInv)
    (h : exec i s = .next t) : t.decInv := by
  cases exec_ends h with
  | refused | headerLatched | named | bytePushed => exact hs
  | record => simp at hi
  | raised | latchesLost | nameLost | recordNotWritten => exact State.decInv_of_phase_ne (by simp)
  | reset | headerWritten | runOpened | runFlushed | patchEnded | crcMatched | patchApplied =>
    exact State.decInv_of_phase_ne (by simp)
  | imageCopied _ dst _ hdst =>
    have hcopy : dst = s.img := hdst.elim id fun ⟨hlen, hempty⟩ => hempty.trans (Memory.eq_empty_of_len himg hlen).symm
    subst hcopy
    exact fun _ => isAppliedTo_header s.img s.pat
  | recordApplied _ hp =>
    have hnext := (State.decInv_iff.1 hs hp).next
    rw [← State.commitRecord_pcur] at hnext
    exact State.decInv_iff.2 fun _ => by simpa using hnext

theorem bindSpace_keeps_img_wf {s : State} {sp : Space} (bs : List Byte) (h : s.img.wf = true) :
    (s.bindSpace sp bs).img.wf = true := by
  cases sp with
  | img => exact Memory.wf_ofBytes bs
  | pat | dst => exact h

/-- Settles O48: `DCOPY` makes `DST` the image, `RDEC` applies the record it passes, and nothing else writes `DST`, `PAT`,
`IMG` or `PCUR` in `DEC`. The invariant is kept with the canonical form of `IMG`, by which an image of no byte is the
empty space that `DCOPY` leaves. -/
theorem stepKeepsDstTheAppliedPrefix : Obligations.StepKeepsDstTheAppliedPrefix := fun _ _ hmem hs h =>
  (step_keeps (P := fun s => s.img.wf = true ∧ s.decInv) (fun _ _ _ hs => hs)
    (fun _ _ _ hi ⟨himg, hs⟩ he => ⟨by rw [exec_img he]; exact himg, exec_keeps_decInv hi himg hs he⟩)
    (fun _ ⟨himg, _⟩ => ⟨himg, State.decInv_of_phase_ne (by simp)⟩)
    (fun _ _ bs hb ⟨himg, _⟩ => ⟨bindSpace_keeps_img_wf bs himg,
      State.decInv_of_phase_ne (by rcases phase_of_hostMayBind hb with hp | hp <;> simp [hp])⟩) ⟨hmem.1, hs⟩ h).2

end Sys2Proof.Machine
end

section
/-! R32: no step reads a register that its phase gives no value. Accesses and answers of two states that agree on what is
known are related; each operation that a command is made of keeps the relation, and so does every command. -/

namespace Sys2Proof.Machine

variable {s s' : State} {α : Type}

/-- Two answers that agree: next states that agree on what is known, or one and the same fault. -/
inductive SameAnswer : Result → Result → Prop
  | next {t t' : State} (h : SameKnown t t') : SameAnswer (.next t) (.next t')
  | fault (f : Fault) : SameAnswer (.fault f) (.fault f)

/-- Two accesses that agree: the same exception, or the same value with the phase still `p`, and states that agree. -/
inductive SameAccess (p : Phase) : Access α → Access α → Prop
  | raised {t t' : State} (e : Exc) (h : SameKnown t t') : SameAccess p (.error e, t) (.error e, t')
  | got {t t' : State} (a : α) (h : SameKnown t t') (hp : t.phase = p) : SameAccess p (.ok a, t) (.ok a, t')

/-! ## The operations keep the relation -/

theorem SameAnswer.ite {c c' : Prop} [Decidable c] [Decidable c'] {r₁ r₁' r₂ r₂' : Result} (hc : c ↔ c')
    (h₁ : c → SameAnswer r₁ r₁') (h₂ : ¬c → SameAnswer r₂ r₂') :
    SameAnswer (if c then r₁ else r₂) (if c' then r₁' else r₂') := by
  by_cases h : c
  · rw [if_pos h, if_pos (hc.1 h)]
    exact h₁ h
  · rw [if_neg h, if_neg (mt hc.2 h)]
    exact h₂ h

namespace SameKnown

theorem ioFails (h : SameKnown s s') : s.ioFails = s'.ioFails := congrArg (List.headD · false) h.env

theorem space (h : SameKnown s s') (sp : Space) : s.space sp = s'.space sp := by
  cases sp with
  | img => exact h.img
  | pat => exact h.pat
  | dst => exact h.dst

theorem returns (h : SameKnown s s') (o : CmdOutcome) : SameKnown (s.returns o) (s'.returns o) := { h with outcome := rfl }

theorem asked (h : SameKnown s s') : SameKnown s.asked s'.asked := { h with env := congrArg List.tail h.env }

theorem tookMove (h : SameKnown s s') : SameKnown s.tookMove s'.tookMove := { h with host := congrArg List.tail h.host }

/-- In `FAULT` no register but `ERR_KIND` is compared. -/
theorem raise (h : SameKnown s s') (e : Exc) : SameKnown (s.raise e) (s'.raise e) where
  phase := by simp
  errKind := by simp
  img := by simp [h.img]
  pat := by simp [h.pat]
  dst := by simp [h.dst]
  outcome := by simp
  host := by simp [h.host]
  env := by simp [h.env]
  draws := by simp [h.draws]
  pcur := by simp
  run := by simp

theorem doReset (h : SameKnown s s') : SameKnown s.doReset s'.doReset where
  phase := rfl
  errKind := rfl
  img := h.img
  pat := h.pat
  dst := h.dst
  outcome := rfl
  host := h.host
  env := h.env
  draws := congrArg (· + 1) h.draws
  pcur := by simp
  run := by simp

theorem bindSpace (h : SameKnown s s') (sp : Space) (bs : List Byte) :
    SameKnown (s.bindSpace sp bs) (s'.bindSpace sp bs) := by
  cases sp with
  | img => exact { h with img := rfl }
  | pat => exact { h with pat := rfl }
  | dst => exact { h with dst := rfl }

theorem emptyPat (h : SameKnown s s') : SameKnown { s with pat := Memory.empty } { s' with pat := Memory.empty } :=
  { h with pat := rfl }

theorem loseHeader (h : SameKnown s s') : SameKnown s.loseHeader s'.loseHeader :=
  { h with draws := congrArg (· + 1) h.draws }

theorem loseIdent (h : SameKnown s s') : SameKnown s.loseIdent s'.loseIdent :=
  { h with draws := congrArg (· + 1) h.draws }

theorem loseDst (h : SameKnown s s') : SameKnown s.loseDst s'.loseDst :=
  { h with
    dst := congrArg (Memory.empty.unspecifyFrom 0) h.draws
    draws := congrArg (· + 1) h.draws }

/-- In `DEC` only `PCUR` is compared, and a commit moves it by the record's length. -/
theorem commitRecord (h : SameKnown s s') (hp : s.phase = .dec) (r : Record) :
    SameKnown (s.commitRecord r) (s'.commitRecord r) where
  phase := by simp [h.phase]
  errKind := by simp [h.errKind]
  img := by simp [h.img]
  pat := by simp [h.pat]
  dst := by simp [h.dst]
  outcome := by simp [h.outcome]
  host := by simp [h.host]
  env := by simp [h.env]
  draws := by simp [h.draws]
  pcur := fun _ => by rw [State.commitRecord_pcur, State.commitRecord_pcur, h.pcur (.inr (.inr hp))]
  run := by simp [hp]

/-! ### Accesses -/

theorem memRead (h : SameKnown s s') (sp : Space) (a n : Nat) :
    SameAccess s.phase (memRead sp a n s) (memRead sp a n s') := by
  unfold Machine.memRead
  rw [h.space, h.ioFails]
  split
  · exact .got _ h rfl
  · split
    · exact .raised _ h
    · split
      · exact .raised _ h.asked
      · exact .got _ h.asked rfl

theorem writePat (h : SameKnown s s') (a : Nat) (bs : List Byte) :
    SameAccess s.phase (writePat a bs s) (writePat a bs s') := by
  unfold Machine.writePat
  rw [h.ioFails, h.pat, h.draws]
  split
  · exact .raised _ { h.asked with pat := rfl, draws := rfl }
  · exact .got _ { h.asked with pat := rfl } rfl

theorem writeDst (h : SameKnown s s') (a : Nat) (bs : List Byte) :
    SameAccess s.phase (writeDst a bs s) (writeDst a bs s') := by
  unfold Machine.writeDst
  rw [h.ioFails, h.dst, h.draws]
  split
  · exact .raised _ { h.asked with dst := rfl, draws := rfl }
  · exact .got _ { h.asked with dst := rfl } rfl

end SameKnown

theorem SameAccess.andThen {p : Phase} {r r' : Access α} {k k' : α → State → Result} (h : SameAccess p r r')
    (hk : ∀ a t t', SameKnown t t' → t.phase = p → SameAnswer (k a t) (k' a t')) :
    SameAnswer (andThen r k) (andThen r' k') := by
  cases h with
  | raised e h => exact .next (h.raise e)
  | got a h hp => exact hk a _ _ h hp

theorem SameAccess.onRaise {p : Phase} {r r' : Access α} {f : State → State} (h : SameAccess p r r')
    (hf : ∀ t t', SameKnown t t' → SameKnown (f t) (f t')) : SameAccess p (onRaise f r) (onRaise f r') := by
  cases h with
  | raised e h => exact .raised e (hf _ _ h)
  | got a h hp => exact .got a h hp

/-! ## What the open run gives -/

namespace SameKnown

/-- The first byte of an open run is known. -/
theorem buf_first (h : SameKnown s s') (hp : s.phase = .run) (hne : s.runLen ≠ 0) : s.buf[0] = s'.buf[0] := by
  obtain ⟨-, hlen, -, hbytes⟩ := h.run hp
  have hhead := State.runBytes_head? hne
  rw [hbytes, State.runBytes_head? (hlen ▸ hne)] at hhead
  exact (Option.some.inj hhead).symm

theorem pushedCand (h : SameKnown s s') (hp : s.phase = .run) (b : Byte) : pushedCand s b = pushedCand s' b := by
  obtain ⟨-, hlen, hcand, -⟩ := h.run hp
  rw [Bool.eq_iff_iff, pushedCand_iff, pushedCand_iff, hcand]
  refine and_congr_right fun _ => ?_
  rw [← hlen]
  exact forall_congr' fun hne => by rw [h.buf_first hp hne]

theorem runRecord (h : SameKnown s s') (hp : s.phase = .run) : s.runRecord = s'.runRecord := by
  obtain ⟨hoff, hlen, hcand, hbytes⟩ := h.run hp
  unfold State.runRecord
  rw [← hcand, ← hlen, ← hoff, ← hbytes]
  split
  · next hc =>
    have hne : s.runLen ≠ 0 := fun h₀ => by simp [h₀] at hc
    rw [h.buf_first hp hne]
  · rfl

theorem full (h : SameKnown s s') (hp : s.phase = .run) : s.full = s'.full := by
  obtain ⟨-, hlen, -, -⟩ := h.run hp
  simp only [State.full, hlen]

/-! ## The commands -/

theorem refuse (h : SameKnown s s') : SameAnswer (refuse s) (refuse s') := .next (h.returns _)

theorem finish (h : SameKnown s s') : SameAnswer (finish s) (finish s') := .next (h.returns _)

/-- A command that is refused outside phase `p` agrees when it agrees in `p`. -/
theorem inPhase (h : SameKnown s s') {p : Phase} {r r' : Result} (hr : s.phase = p → SameAnswer r r') :
    SameAnswer (if s.phase ≠ p then Machine.refuse s else r) (if s'.phase ≠ p then Machine.refuse s' else r') :=
  .ite (by rw [h.phase]) (fun _ => h.refuse) fun hp => hr (not_not.1 hp)

/-- A command on an open run is refused outside `RUN` or when the run's length forbids it. -/
theorem inRun (h : SameKnown s s') {c c' : Prop} [Decidable c] [Decidable c'] {r r' : Result}
    (hc : s.phase = .run → (c ↔ c')) (hr : s.phase = .run → ¬c → SameAnswer r r') :
    SameAnswer (if s.phase ≠ .run ∨ c then Machine.refuse s else r)
      (if s'.phase ≠ .run ∨ c' then Machine.refuse s' else r') := by
  refine .ite ?_ (fun _ => h.refuse) fun hn => ?_
  · rw [← h.phase]
    by_cases hp : s.phase = .run
    · simp [hp, hc hp]
    · simp [hp]
  · obtain ⟨hp, hcn⟩ := not_or.1 hn
    exact hr (not_not.1 hp) hcn

theorem performRecord (h : SameKnown s s') (r : Record) : SameAnswer (performRecord r s) (performRecord r s') := by
  cases r with
  | literal off bs => exact (h.writeDst _ _).andThen fun _ _ _ ht _ => ht.finish
  | runLength off f n =>
    exact .ite Iff.rfl (fun _ => h.finish) fun _ => (h.writeDst _ _).andThen fun _ _ _ ht _ => ht.finish

theorem execHgen (h : SameKnown s s') (n : Word) : SameAnswer (execHgen n s) (execHgen n s') :=
  h.inPhase fun _ =>
    (h.memRead _ _ _).andThen fun _ _ _ h₁ _ =>
    (h₁.memRead _ _ _).andThen fun _ _ _ h₂ _ =>
    (h₂.emptyPat.writePat _ _).andThen fun _ _ _ h₃ _ =>
    finish { h₃ with phase := rfl, pcur := fun _ => rfl, run := nofun }

theorem execRbegin (h : SameKnown s s') (off : Word) : SameAnswer (execRbegin off s) (execRbegin off s') :=
  h.inPhase fun hp => finish
    { h with
      phase := rfl
      draws := congrArg (· + 1) h.draws
      pcur := fun _ => h.pcur (.inl hp)
      run := fun _ => ⟨rfl, rfl, rfl, by simp [State.runBytes]⟩ }

theorem execRpush (h : SameKnown s s') (b : Byte) : SameAnswer (execRpush b s) (execRpush b s') :=
  h.inRun (fun hp => by rw [h.full hp]) fun hp hfull => finish
    { h with
      run := fun _ => by
        obtain ⟨hoff, hlen, -, hbytes⟩ := h.run hp
        have hne : s.runLen ≠ 255 := mt s.full_iff.2 hfull
        refine ⟨hoff, congrArg (· + 1) hlen, h.pushedCand hp b, ?_⟩
        rw [runBytes_bytePushed b hne rfl rfl, hbytes]
        exact (runBytes_bytePushed b (hlen ▸ hne) rfl rfl).symm }

theorem execRflush (h : SameKnown s s') : SameAnswer (execRflush s) (execRflush s') := by
  refine h.inRun (fun hp => by rw [(h.run hp).2.1]) fun hp _ => ?_
  rw [← h.runRecord hp, ← h.pcur (.inr (.inl hp))]
  exact (h.writePat _ _).andThen fun _ _ _ ht _ =>
    finish { ht with phase := rfl, pcur := fun _ => rfl, run := nofun }

theorem execEfin (h : SameKnown s s') : SameAnswer (execEfin s) (execEfin s') :=
  h.inPhase fun _ => finish { h with phase := rfl, pcur := nofun, run := nofun }

theorem execHparse (h : SameKnown s s') : SameAnswer (execHparse s) (execHparse s') :=
  h.inPhase fun _ =>
    ((h.memRead _ _ _).onRaise fun _ _ => loseHeader).andThen fun _ _ _ ht _ => finish { ht with }

theorem execIdent (h : SameKnown s s') : SameAnswer (execIdent s) (execIdent s') :=
  h.inPhase fun _ =>
    ((h.memRead _ _ _).onRaise fun _ _ => loseIdent).andThen fun _ _ _ ht _ => finish { ht with }

theorem execCrcchk (h : SameKnown s s') : SameAnswer (execCrcchk s) (execCrcchk s') :=
  h.inPhase fun _ =>
    (h.memRead _ _ _).andThen fun _ _ _ h₁ _ =>
    (h₁.memRead _ _ _).andThen fun _ _ _ h₂ _ =>
    .ite Iff.rfl (fun _ => finish { h₂ with phase := rfl, pcur := nofun, run := nofun }) fun _ => .next (h₂.raise _)

theorem execDcopy (h : SameKnown s s') : SameAnswer (execDcopy s) (execDcopy s') :=
  h.inPhase fun _ =>
    .ite (by rw [h.img])
      (fun _ => finish { h with phase := rfl, dst := rfl, pcur := fun _ => rfl, run := nofun }) fun _ =>
    .ite (by rw [h.ioFails]) (fun _ => .next (h.asked.loseDst.raise _)) fun _ =>
    .ite (by rw [h.asked.ioFails]) (fun _ => .next (h.asked.asked.loseDst.raise _)) fun _ =>
    finish { h.asked.asked with phase := rfl, dst := h.img, pcur := fun _ => rfl, run := nofun }

theorem execRdec (h : SameKnown s s') : SameAnswer (execRdec s) (execRdec s') := by
  refine h.inPhase fun hp => ?_
  rw [← h.pcur (.inr (.inr hp))]
  refine .ite (by rw [h.pat]) (fun _ => .next ?_) fun _ => (h.memRead _ _ _).andThen fun head t t' ht htp => ?_
  · exact { h with phase := rfl, outcome := rfl, pcur := nofun, run := nofun }
  · rw [← ht.pcur (.inr (.inr (htp.trans hp)))]
    exact (ht.memRead _ _ _).andThen fun _ _ _ hu hup =>
      (hu.commitRecord (hup.trans (htp.trans hp)) _).performRecord _

theorem exec (h : SameKnown s s') (i : Instr) : SameAnswer (exec i s) (exec i s') := by
  cases i with
  | rle off f n => exact h.performRecord (.runLength off f n)
  | lit off d => exact h.performRecord (.literal off d)
  | reset => exact h.doReset.finish
  | hgen n => exact h.execHgen n
  | rbegin off => exact h.execRbegin off
  | rpush b => exact h.execRpush b
  | rflush => exact h.execRflush
  | efin => exact h.execEfin
  | hparse => exact h.execHparse
  | ident => exact h.execIdent
  | crcchk => exact h.execCrcchk
  | dcopy => exact h.execDcopy
  | rdec => exact h.execRdec

theorem hostMove (h : SameKnown s s') (m : HostMove) : SameAnswer (hostMove m s) (hostMove m s') := by
  cases m with
  | command cw =>
    simp only [Machine.hostMove, issue]
    split
    · exact h.exec _
    · exact h.refuse
  | resetLine => exact .next h.doReset
  | bind sp bs => exact .ite (by rw [h.phase]) (fun _ => .next (h.bindSpace sp bs)) fun _ => .fault _

theorem step (h : SameKnown s s') : SameAnswer (step s) (step s') := by
  cases hhost : s.host with
  | nil =>
    rw [step_of_host_nil hhost, step_of_host_nil (h.host ▸ hhost)]
    exact .next h
  | cons m rest =>
    have hhost' : s'.host = m :: rest := h.host ▸ hhost
    rw [step_of_host_cons hhost, step_of_host_cons hhost', ← State.tookMove_of_host_cons hhost,
      ← State.tookMove_of_host_cons hhost']
    exact h.tookMove.hostMove m

end SameKnown

/-- Settles O50: from two states that agree on what is known, the answers of the two steps agree, next state for next
state and fault for fault. -/
theorem stepReadsOnlyKnownRegisters : Obligations.StepReadsOnlyKnownRegisters := by
  intro s s' h
  have hsame := h.step
  refine ⟨fun t ht => ?_, fun f hf => ?_⟩
  · rw [ht] at hsame
    generalize step s' = r at hsame ⊢
    cases hsame with
    | next h => exact ⟨_, rfl, h⟩
  · rw [hf] at hsame
    generalize step s' = r at hsame ⊢
    cases hsame with
    | fault => rfl

end Sys2Proof.Machine
end

section
/-! What an instruction leaves in the three spaces (R51 to R53), a failed write's space included (R60, R219), in one
relation; and from it alone the statements of 20_memory.md. -/

namespace Sys2Proof.Machine

/-! ## The spaces after an instruction -/

/-- The ways `PAT` and `DST` of `t` can come from those of `s`. A failed append is itself a `putEnd`, of free bytes
(`Memory.unspecifyFrom`), and so has no case of its own. `exec_spacesAfter` ties the relation to `exec`. -/
inductive SpacesAfter (s t : State) : Instr → Prop
  | kept (i : Instr) (hpat : t.pat = s.pat) (hdst : t.dst = s.dst) : SpacesAfter s t i
  | header (n : Word) (bs : List Byte) (hpat : t.pat = Memory.empty.putEnd 0 bs) (hdst : t.dst = s.dst) :
      SpacesAfter s t (.hgen n)
  | run (a : Nat) (bs : List Byte) (hpat : t.pat = s.pat.putEnd a bs) (hdst : t.dst = s.dst) : SpacesAfter s t .rflush
  | copy (hpat : t.pat = s.pat) (hdst : t.dst = s.img) : SpacesAfter s t .dcopy
  | copyOfEmpty (hpat : t.pat = s.pat) (hdst : t.dst = Memory.empty) : SpacesAfter s t .dcopy
  | copyFailed (bs : List Byte) (hpat : t.pat = s.pat) (hdst : t.dst = Memory.empty.putEnd 0 bs) : SpacesAfter s t .dcopy
  | record {i : Instr} (r : Record) (hr : i = .rdec ∨ i = r.toInstr) (hpat : t.pat = s.pat)
      (hdst : t.dst = apply1 s.dst r) : SpacesAfter s t i
  | recordFailed {i : Instr} (r : Record) (hr : i = .rdec ∨ i = r.toInstr) (lo hi draw : Nat) (hpat : t.pat = s.pat)
      (hdst : t.dst = s.dst.unspecify lo hi draw) : SpacesAfter s t i

theorem execHgen_spacesAfter {n : Word} {s t : State} (h : execHgen n s = .next t) : SpacesAfter s t (.hgen n) := by
  rcases execHgen_cases h with
    ⟨-, rfl⟩ | ⟨-, ⟨-, rfl⟩ | ⟨-, -, rfl⟩ | ⟨-, -, -, rfl⟩ | ⟨-, -, -, -, rfl⟩ | ⟨-, -, -, -, rfl⟩⟩
  · exact .kept _ rfl rfl
  · exact .kept _ rfl rfl
  · exact .kept _ rfl rfl
  · exact .kept _ rfl rfl
  · exact .header n _ rfl rfl
  · exact .header n (hdrBytes (s.img.read 0x3C 3) (s.img.read 0x10 8) n) rfl rfl

theorem execRflush_spacesAfter {s t : State} (h : execRflush s = .next t) : SpacesAfter s t .rflush := by
  rcases execRflush_cases h with ⟨-, rfl⟩ | ⟨-, -, ⟨-, rfl⟩ | ⟨-, rfl⟩⟩
  · exact .kept _ rfl rfl
  · exact .run _ _ rfl rfl
  · exact .run _ _ rfl rfl

theorem execDcopy_spacesAfter {s t : State} (h : execDcopy s = .next t) : SpacesAfter s t .dcopy := by
  rcases execDcopy_cases h with ⟨-, rfl⟩ | ⟨-, ⟨-, rfl⟩ | ⟨-, -, rfl⟩ | ⟨-, -, -, rfl⟩ | ⟨-, -, -, rfl⟩⟩
  · exact .kept _ rfl rfl
  · exact .copyOfEmpty rfl rfl
  · exact .copyFailed _ rfl rfl
  · exact .copyFailed _ rfl rfl
  · exact .copy rfl rfl

/-- A record performed at a state with the spaces of `s`, as it is one itself or by an `RDEC` that has committed it. -/
theorem performRecord_spacesAfter {i : Instr} {r : Record} {s u t : State} (hr : i = .rdec ∨ i = r.toInstr)
    (hpat : u.pat = s.pat) (hdst : u.dst = s.dst) (h : performRecord r u = .next t) : SpacesAfter s t i := by
  rcases performRecord_cases h with ⟨rfl, -⟩ | ⟨-, rfl⟩ | ⟨-, off, n, rfl⟩
  · exact .kept i hpat hdst
  · exact .record r hr hpat (congrArg (apply1 · r) hdst)
  · exact .recordFailed r hr (min off u.dst.len) (off + n) u.draws hpat (congrArg (Memory.unspecify · _ _ _) hdst)

theorem execRdec_spacesAfter {s t : State} (h : execRdec s = .next t) : SpacesAfter s t .rdec := by
  rcases execRdec_cases h with
    ⟨-, rfl⟩ | ⟨-, ⟨-, rfl⟩ | ⟨-, -, rfl⟩ | ⟨-, -, rfl⟩ | ⟨-, -, -, rfl⟩ | ⟨-, -, -, rfl⟩ | ⟨-, -, -, h⟩⟩
  · exact .kept _ rfl rfl
  · exact .kept _ rfl rfl
  · exact .kept _ rfl rfl
  · exact .kept _ rfl rfl
  · exact .kept _ rfl rfl
  · exact .kept _ rfl rfl
  · exact performRecord_spacesAfter (.inl rfl) (by simp) (by simp) h

/-- Every instruction leaves `PAT` and `DST` in one of the ways of `SpacesAfter`. -/
theorem exec_spacesAfter {i : Instr} {s t : State} (h : exec i s = .next t) : SpacesAfter s t i := by
  cases i with
  | rle off f n => exact performRecord_spacesAfter (r := .runLength off f n) (.inr rfl) rfl rfl h
  | lit off d => exact performRecord_spacesAfter (r := .literal off d) (.inr rfl) rfl rfl h
  | reset =>
    obtain rfl : s.doReset.returns .ok = t := by simpa [exec, execReset] using h
    exact .kept _ rfl rfl
  | hgen n => exact execHgen_spacesAfter h
  | rbegin off => rcases execRbegin_cases h with ⟨-, rfl⟩ | ⟨-, rfl⟩ <;> exact .kept _ rfl rfl
  | rpush b => rcases execRpush_cases h with ⟨-, rfl⟩ | ⟨-, -, rfl⟩ <;> exact .kept _ rfl rfl
  | rflush => exact execRflush_spacesAfter h
  | efin => rcases execEfin_cases h with ⟨-, rfl⟩ | ⟨-, rfl⟩ <;> exact .kept _ rfl rfl
  | hparse =>
    rcases execHparse_cases h with ⟨-, rfl⟩ | ⟨-, ⟨-, rfl⟩ | ⟨-, -, rfl⟩ | ⟨-, -, rfl⟩⟩ <;> exact .kept _ rfl rfl
  | ident =>
    rcases execIdent_cases h with ⟨-, rfl⟩ | ⟨-, ⟨-, rfl⟩ | ⟨-, -, rfl⟩ | ⟨-, -, rfl⟩⟩ <;> exact .kept _ rfl rfl
  | crcchk =>
    rcases execCrcchk_cases h with
      ⟨-, rfl⟩ | ⟨-, ⟨-, rfl⟩ | ⟨-, -, rfl⟩ | ⟨-, -, -, rfl⟩ | ⟨-, -, -, -, rfl⟩ | ⟨-, -, -, -, -, rfl⟩
        | ⟨-, -, -, -, -, rfl⟩⟩ <;> exact .kept _ rfl rfl
  | dcopy => exact execDcopy_spacesAfter h
  | rdec => exact execRdec_spacesAfter h

/-! ## Which instructions write a space -/

/-- What performs a record is `RDEC` or one of the two record instructions. -/
theorem rdec_or_lit_or_rle {i : Instr} {r : Record} (hr : i = .rdec ∨ i = r.toInstr) :
    i = .rdec ∨ (∃ off d, i = .lit off d) ∨ ∃ off f n, i = .rle off f n := by
  cases r with
  | literal off d => exact hr.imp_right fun h => .inl ⟨off, d, h⟩
  | runLength off f n => exact hr.imp_right fun h => .inr ⟨off, f, n, h⟩

/-- Settles O14: `exec_img` for `IMG`; each way of `SpacesAfter` that writes a space names the command that does. -/
theorem spacesChangeOnlyByTheirCommands : Obligations.SpacesChangeOnlyByTheirCommands := by
  intro i s t h
  refine ⟨exec_img h, ?_⟩
  cases exec_spacesAfter h with
  | kept _ hpat hdst => exact ⟨fun hne => absurd hpat hne, fun hne => absurd hdst hne⟩
  | header n _ _ hdst => exact ⟨fun _ => .inl ⟨n, rfl⟩, fun hne => absurd hdst hne⟩
  | run _ _ _ hdst => exact ⟨fun _ => .inr rfl, fun hne => absurd hdst hne⟩
  | copy hpat | copyOfEmpty hpat | copyFailed _ hpat => exact ⟨fun hne => absurd hpat hne, fun _ => .inl rfl⟩
  | record _ hr hpat | recordFailed _ hr _ _ _ hpat =>
    exact ⟨fun hne => absurd hpat hne, fun _ => .inr (rdec_or_lit_or_rle hr)⟩

/-! ## The canonical form -/

theorem Memory.wf_apply1 {d : Memory} (h : d.wf = true) (r : Record) : (apply1 d r).wf = true := by
  cases r <;> exact Memory.wf_put h _ _

theorem exec_keeps_memWf {i : Instr} {s t : State} (hs : s.memWf) (h : exec i s = .next t) : t.memWf := by
  obtain ⟨himg, hpat, hdst⟩ := hs
  refine ⟨by rwa [exec_img h], ?_⟩
  cases exec_spacesAfter h with
  | kept _ hp hd => rw [hp, hd]; exact ⟨hpat, hdst⟩
  | header _ _ hp hd => rw [hp, hd]; exact ⟨Memory.wf_putEnd Memory.wf_empty _ _, hdst⟩
  | run _ _ hp hd => rw [hp, hd]; exact ⟨Memory.wf_putEnd hpat _ _, hdst⟩
  | copy hp hd => rw [hp, hd]; exact ⟨hpat, himg⟩
  | copyOfEmpty hp hd => rw [hp, hd]; exact ⟨hpat, Memory.wf_empty⟩
  | copyFailed _ hp hd => rw [hp, hd]; exact ⟨hpat, Memory.wf_putEnd Memory.wf_empty _ _⟩
  | record r _ hp hd => rw [hp, hd]; exact ⟨hpat, Memory.wf_apply1 hdst r⟩
  | recordFailed _ _ _ _ _ hp hd => rw [hp, hd]; exact ⟨hpat, Memory.wf_unspecify hdst _ _ _⟩

theorem bindSpace_keeps_memWf {s : State} (hs : s.memWf) (sp : Space) (bs : List Byte) : (s.bindSpace sp bs).memWf := by
  obtain ⟨himg, hpat, hdst⟩ := hs
  cases sp with
  | img => exact ⟨Memory.wf_ofBytes bs, hpat, hdst⟩
  | pat => exact ⟨himg, Memory.wf_ofBytes bs, hdst⟩
  | dst => exact ⟨himg, hpat, Memory.wf_ofBytes bs⟩

/-- Settles O43: what an instruction writes into a space it writes by operations that keep the canonical form, reset keeps
the spaces, and the host binds a space to bytes in that form. -/
theorem stepKeepsTheSpacesCanonical : Obligations.StepKeepsTheSpacesCanonical := fun _ _ hs h =>
  step_keeps (fun _ _ _ hs => hs) (fun _ _ _ _ hs he => exec_keeps_memWf hs he) (fun _ hs => hs)
    (fun _ sp bs _ hs => bindSpace_keeps_memWf hs sp bs) hs h

end Sys2Proof.Machine
end

section
/-! The two encodings read back: command words from their opcode and operand (R100 to R102), records from their bytes
(R89 to R98), the header from its 78 bytes (R80, R88); and the statements of 30_encoding.md. -/

namespace Sys2Proof

/-! ## Command words (R100 to R102) -/

/-- Settles O5: a command word's opcode selects the command, and its operand is the one it was written with. -/
theorem operandBitsAreReadOrIgnored : Obligations.OperandBitsAreReadOrIgnored := fun arg => by
  have hlow : arg.extractLsb' 0 8 = arg.setWidth 8 := (BitVec.setWidth_eq_extractLsb' (by decide)).symm
  simp only [decodeCommand, opcodeOf_commandWord, argOf_commandWord, hlow]
  exact ⟨rfl, rfl, rfl, rfl, rfl, rfl, rfl, rfl, rfl, rfl, rfl⟩

/-- R102: an opcode from 0x0B on selects no command. -/
theorem decodeCommand_of_reserved {cw : CommandWord} (h : 0x0B ≤ (opcodeOf cw).toNat) :
    decodeCommand cw = .error (.reservedOpcode (opcodeOf cw)) := by
  unfold decodeCommand
  split
  case h_12 => rfl
  all_goals omega

/-- R101: every command decodes from its own command word. -/
theorem decode_encode_of_isCommand {i : Instr} (hi : i.isCommand = true) : decode (encode i) = .ok i := by
  have hcmd := operandBitsAreReadOrIgnored
  unfold Obligations.OperandBitsAreReadOrIgnored at hcmd
  cases i with
  | rle | lit => cases hi
  | rpush b =>
    have hb : (b.setWidth 32).setWidth 8 = b := BitVec.setWidth_setWidth_of_le b (by decide)
    simp only [encode, decode, hcmd, hb]
  | reset | hgen _ | rbegin _ | rflush | efin | hparse | ident | crcchk | dcopy | rdec =>
    simp only [encode, decode, hcmd]

/-! ## Records (R89 to R98) -/

/-- R92: a record whose announced bytes are all there is read whole. -/
theorem decodeRecord_of_le {s : List Byte} (h : 5 + tailLen (lenOrZero s) ≤ s.length) :
    decodeRecord s =
      .ok (recordOf (s.take 5) ((s.drop 5).take (tailLen (lenOrZero s))), 5 + tailLen (lenOrZero s)) := by
  rw [decodeRecord, if_neg (by simp only [Config.recHead]; omega), if_neg (by simp only [Config.recHead]; omega)]

/-- R92: a record of which an announced byte is missing is short. -/
theorem decodeRecord_of_lt {s : List Byte} (h : s.length < 5 + tailLen (lenOrZero s)) :
    decodeRecord s = .error .shortRecord := by
  rw [decodeRecord, if_pos (show s.length < Config.recHead + tailLen (lenOrZero s) from h), ite_self]

theorem decodeRecord_ok_iff {s : List Byte} {r : Record} {k : Nat} :
    decodeRecord s = .ok (r, k) ↔ 5 + tailLen (lenOrZero s) ≤ s.length
      ∧ recordOf (s.take 5) ((s.drop 5).take (tailLen (lenOrZero s))) = r ∧ 5 + tailLen (lenOrZero s) = k := by
  by_cases h : 5 + tailLen (lenOrZero s) ≤ s.length
  · simp [decodeRecord_of_le h, h]
  · simp [decodeRecord_of_lt (not_le.1 h), h]

theorem decodeRecord_error_iff {s : List Byte} {e : DecodeError} :
    decodeRecord s = .error e ↔ s.length < 5 + tailLen (lenOrZero s) ∧ e = .shortRecord := by
  by_cases h : 5 + tailLen (lenOrZero s) ≤ s.length
  · simp [decodeRecord_of_le h, h]
  · simp [decodeRecord_of_lt (not_le.1 h), not_le.1 h, eq_comm]

theorem lenOrZero_append {s : List Byte} (h : 5 ≤ s.length) (t : List Byte) : lenOrZero (s ++ t) = lenOrZero s :=
  List.getD_append s t 0 4 h

/-- R93: the bytes of a well-formed record are the five-byte prefix and as many as its last byte announces. -/
theorem length_recBytes_eq_tailLen {r : Record} (hr : r.wf = true) :
    (recBytes r).length = 5 + tailLen (lenOrZero (recBytes r)) := by
  cases r with
  | literal off bytes =>
    obtain ⟨_, ⟨⟩, hn, hlen⟩ := Laws.CodeWordShape.lit off bytes hr
    rw [hn]
    exact hlen
  | runLength off fill count => rfl

/-- R96: the bytes of a well-formed record, cut after the five-byte prefix, spell that record. -/
theorem recordOf_recBytes {r : Record} (hr : r.wf = true) :
    recordOf ((recBytes r).take 5) ((recBytes r).drop 5) = r := by
  cases r with
  | literal off bytes =>
    obtain ⟨h₁, h₂⟩ := (Record.wf_literal off bytes).1 hr
    have hne : BitVec.ofNat 8 bytes.length ≠ 0 := fun h₀ => by
      have hmod : bytes.length % 256 = 0 := by simpa using congrArg BitVec.toNat h₀
      omega
    exact (if_neg hne).trans (congrArg (Record.literal · bytes) (le32_bytesLe32 off [BitVec.ofNat 8 bytes.length]))
  | runLength off fill count =>
    exact congrArg (Record.runLength · fill count) (le32_bytesLe32 off [0x00])

/-- R96: a well-formed record is read back from the front of any bytes that begin with its own. -/
theorem decodeRecord_recBytes_append {r : Record} (hr : r.wf = true) (t : List Byte) :
    decodeRecord (recBytes r ++ t) = .ok (r, (recBytes r).length) := by
  have hlen := length_recBytes_eq_tailLen hr
  have hn : lenOrZero (recBytes r ++ t) = lenOrZero (recBytes r) := lenOrZero_append (by omega) t
  rw [decodeRecord_ok_iff, hn, List.length_append, List.take_append_of_le_length (by omega),
    List.drop_append_of_le_length (by omega), List.take_left' (by rw [List.length_drop]; omega)]
  exact ⟨by omega, recordOf_recBytes hr, hlen.symm⟩

/-- Settles O3: forwards by `decodeRecord_recBytes_append`; backwards the bytes read are the five-byte prefix and the bytes
it announces, which spell the record. -/
theorem recordBytesAndRecordsCorrespond : Obligations.RecordBytesAndRecordsCorrespond := by
  refine ⟨fun r t hr => decodeRecord_recBytes_append hr t, fun s r k h => ?_⟩
  obtain ⟨hle, rfl, rfl⟩ := decodeRecord_ok_iff.1 h
  have hn : lenOrZero (s.take 5) = lenOrZero s := by
    rw [← lenOrZero_append (by rw [List.length_take]; omega) (s.drop 5), List.take_append_drop]
  obtain ⟨hbytes, hwf⟩ := recBytes_recordOf (head := s.take 5) (tail := (s.drop 5).take (tailLen (lenOrZero s)))
    (by rw [List.length_take]; omega) (by rw [hn, List.length_take, List.length_drop]; omega)
  exact ⟨hwf, hle, by rw [hbytes, List.take_add]⟩

/-- Settles O4: a record is short when a byte that its prefix announces is missing; bytes that end inside the prefix are
short whatever it would have announced. -/
theorem recordIsShortExactlyWhenItsBytesEnd : Obligations.RecordIsShortExactlyWhenItsBytesEnd := by
  refine fun s => ⟨?_, fun e h => (decodeRecord_error_iff.1 h).2⟩
  rw [decodeRecord_error_iff, tailLen]
  split
  · next h₀ =>
    simp only [h₀, Config.rleLen, Config.recHead, ne_eq, not_true_eq_false, false_and, or_false, true_and, and_true]
    omega
  · next h₀ =>
    simp only [h₀, ne_eq, not_false_eq_true, false_and, false_or, true_and, and_true]
    omega

/-- Settles O2: a command decodes from its command word, a record from its bytes with nothing after them. -/
theorem everyInstructionDecodesFromItsEncoding : Obligations.EveryInstructionDecodesFromItsEncoding := by
  have hrec : ∀ r : Record, r.wf = true → decode (.record (recBytes r)) = .ok r.toInstr := fun r hr => by
    have h := decodeRecord_recBytes_append hr []
    rw [List.append_nil] at h
    simp only [decode, h]
  intro i hi
  cases i with
  | rle off fill count => exact hrec (.runLength off fill count) rfl
  | lit off data => exact hrec (.literal off data) hi
  | _ => exact decode_encode_of_isCommand rfl

/-- Settles O1, by evaluating the decoder on each word. -/
theorem writtenOutWordsDecode : Obligations.WrittenOutWordsDecode := by
  unfold Obligations.WrittenOutWordsDecode
  decide

end Sys2Proof

namespace Sys2Proof.Machine

theorem issue_of_decodeCommand_error {cw : CommandWord} {e : DecodeError} (h : decodeCommand cw = .error e) (s : State) :
    issue cw s = refuse s := by
  simp only [issue, h]

/-- Settles O6: the word decodes to no command, so the step refuses it in whatever phase the state is. -/
theorem reservedOpcodeIsRefusedInEveryPhase : Obligations.ReservedOpcodeIsRefusedInEveryPhase :=
  fun s cw rest hhost hop => by
    have hdec : decodeCommand cw = .error (.reservedOpcode (opcodeOf cw)) := decodeCommand_of_reserved hop
    exact ⟨hdec, (step_of_host_cons hhost).trans (issue_of_decodeCommand_error hdec _)⟩

/-! ## The header (R80, R88) -/

/-- R9: `h[off..off+n)` as a list. -/
theorem toList_field (h : Vector Byte 78) {off n : Nat} (hn : off + n ≤ 78) :
    (field h off n).toList = (h.toList.drop off).take n := by
  refine List.ext_getElem (by simp; omega) fun i h₁ h₂ => ?_
  simp at h₁
  simp [field, show off + i < 78 by omega]

/-- R88: the length field is the last, the four bytes that end the generated header. -/
theorem toList_field_length {cart : Vector Byte 3} {crc : Vector Byte 8} {n : Word} {h : Vector Byte 78}
    (hh : h.toList = hdrBytes cart crc n) : (field h 0x4A 4).toList = bytesLe32 n := by
  rw [toList_field h (by decide), hh, hdrBytes, List.drop_left' (by simp [Config.magic])]
  rfl

/-- Settles O15: the generated bytes are the fields one after the other, each as long as the parser takes it, so that
the parser, which drops what stands before a field's offset and takes the field's length, cuts exactly between the parts. -/
theorem headerFieldsStandAtTheirOffsets : Obligations.HeaderFieldsStandAtTheirOffsets := by
  intro cart crc n h hh
  have hcut : ∀ off len, off + len ≤ 78 → (field h off len).toList = ((hdrBytes cart crc n).drop off).take len :=
    fun off len hle => hh ▸ toList_field h hle
  have hlength : (hdrParse h).length = n := by
    rw [hdrParse, toList_field_length hh]
    exact le32_bytesLe32 n []
  refine ⟨Vector.toList_inj.1 ?_, Vector.toList_inj.1 ?_, ?_, Vector.toList_inj.1 ?_, Vector.toList_inj.1 ?_,
    Vector.toList_inj.1 ?_, hlength⟩ <;>
    simp [hdrParse, hcut, hh, hdrBytes, List.drop_append, List.take_append, Config.magic, Config.descPad, Config.typeImage]

end Sys2Proof.Machine
end

section
/-! The header written and read back (R110 to R115): what each command of 40_header.md, `EFIN` and `CRCCHK` answer where
nothing stops them, what a space holds and what the parser reads after the header went into it; and the statements of
40_header.md. -/

namespace Sys2Proof.Machine

/-! ## The environment's next answer (R57) -/

theorem State.ioFails_of_env {s : State} {b : Bool} {rest : List Bool} (h : s.env = b :: rest) : s.ioFails = b := by
  rw [State.ioFails, h, List.headD_cons]

theorem State.asked_of_env {s : State} {b : Bool} {rest : List Bool} (h : s.env = b :: rest) :
    s.asked = { s with env := rest } := by
  rw [State.asked, h, List.tail_cons]

theorem State.ioFails_asked_of_env {s : State} {a b : Bool} {rest : List Bool} (h : s.env = a :: b :: rest) :
    s.asked.ioFails = b :=
  State.ioFails_of_env (rest := rest) (by rw [State.asked_env, h, List.tail_cons])

/-! ## The header in a space (R80, R88) -/

/-- R111: `PAT` as `HGEN n` leaves it, with the two fields of the image. `exec_hgen_ok` ties it to the command. -/
def headerPatch (img : Memory) (n : Word) : Memory :=
  Memory.empty.putEnd 0 (hdrBytes (img.read 0x3C 3) (img.read 0x10 8) n)

theorem len_headerPatch (img : Memory) (n : Word) : (headerPatch img n).len = 78 := by
  have hne : hdrBytes (img.read 0x3C 3) (img.read 0x10 8) n ≠ [] := List.ne_nil_of_length_eq_add_one (length_hdrBytes _ _ n)
  rw [headerPatch, Memory.len_putEnd _ _ hne, length_hdrBytes]

theorem slice_headerPatch (img : Memory) (n : Word) :
    (headerPatch img n).slice 0 78 = hdrBytes (img.read 0x3C 3) (img.read 0x10 8) n := by
  simpa [headerPatch] using Memory.empty.slice_putEnd 0 (hdrBytes (img.read 0x3C 3) (img.read 0x10 8) n)

/-- R9: a field of the bytes read from the front of a space is the space's own range. -/
theorem field_read (m : Memory) {off len : Nat} (h : off + len ≤ 78) : field (m.read 0 78) off len = m.read off len := by
  refine Vector.ext fun i hi => ?_
  simp [field, show off + i < 78 by omega]

/-- R88, R113: the parser reads each field where R80's table puts it in the space. -/
theorem hdrParse_read (m : Memory) :
    hdrParse (m.read 0 78) =
      { magic := m.read 0x00 7, desc := m.read 0x07 50, type := m.get 0x39, cart := m.read 0x3A 3
        crc := m.read 0x3D 8, rsvd := m.read 0x45 5, length := le32 (m.slice 0x4A 0x4E) } := by
  simp [hdrParse, field_read, Memory.toList_read, Memory.getElem_slice]

/-- R115: the fields that the parser reads back from the written header. -/
theorem hdrParse_headerPatch (img : Memory) (n : Word) :
    hdrParse ((headerPatch img n).read 0 78) =
      { magic := #v[0x41, 0x50, 0x53, 0x31, 0x30, 0x01, 0x00], desc := Vector.replicate 50 0x20, type := 0x01
        cart := img.read 0x3C 3, crc := img.read 0x10 8, rsvd := Vector.replicate 5 0x00, length := n } := by
  have hbytes : ((headerPatch img n).read 0 78).toList = hdrBytes (img.read 0x3C 3) (img.read 0x10 8) n :=
    (Memory.toList_read _ 0 78).trans (slice_headerPatch img n)
  obtain ⟨hmagic, hdesc, htype, hcart, hcrc, hrsvd, hlength⟩ := headerFieldsStandAtTheirOffsets _ _ n _ hbytes
  generalize hdrParse _ = f at hmagic hdesc htype hcart hcrc hrsvd hlength ⊢
  cases f
  exact (Header.mk.injEq ..).mpr ⟨hmagic, hdesc, htype, hcart, hcrc, hrsvd, hlength⟩

/-- R115: the bytes that `CRCCHK` reads of the written header are the image's. -/
theorem read_crc_headerPatch (img : Memory) (n : Word) : (headerPatch img n).read 0x3D 8 = img.read 0x10 8 :=
  congrArg Header.crc ((hdrParse_read _).symm.trans (hdrParse_headerPatch img n))

/-! ## `HGEN` forwards (R111) -/

theorem exec_hgen_of_idle {s : State} (hp : s.phase = .idle) (n : Word) :
    exec (.hgen n) s =
      andThen (memRead .img 0x3C 3 s) fun cart s =>
      andThen (memRead .img 0x10 8 s) fun crc s =>
      andThen (writePat 0 (hdrBytes cart crc n) { s with pat := Memory.empty }) fun _ s =>
      finish { s with pcur := 0x4E, phase := .enc } :=
  if_neg (not_not.2 hp)

/-- R111: both reads passed, `HGEN` writes the header. -/
theorem exec_hgen_of_reads {s : State} (hp : s.phase = .idle) (himg : 0x3F ≤ s.img.len) (hcart : s.ioFails = false)
    (hcrc : s.asked.ioFails = false) (n : Word) :
    exec (.hgen n) s =
      andThen (writePat 0 (hdrBytes (s.img.read 0x3C 3) (s.img.read 0x10 8) n) { s.asked.asked with pat := Memory.empty })
        fun _ s' => finish { s' with pcur := 0x4E, phase := .enc } := by
  have hlen : 0x10 + 8 ≤ (s.asked.space .img).len := le_trans (by decide) himg
  rw [exec_hgen_of_idle hp, memRead_ok (by decide) himg hcart, andThen_ok, memRead_ok (by decide) hlen hcrc, andThen_ok,
    State.asked_space, State.space_img]

/-- R111: with an image that holds both fields and no access failed, `HGEN` opens the encoder on the header. -/
theorem exec_hgen_ok {s : State} (hp : s.phase = .idle) (himg : 0x3F ≤ s.img.len) (hio : s.passes 3) (n : Word) :
    exec (.hgen n) s = .next (State.returns { s.asked.asked.asked with
      pat := headerPatch s.img n, pcur := 0x4E, phase := .enc } .ok) := by
  obtain ⟨hcart, hio⟩ := State.passes_succ hio
  obtain ⟨hcrc, hio⟩ := State.passes_succ hio
  obtain ⟨hwrite, -⟩ := State.passes_succ hio
  rw [exec_hgen_of_reads hp himg hcart hcrc, writePat_ok (s := { s.asked.asked with pat := Memory.empty }) _ _ hwrite,
    andThen_ok, finish_next]
  simp only [State.asked, headerPatch]

/-- Settles O16: the good end of `HGEN`, whose `PAT` is an emptied space with the header put into it. -/
theorem hgenWritesTheHeader : Obligations.HgenWritesTheHeader := by
  refine fun s n hp himg hio => ⟨headerPatch s.img n, ?_, len_headerPatch s.img n, slice_headerPatch s.img n⟩
  rw [exec_hgen_ok hp himg hio, State.asked_asked_asked_env_drop]
  rfl

/-- Settles O17: the three accesses in their order, each one failing after those before it have passed. -/
theorem hgenRaisesIoError : Obligations.HgenRaisesIoError := by
  refine fun s n hp => ⟨fun hlen => ?_, fun himg rest henv => ?_, fun himg rest henv => ?_, fun himg rest henv => ?_⟩
  · rw [exec_hgen_of_idle hp, memRead_pastEnd (by decide) hlen, andThen_error, pastEnd]
  · rw [exec_hgen_of_idle hp, memRead_fails (by decide) himg (State.ioFails_of_env henv), andThen_error,
      State.asked_of_env henv]
  · have hlen : 0x10 + 8 ≤ (s.asked.space .img).len := le_trans (by decide) himg
    rw [exec_hgen_of_idle hp, memRead_ok (by decide) himg (State.ioFails_of_env henv), andThen_ok,
      memRead_fails (by decide) hlen (State.ioFails_asked_of_env henv), andThen_error, State.asked_of_env henv]
    rfl
  · have hasked : s.asked.asked = { s with env := true :: rest } := by rw [State.asked_of_env henv]; rfl
    refine ⟨Memory.empty.unspecifyFrom 0 s.draws, ?_⟩
    rw [exec_hgen_of_reads hp himg (State.ioFails_of_env henv) (State.ioFails_asked_of_env henv), hasked,
      writePat_fails _ _ rfl, andThen_error]
    rfl

/-! ## `HPARSE`, `EFIN` and `CRCCHK` forwards (R113, R136, R150) -/

theorem exec_hparse_of_idle {s : State} (hp : s.phase = .idle) :
    exec .hparse s =
      andThen (onRaise State.loseHeader (memRead .pat 0 78 s)) fun h s => finish (s.latch (hdrParse h)) :=
  if_neg (not_not.2 hp)

theorem exec_hparse_ok {s : State} (hp : s.phase = .idle) (hlen : 78 ≤ s.pat.len) (hio : s.ioFails = false) :
    exec .hparse s = .next ((s.asked.latch (hdrParse (s.pat.read 0 78))).returns .ok) := by
  rw [exec_hparse_of_idle hp, memRead_ok (by decide) (by simpa using hlen) hio, onRaise_ok, andThen_ok, finish_next,
    State.space_pat]

/-- Settles O18: `HPARSE` ends as its one read does; what it latches stands in `PAT` where R80's table says. -/
theorem hparseLatchesTheHeader : Obligations.HparseLatchesTheHeader := by
  refine fun s arg => ⟨?_, fun hp => if_pos hp, fun hp hlen hio => ?_, fun hp hlen => ?_, fun hp hlen rest henv => ?_⟩
  · obtain ⟨-, -, -, -, -, -, hhparse, -⟩ := operandBitsAreReadOrIgnored arg
    exact hhparse
  · rw [exec_hparse_ok hp hlen (State.passes_succ hio).1, hdrParse_read, State.asked_env_drop]
    rfl
  · rw [exec_hparse_of_idle hp, memRead_pastEnd (by decide) (by simpa using hlen), onRaise_error, andThen_error, pastEnd]
  · rw [exec_hparse_of_idle hp, memRead_fails (by decide) (by simpa using hlen) (State.ioFails_of_env henv), onRaise_error,
      andThen_error, State.asked_of_env henv]

theorem exec_efin_ok {s : State} (hp : s.phase = .enc) : exec .efin s = .next (State.returns { s with phase := .idle } .ok) :=
  if_neg (not_not.2 hp)

/-- R150: with both fields there, equal, and no access failed, `CRCCHK` passes. -/
theorem exec_crcchk_ok {s : State} (hp : s.phase = .idle) (hpat : 0x45 ≤ s.pat.len) (himg : 0x18 ≤ s.img.len)
    (hio : s.passes 2) (heq : s.pat.read 0x3D 8 = s.img.read 0x10 8) :
    exec .crcchk s = .next (State.returns { s.asked.asked with phase := .valid } .ok) := by
  obtain ⟨hpatRead, hio⟩ := State.passes_succ hio
  obtain ⟨himgRead, -⟩ := State.passes_succ hio
  refine (if_neg (not_not.2 hp)).trans ?_
  rw [memRead_ok (by decide) hpat hpatRead, andThen_ok, memRead_ok (by decide) himg himgRead, andThen_ok]
  exact if_pos ((crcEqual_iff _ _).2 heq)

/-! ## `HGEN` and `EFIN`, then `HPARSE` and `CRCCHK` (R115) -/

theorem runInstrs_hgen_efin {s : State} (hp : s.phase = .idle) (himg : 0x3F ≤ s.img.len) (hio : s.passes 3) (n : Word)
    (rest : List Instr) :
    runInstrs (.hgen n :: .efin :: rest) s = runInstrs rest (State.returns { s.asked.asked.asked with
      pat := headerPatch s.img n, pcur := 0x4E, phase := .idle } .ok) := by
  rw [runInstrs_cons_ok (exec_hgen_ok hp himg hio n) rfl, runInstrs_cons_ok (exec_efin_ok rfl) rfl]
  rfl

theorem runInstrs_hparse_crcchk {s : State} (hp : s.phase = .idle) (hpat : 78 ≤ s.pat.len) (himg : 0x18 ≤ s.img.len)
    (hio : s.passes 3) (heq : s.pat.read 0x3D 8 = s.img.read 0x10 8) {f : Header} (hf : hdrParse (s.pat.read 0 78) = f) :
    runInstrs [.hparse, .crcchk] s = .next (State.returns
      { ((s.asked.latch f).returns .ok).asked.asked with phase := .valid } .ok) := by
  obtain ⟨hread, hio⟩ := State.passes_succ hio
  have hcrcchk := exec_crcchk_ok (s := (s.asked.latch f).returns .ok) hp (le_trans (by decide) hpat) himg hio heq
  rw [runInstrs_cons_ok (exec_hparse_ok hp hpat hread) rfl, hf, runInstrs_cons_ok hcrcchk rfl, runInstrs]

/-- Settles O19: what `HPARSE` reads is the header `HGEN` wrote (R88), whose CRC field, the one `CRCCHK` reads, is the
image's. -/
theorem generatedHeaderParsesAndValidates : Obligations.GeneratedHeaderParsesAndValidates := by
  intro s n hp himg hio
  obtain ⟨-, hio₁⟩ := State.passes_succ hio
  obtain ⟨-, hio₂⟩ := State.passes_succ hio₁
  obtain ⟨-, hio₃⟩ := State.passes_succ hio₂
  have hrun := runInstrs_hparse_crcchk
    (s := State.returns { s.asked.asked.asked with pat := headerPatch s.img n, pcur := 0x4E, phase := .idle } .ok)
    rfl (len_headerPatch s.img n).ge (le_trans (by decide) himg) hio₃ (read_crc_headerPatch s.img n)
    (hdrParse_headerPatch s.img n)
  exact ⟨_, (runInstrs_hgen_efin hp himg (State.passes_mono hio (by decide)) n _).trans hrun, rfl, rfl, rfl, rfl, rfl,
    rfl, rfl, rfl, rfl⟩

end Sys2Proof.Machine
end

section
/-! The record encoder read forwards (R130 to R138): what each command of 41_record_encoder.md answers, the run that a
sequence of pushes leaves and the record it is framed as (R134), CREATE over the scan's runs (R197); and the statements of
41_record_encoder.md. -/

namespace Sys2Proof.Machine

/-! ## The commands forwards (R131 to R133) -/

theorem exec_rbegin_ok {s : State} (hp : s.phase = .enc) (off : Word) :
    exec (.rbegin off) s = .next (State.returns { s with
      recOff := off, runLen := 0, rleCand := true, phase := .run, buf := bufLoad [] s.draws, draws := s.draws + 1 } .ok) :=
  if_neg (not_not.2 hp)

theorem exec_rpush_refused {s : State} (h : s.phase ≠ .run ∨ s.runLen = 255) (b : Byte) :
    exec (.rpush b) s = .next (s.returns .refused) :=
  if_pos (h.imp_right s.full_iff.2)

theorem exec_rpush_ok {s : State} (hp : s.phase = .run) (hfull : s.runLen ≠ 255) (b : Byte) :
    exec (.rpush b) s = .next (State.returns { s with
      rleCand := pushedCand s b, buf := s.buf.setIfInBounds s.runLen.toNat b, runLen := s.runLen + 1 } .ok) :=
  if_neg (not_or.2 ⟨not_not.2 hp, mt s.full_iff.1 hfull⟩)

/-- R133: an open run that is not empty is closed by one append to `PAT`. -/
theorem exec_rflush_of_run {s : State} (hp : s.phase = .run) (hrun : s.runLen ≠ 0) :
    exec .rflush s = andThen (writePat s.pcur (recBytes s.runRecord) s) fun _ t =>
      finish { t with
        pcur := s.pcur + (recBytes s.runRecord).length, recKind := recordKind s.runRecord, phase := .enc } :=
  if_neg (not_or.2 ⟨not_not.2 hp, hrun⟩)

theorem exec_rflush_ok {s : State} (hp : s.phase = .run) (hrun : s.runLen ≠ 0) (hio : s.ioFails = false) :
    exec .rflush s = .next (State.returns { s.asked with
      pat := s.pat.putEnd s.pcur (recBytes s.runRecord), pcur := s.pcur + (recBytes s.runRecord).length
      recKind := recordKind s.runRecord, phase := .enc } .ok) := by
  rw [exec_rflush_of_run hp hrun, writePat_ok _ _ hio, andThen_ok, finish_next]

/-! ## The statements on single commands -/

/-- Settles O20: the run has no byte because `RUN_LEN` is 0, whatever `BUF` holds. -/
theorem rbeginOpensARun : Obligations.RbeginOpensARun := by
  refine fun s off => ⟨?_, fun hp => if_pos hp, fun hp => ⟨_, _, exec_rbegin_ok hp off, rfl, rfl, rfl⟩⟩
  obtain ⟨-, -, hrbegin, -⟩ := operandBitsAreReadOrIgnored off
  exact hrbegin

/-- Settles O21: the flag is `pushedCand`, and a push short of the 255th byte neither wraps `RUN_LEN` nor misses `BUF`. -/
theorem rpushAddsAByte : Obligations.RpushAddsAByte := by
  refine fun s arg b => ⟨?_, fun h => exec_rpush_refused h b, fun hp hfull =>
    ⟨_, _, _, exec_rpush_ok hp hfull b, rfl, runLen_succ hfull, ?_, ?_, fun j => ?_⟩⟩
  · obtain ⟨-, -, -, hrpush, -⟩ := operandBitsAreReadOrIgnored arg
    exact hrpush
  · rw [State.full, beq_iff_eq, State.returns_runLen, runLen_succ hfull]
    simp
  · rw [pushedCand_iff, or_iff_not_imp_left]
  · simp [Vector.getElem_setIfInBounds, eq_comm]

/-- Settles O22: the record is `runRecord`, and the write is an append because `PCUR` is the end of `PAT`. -/
theorem rflushAppendsTheRunsRecord : Obligations.RflushAppendsTheRunsRecord := by
  intro s r hp hrun hend hio hr
  obtain rfl : r = s.runRecord := hr
  refine ⟨s.pat.putEnd s.pcur (recBytes s.runRecord), ?_, ?_⟩
  · rw [exec_rflush_ok hp hrun (State.passes_succ hio).1, State.asked_env_drop]
    rfl
  · rw [← hend]
    exact wroteAt_putEnd s.pat (recBytes_ne_nil _)

/-- Settles O23: the failed append makes `PAT` unspecified from `PCUR` on, and the raise keeps the registers. -/
theorem rflushRefusesOrRaises : Obligations.RflushRefusesOrRaises := by
  refine fun s => ⟨fun h => if_pos h, fun hp hrun hend rest henv =>
    ⟨s.pat.unspecifyFrom s.pcur s.draws, ?_, fun p hp => byte?_unspecifyFrom _ _ _ hp (hend ▸ hp)⟩⟩
  rw [exec_rflush_of_run hp hrun, writePat_fails _ _ (State.ioFails_of_env henv), andThen_error, State.asked_of_env henv]

/-- Settles O24: `EFIN` has these two ends. -/
theorem efinEndsThePatch : Obligations.EfinEndsThePatch := by
  refine fun s arg => ⟨?_, fun hp => if_pos hp, exec_efin_ok⟩
  obtain ⟨-, -, -, -, -, hefin, -⟩ := operandBitsAreReadOrIgnored arg
  exact hefin

/-! ## A run pushed byte by byte (R134, R137) -/

/-- The state that `RBEGIN off` and a push of each byte of `run` leave of `s`. `exec_rbegin_eq_withRun` and
`exec_rpush_withRun` tie it to the commands. -/
def State.withRun (s : State) (off : Word) (run : List Byte) : State :=
  State.returns { s with
    recOff := off, runLen := BitVec.ofNat 8 run.length, rleCand := decide (∀ b ∈ run, b = run.headD 0), phase := .run
    buf := bufLoad run s.draws, draws := s.draws + 1 } .ok

theorem exec_rbegin_eq_withRun {s : State} (hp : s.phase = .enc) (off : Word) :
    exec (.rbegin off) s = .next (s.withRun off []) :=
  exec_rbegin_ok hp off

section
variable (s : State) (off : Word) {run : List Byte}

theorem State.withRun_runLen_toNat (h : run.length ≤ 255) : (s.withRun off run).runLen.toNat = run.length :=
  Nat.mod_eq_of_lt (Nat.lt_succ_of_le h)

theorem State.withRun_runLen_ne_zero (h₁ : 1 ≤ run.length) (h₂ : run.length ≤ 255) : (s.withRun off run).runLen ≠ 0 :=
  fun h₀ => by
    have hlen := s.withRun_runLen_toNat off h₂
    simp [h₀] at hlen
    omega

theorem State.withRun_runLen_ne_full (h : run.length < 255) : (s.withRun off run).runLen ≠ 255 := fun h₀ => by
  have hlen := s.withRun_runLen_toNat off h.le
  simp [h₀] at hlen
  omega

theorem State.withRun_runBytes (h : run.length ≤ 255) : (s.withRun off run).runBytes = run := by
  rw [State.runBytes, s.withRun_runLen_toNat off h]
  exact take_bufLoad s.draws h

theorem State.withRun_buf_first (h : 1 ≤ run.length) : (s.withRun off run).buf[0] = run.headD 0 := by
  cases run with
  | nil => simp at h
  | cons b run => simp [State.withRun, bufLoad]

theorem State.withRun_rleCand (run : List Byte) : (s.withRun off run).rleCand = true ↔ ∀ b ∈ run, b = run.headD 0 :=
  decide_eq_true_iff

/-- R133, R134: the record that `RFLUSH` makes of the registers is the one the rule frames of the bytes. -/
theorem State.withRun_runRecord (h₁ : 1 ≤ run.length) (h₂ : run.length ≤ 255) :
    (s.withRun off run).runRecord = frame off run := by
  simp only [State.runRecord, frame, s.withRun_rleCand off run, s.withRun_runLen_toNat off h₂, s.withRun_runBytes off h₂,
    s.withRun_buf_first off h₁, and_comm]
  rfl

/-- R132: the flag after a push is the flag of the longer run; of a run of one byte it is 1. -/
theorem State.withRun_pushedCand (h : run.length ≤ 255) (b : Byte) :
    pushedCand (s.withRun off run) b = (s.withRun off (run ++ [b])).rleCand := by
  rw [Bool.eq_iff_iff, pushedCand_iff, s.withRun_rleCand off run, s.withRun_rleCand off (run ++ [b])]
  cases run with
  | nil => simp [State.withRun]
  | cons a run =>
    have hpos : 1 ≤ (a :: run).length := Nat.succ_pos _
    rw [imp_iff_right (s.withRun_runLen_ne_zero off hpos h), s.withRun_buf_first off hpos]
    simp [or_imp, forall_and]

end

/-- R26: a byte written right after those of the run. -/
theorem bufLoad_concat (run : List Byte) (b : Byte) (draw : Nat) :
    bufLoad (run ++ [b]) draw = (bufLoad run draw).setIfInBounds run.length b := by
  refine Vector.ext fun i hi => ?_
  rw [Vector.getElem_setIfInBounds]
  simp only [bufLoad, Vector.getElem_ofFn]
  rcases lt_trichotomy i run.length with h | rfl | h
  · simp [List.getElem?_append_left h, h.ne']
  · simp
  · simp [List.getElem?_eq_none, h.le, h.ne, Nat.succ_le_of_lt h]

/-- R132: a push takes the state of a run to that of the run with the byte. -/
theorem exec_rpush_withRun (s : State) (off : Word) {run : List Byte} (h : run.length < 255) (b : Byte) :
    exec (.rpush b) (s.withRun off run) = .next (s.withRun off (run ++ [b])) := by
  rw [exec_rpush_ok rfl (s.withRun_runLen_ne_full off h), s.withRun_pushedCand off h.le, s.withRun_runLen_toNat off h.le]
  simp only [State.withRun, bufLoad_concat, List.length_append, List.length_singleton, BitVec.ofNat_add]
  rfl

/-- R137: a whole run of pushes, by induction on the bytes still to push. -/
theorem runInstrs_rpush_withRun (s : State) (off : Word) {run bs : List Byte} (h : run.length + bs.length ≤ 255)
    (rest : List Instr) :
    runInstrs (bs.map .rpush ++ rest) (s.withRun off run) = runInstrs rest (s.withRun off (run ++ bs)) := by
  induction bs generalizing run with
  | nil => simp
  | cons b bs ih =>
    rw [List.length_cons] at h
    rw [List.map_cons, List.cons_append, runInstrs_cons_ok (exec_rpush_withRun s off (by omega) b) rfl,
      ih (by rw [List.length_append, List.length_singleton]; omega), List.append_assoc, List.singleton_append]

/-- R134, R137: `RENC` of 1 to 255 bytes appends the record they are framed as, whatever comes after it. -/
theorem runInstrs_renc {s : State} (hp : s.phase = .enc) (hio : s.ioFails = false) (off : Word) {run : List Byte}
    (h₁ : 1 ≤ run.length) (h₂ : run.length ≤ 255) (rest : List Instr) :
    runInstrs (renc off run ++ rest) s = runInstrs rest (State.returns { (s.withRun off run).asked with
      pat := s.pat.putEnd s.pcur (recBytes (frame off run)), pcur := s.pcur + (recBytes (frame off run)).length
      recKind := recordKind (frame off run), phase := .enc } .ok) := by
  have hflush := exec_rflush_ok (s := s.withRun off run) rfl (s.withRun_runLen_ne_zero off h₁ h₂) hio
  rw [s.withRun_runRecord off h₁ h₂] at hflush
  rw [renc, List.cons_append, runInstrs_cons_ok (exec_rbegin_eq_withRun hp off) rfl, List.append_assoc,
    runInstrs_rpush_withRun s off (by simpa using h₂), List.nil_append, List.singleton_append,
    runInstrs_cons_ok hflush rfl]
  rfl

/-- Settles O25: the registers before `RBEGIN` do not occur in the state that `RFLUSH` leaves. -/
theorem rencAppendsTheFramedRecord : Obligations.RencAppendsTheFramedRecord := by
  intro s off run h₁ h₂ hp hend hio
  have hrun := runInstrs_renc hp (State.passes_succ hio).1 off h₁ h₂ []
  rw [List.append_nil, ← hend] at hrun
  exact ⟨_, hrun, rfl, rfl, by rw [← hend]; rfl, by rw [← hend]; exact wroteAt_putEnd s.pat (recBytes_ne_nil _), rfl,
    s.withRun_runBytes off h₂, rfl, rfl, rfl, ⟨rfl, rfl, rfl, rfl, rfl, rfl, rfl⟩, ⟨rfl, rfl, rfl, rfl, rfl⟩, rfl⟩

/-! ## One `RENC` after another (R134, R197) -/

/-- R36: the encoder is open with `PCUR` at the end of `PAT`, and no access to come fails. -/
structure State.Encoding (s : State) : Prop where
  phase : s.phase = .enc
  len : s.pat.len = s.pcur
  passes : s.alwaysPasses

/-- The state `t` is `s` with `bs` appended to `PAT` and the other spaces as before. -/
structure Appended (s t : State) (bs : List Byte) : Prop where
  pat : t.pat.toList = s.pat.toList ++ bs
  img : t.img = s.img
  dst : t.dst = s.dst

theorem Appended.refl (s : State) : Appended s s [] := ⟨(List.append_nil _).symm, rfl, rfl⟩

theorem Appended.trans {s t u : State} {bs cs : List Byte} (h : Appended s t bs) (k : Appended t u cs) :
    Appended s u (bs ++ cs) :=
  ⟨by rw [k.pat, h.pat, List.append_assoc], k.img.trans h.img, k.dst.trans h.dst⟩

theorem State.alwaysPasses.ioFails {s : State} (h : s.alwaysPasses) : s.ioFails = false :=
  (State.passes_succ (s.passes_of_always h 1)).1

/-- R134: a `RENC` leaves the encoder open for the next. -/
theorem runInstrs_renc_appended {s : State} (hs : s.Encoding) (off : Word) {run : List Byte} (h₁ : 1 ≤ run.length)
    (h₂ : run.length ≤ 255) (rest : List Instr) :
    ∃ t, runInstrs (renc off run ++ rest) s = runInstrs rest t ∧ t.Encoding
      ∧ Appended s t (recBytes (frame off run)) := by
  have hne := recBytes_ne_nil (frame off run)
  refine ⟨_, runInstrs_renc hs.phase hs.passes.ioFails off h₁ h₂ rest,
    ⟨rfl, Memory.len_putEnd _ _ hne, State.alwaysPasses_asked hs.passes⟩, ?_, rfl, rfl⟩
  rw [← hs.len]
  exact toList_of_wroteAt (wroteAt_putEnd s.pat hne)

/-- R134, R201: runs of 1 to 255 bytes, one `RENC` after another, append the records they are framed as. -/
theorem runInstrs_rencs_appended {rs : List (Nat × List Byte)} (hrs : ∀ r ∈ rs, 1 ≤ r.2.length ∧ r.2.length ≤ 255)
    {s : State} (hs : s.Encoding) (rest : List Instr) :
    ∃ t, runInstrs ((rs.flatMap fun r => renc (BitVec.ofNat 32 r.1) r.2) ++ rest) s = runInstrs rest t ∧ t.Encoding
      ∧ Appended s t (bodyBytes (rs.map fun r => frame (BitVec.ofNat 32 r.1) r.2)) := by
  induction rs generalizing s with
  | nil => exact ⟨s, rfl, hs, .refl s⟩
  | cons r rs ih =>
    obtain ⟨⟨h₁, h₂⟩, hrs⟩ := List.forall_mem_cons.1 hrs
    obtain ⟨t, hrun, ht, happ⟩ := runInstrs_renc_appended hs (BitVec.ofNat 32 r.1) h₁ h₂
      ((rs.flatMap fun r => renc (BitVec.ofNat 32 r.1) r.2) ++ rest)
    obtain ⟨u, hrun', hu, happ'⟩ := ih hrs ht
    refine ⟨u, ?_, hu, happ.trans happ'⟩
    rw [List.flatMap_cons, List.append_assoc, hrun, hrun']

/-! ## The scan's runs (R192, R193) -/

/-- R193: a run is no longer than the room it is given. -/
theorem length_diffRun_le (o : List Byte) (room i : Nat) (m : List Byte) : (diffRun o room i m).length ≤ room := by
  induction room, i, m using diffRun.induct o with
  | case1 | case2 | case3 => simp [diffRun, *]
  | case4 room i b m h ih => simpa [diffRun, h] using ih

/-- R192, R193: a run of the scan starts at a difference, so that it has a byte, and has room for 255. -/
theorem length_run_of_mem_scanFrom {o : List Byte} {fuel i : Nat} {m : List Byte} {r : Nat × List Byte}
    (h : r ∈ scanFrom o fuel i m) : 1 ≤ r.2.length ∧ r.2.length ≤ 255 := by
  induction fuel, i, m using scanFrom.induct o with
  | case1 | case2 => simp [scanFrom] at h
  | case3 fuel i m ih => exact ih (by simpa [scanFrom] using h)
  | case4 fuel i b m hne ih =>
    rw [scanFrom, if_neg hne] at h
    rcases List.mem_cons.1 h with rfl | h
    · exact ⟨by simp [diffRun, hne], length_diffRun_le o 255 i (b :: m)⟩
    · exact ih h

/-! ## From `HGEN` to `EFIN` (R197) -/

/-- R111: `HGEN` leaves the encoder open on a patch that is the header. -/
theorem exec_hgen_encoding {s : State} (hp : s.phase = .idle) (himg : 0x3F ≤ s.img.len) (hio : s.alwaysPasses) (n : Word) :
    ∃ t, exec (.hgen n) s = .next t ∧ t.outcome = some .ok ∧ t.Encoding ∧ t.img = s.img ∧ t.dst = s.dst
      ∧ t.pat.toList = hdrBytes (s.img.read 0x3C 3) (s.img.read 0x10 8) n := by
  refine ⟨_, exec_hgen_ok hp himg (s.passes_of_always hio 3) n, rfl, ⟨rfl, len_headerPatch s.img n, ?_⟩, rfl, rfl, ?_⟩
  · exact State.alwaysPasses_asked (State.alwaysPasses_asked (State.alwaysPasses_asked hio))
  · exact (congrArg ((headerPatch s.img n).slice 0) (len_headerPatch s.img n)).trans (slice_headerPatch s.img n)

/-- Settles O51: the header, then one `RENC` for each run of the scan, then `EFIN`, which appends nothing. -/
theorem createWritesHeaderAndScannedRecords : Obligations.CreateWritesHeaderAndScannedRecords := by
  intro o m s ho _ hp himg hio
  have hlen : 0x3F ≤ s.img.len := by rwa [himg, Memory.len_ofBytes]
  obtain ⟨t, hhgen, hok, ht, himg', hdst, hpat⟩ := exec_hgen_encoding hp hlen hio (BitVec.ofNat 32 m.length)
  obtain ⟨u, hrun, hu, happ⟩ := runInstrs_rencs_appended (rs := scanRuns o m)
    (fun _ hr => length_run_of_mem_scanFrom hr) ht [.efin]
  refine ⟨State.returns { u with phase := .idle } .ok, ?_, rfl, rfl, happ.img.trans himg', happ.dst.trans hdst, ?_⟩
  · rw [createInstrs, runInstrs_cons_ok hhgen hok, hrun, runInstrs_cons_ok (exec_efin_ok hu.phase) rfl, runInstrs]
  · exact happ.pat.trans (by rw [hpat, scanRecords])

end Sys2Proof.Machine
end

section
/-! The validator (R150 to R153): what `CRCCHK` answers on each path, the step into `VALID` as the only way to a change of
`DST`; and the statements of 42_crc_validator.md. -/

namespace Sys2Proof.Machine

/-! ## The comparison (R151) -/

/-- Settles O27: `crcEqual` is equality of the two values, and two vectors are equal when their bytes are. -/
theorem crcEqualComparesEveryByte : Obligations.CrcEqualComparesEveryByte := fun p g =>
  (crcEqual_iff p g).trans ⟨fun h i => by rw [h], fun h => Vector.ext fun i hi => h ⟨i, hi⟩⟩

theorem Memory.read_eq_iff {m m' : Memory} {a b n : Nat} :
    m.read a n = m'.read b n ↔ ∀ i, i < n → m.get (a + i) = m'.get (b + i) := by
  simp [Vector.ext_iff]

/-! ## `CRCCHK` forwards (R150) -/

theorem exec_crcchk_of_idle {s : State} (hp : s.phase = .idle) :
    exec .crcchk s = andThen (memRead .pat 0x3D 8 s) fun p t => andThen (memRead .img 0x10 8 t) fun g u =>
      if crcEqual p g then finish { u with phase := .valid } else raiseExc (.validation p g) u :=
  if_neg (not_not.2 hp)

/-- With the patch's CRC read, `CRCCHK` goes on to the image's. -/
theorem exec_crcchk_of_patRead {s : State} (hp : s.phase = .idle) (hpat : 0x45 ≤ s.pat.len) (hio : s.ioFails = false) :
    exec .crcchk s = andThen (memRead .img 0x10 8 s.asked) fun g t =>
      if crcEqual (s.pat.read 0x3D 8) g then finish { t with phase := .valid }
      else raiseExc (.validation (s.pat.read 0x3D 8) g) t := by
  rw [exec_crcchk_of_idle hp, memRead_ok (by decide) hpat hio, andThen_ok, State.space_pat]

/-- R150, R152: with both CRCs read and different, `CRCCHK` reports the two. -/
theorem exec_crcchk_mismatch {s : State} (hp : s.phase = .idle) (hpat : 0x45 ≤ s.pat.len) (himg : 0x18 ≤ s.img.len)
    (hio : s.passes 2) (hne : s.pat.read 0x3D 8 ≠ s.img.read 0x10 8) :
    exec .crcchk s = .next (s.asked.asked.raise (.validation (s.pat.read 0x3D 8) (s.img.read 0x10 8))) := by
  obtain ⟨hpatRead, hio⟩ := State.passes_succ hio
  obtain ⟨himgRead, -⟩ := State.passes_succ hio
  rw [exec_crcchk_of_patRead hp hpat hpatRead, memRead_ok (by decide) himg himgRead, andThen_ok]
  exact if_neg (mt (crcEqual_iff _ _).1 hne)

/-- Settles O26: `CRCCHK` ends at the first of its two reads that raises, else as the comparison says. -/
theorem crcchkComparesPatchAndImage : Obligations.CrcchkComparesPatchAndImage := by
  refine fun s arg => ⟨?_, fun hp => if_pos hp, fun hp hpat => ?_, fun hp hpat rest henv => ?_, fun hp hpat hio himg => ?_,
    fun hp hpat himg rest henv => ?_, fun hp hpat himg hio heq => ?_, fun hp hpat himg hio hne => ?_⟩
  · obtain ⟨-, -, -, -, -, -, -, -, hcrcchk, -⟩ := operandBitsAreReadOrIgnored arg
    exact hcrcchk
  · rw [exec_crcchk_of_idle hp, memRead_pastEnd (by decide) hpat, andThen_error, pastEnd]
  · rw [exec_crcchk_of_idle hp, memRead_fails (by decide) hpat (State.ioFails_of_env henv), andThen_error,
      State.asked_of_env henv]
  · rw [exec_crcchk_of_patRead hp hpat (State.passes_succ hio).1, memRead_pastEnd (by decide) himg, andThen_error, pastEnd,
      State.asked_env_drop]
  · rw [exec_crcchk_of_patRead hp hpat (State.ioFails_of_env henv),
      memRead_fails (by decide) himg (State.ioFails_asked_of_env henv), andThen_error,
      State.asked_of_env (rest := rest) (by rw [State.asked_env, henv, List.tail_cons]), State.asked_of_env henv]
  · rw [exec_crcchk_ok hp hpat himg hio (Memory.read_eq_iff.2 heq), State.asked_asked_env_drop]
    rfl
  · have hdiff : s.pat.read 0x3D 8 ≠ s.img.read 0x10 8 := fun h =>
      let ⟨i, hi, hget⟩ := hne
      hget (Memory.read_eq_iff.1 h i hi)
    rw [exec_crcchk_mismatch hp hpat himg hio hdiff, State.asked_asked_env_drop]

/-! ## The validation gate (R153) -/

/-- R21: the two phases, behind the gate, that only a passed `CRCCHK` leads to (`passesCheck_of_step`). -/
def State.Validated (s : State) : Prop := s.phase = .valid ∨ s.phase = .dec

/-- R150: `s` moves to `t` as by a `CRCCHK` that found the two CRCs equal. -/
def PassesCheck (s t : State) : Prop :=
  s.phase = .idle ∧ t.phase = .valid ∧ crcEqual (s.pat.read 0x3D 8) (s.img.read 0x10 8) = true

/-- R21: among the ends of an instruction, a passed `CRCCHK` alone leads through the gate. -/
theorem passesCheck_of_exec {i : Instr} {s t : State} (h : exec i s = .next t) (hs : ¬s.Validated) (ht : t.Validated) :
    PassesCheck s t := by
  cases exec_ends h with
  | crcMatched _ hp _ _ hcrc => exact ⟨hp, rfl, hcrc⟩
  | imageCopied _ _ hp => exact absurd (.inl hp) hs
  | recordApplied _ hp => exact absurd (.inr hp) hs
  | refused | record | bytePushed | headerLatched | named => exact absurd ht hs
  | raised | latchesLost | nameLost | recordNotWritten => simp [State.Validated] at ht
  | reset | headerWritten | runOpened | runFlushed | patchEnded | patchApplied => simp [State.Validated] at ht

theorem passesCheck_of_step {s t : State} (h : step s = .next t) (hs : ¬s.Validated) (ht : t.Validated) : PassesCheck s t := by
  rcases step_cases h with ⟨-, rfl⟩ | ⟨_, _, -, -, -, he⟩ | ⟨_, _, -, -, rfl⟩ | ⟨-, rfl⟩ | ⟨sp, _, -, -, rfl⟩
  · exact absurd ht hs
  · exact passesCheck_of_exec (s := s.tookMove) he hs ht
  · exact absurd ht hs
  · simp [State.Validated] at ht
  · exact absurd (by cases sp <;> exact ht) hs

theorem validated_of_exec_dst_ne {i : Instr} {s t : State} (hi : i.isCommand = true) (h : exec i s = .next t)
    (hne : t.dst ≠ s.dst) : s.Validated := by
  obtain ⟨-, -, hdst⟩ := spacesChangeOnlyByTheirCommands i s t h
  rcases hdst hne with rfl | rfl | ⟨_, _, rfl⟩ | ⟨_, _, _, rfl⟩
  · rcases execDcopy_cases h with ⟨-, rfl⟩ | ⟨hp, -⟩
    · exact absurd rfl hne
    · exact .inl hp
  · rcases execRdec_cases h with ⟨-, rfl⟩ | ⟨hp, -⟩
    · exact absurd rfl hne
    · exact .inr hp
  · exact nomatch hi
  · exact nomatch hi

/-- R161, R162, R242: `DCOPY` writes `DST` in `VALID`, `RDEC` in `DEC`, and the host binds it in `VALID`. -/
theorem validated_of_step_dst_ne {s t : State} (h : step s = .next t) (hne : t.dst ≠ s.dst) : s.Validated := by
  rcases step_cases h with ⟨-, rfl⟩ | ⟨_, _, -, -, hi, he⟩ | ⟨_, _, -, -, rfl⟩ | ⟨-, rfl⟩ | ⟨sp, _, -, hb, rfl⟩
  · exact absurd rfl hne
  · exact validated_of_exec_dst_ne (s := s.tookMove) hi he hne
  · exact absurd rfl hne
  · exact absurd rfl hne
  · rcases hostMayBind_iff.1 hb with ⟨hsp, -⟩ | ⟨-, hp⟩
    · cases sp with
      | img | pat => exact absurd rfl hne
      | dst => exact absurd rfl hsp
    · exact .inl hp

/-- Some step of the run of `n` from `s` was a passed check, with the gate open in every state after it. -/
def PassedCheckWithin (n : Nat) (s : State) : Prop :=
  ∃ (j : Nat) (u v : State), j < n ∧ Sys2Proof.core.run j s = .next u ∧ step u = .next v ∧ PassesCheck u v
    ∧ ∀ (k : Nat) (w : State), j < k → k ≤ n → Sys2Proof.core.run k s = .next w → w.Validated

/-- A run that has the gate open at its end, but not at its start, has passed the check. The induction is on the last
step: it passes the check itself, or the gate was open before it. -/
theorem passedCheckWithin_of_validated {n : Nat} {s t : State} (hs : ¬s.Validated)
    (h : Sys2Proof.core.run n s = .next t) (ht : t.Validated) : PassedCheckWithin n s := by
  induction n generalizing t with
  | zero =>
    cases h
    exact absurd ht hs
  | succ n ih =>
    have hlast : ∀ w, Sys2Proof.core.run (n + 1) s = .next w → w.Validated := fun w hw => by
      cases h.symm.trans hw
      exact ht
    obtain ⟨u, hrun, hstep⟩ := run_last h
    by_cases hu : u.Validated
    · obtain ⟨j, a, b, hj, hrunj, hstepj, hcheck, hopen⟩ := ih hrun hu
      refine ⟨j, a, b, by omega, hrunj, hstepj, hcheck, fun k w hjk hkn hw => ?_⟩
      rcases Nat.le_succ_iff.1 hkn with hk | rfl
      · exact hopen k w hjk hk hw
      · exact hlast w hw
    · refine ⟨n, u, t, Nat.lt_succ_self n, hrun, hstep, passesCheck_of_step hstep hu ht, fun k w hjk hkn hw => ?_⟩
      obtain rfl : k = n + 1 := by omega
      exact hlast w hw

/-- Settles O49: a step that changes `DST` starts with the gate open, and only a passed check opens it. -/
theorem dstChangesOnlyAfterAPassedCheck : Obligations.DstChangesOnlyAfterAPassedCheck := by
  intro n s t t' hvalid hdec hrun hstep hne
  obtain ⟨j, u, v, hj, hrunj, hstepj, ⟨hidle, hv, hcrc⟩, hopen⟩ :=
    passedCheckWithin_of_validated (not_or.2 ⟨hvalid, hdec⟩) hrun (validated_of_step_dst_ne hstep hne)
  exact ⟨j, u, v, hj, hrunj, hstepj, hidle, hv, hcrc, hopen⟩

end Sys2Proof.Machine
end

section
/-! The record decoder read forwards (R160 to R165): what a record performed and each command of 43_record_decoder.md
answer on each path; and the statements on single commands and records. -/

namespace Sys2Proof.Machine

/-! ## A record performed (R163, R164, R170) -/

theorem exec_toInstr (r : Record) (s : State) : exec r.toInstr s = performRecord r s := by cases r <;> rfl

theorem apply1_eq_put (d : Memory) (r : Record) : apply1 d r = d.put r.offset.toNat r.toBytes := by cases r <;> rfl

/-- R163: a well-formed literal record has bytes. -/
theorem toBytes_literal_ne_nil {off : Word} {bs : List Byte} (hr : (Record.literal off bs).wf = true) :
    (Record.literal off bs).toBytes ≠ [] :=
  List.length_pos_iff.1 ((Record.wf_literal off bs).1 hr).1

/-- R164: a run-length record has no byte exactly when its count is 0. -/
theorem toBytes_runLength_eq_nil_iff (off : Word) (f n : Byte) : (Record.runLength off f n).toBytes = [] ↔ n = 0 :=
  (List.replicate_eq_nil_iff f).trans (BitVec.toNat_inj (y := 0))

/-- R163, R164: a well-formed record is one write of its bytes at its offset, or, if it has none, no access at all. -/
theorem performRecord_eq {r : Record} (hr : r.wf = true) (s : State) :
    performRecord r s = if r.toBytes = [] then finish s
      else andThen (writeDst r.offset.toNat r.toBytes s) fun _ t => finish t := by
  cases r with
  | literal off bs => exact (if_neg (toBytes_literal_ne_nil hr)).symm
  | runLength off f n =>
    exact ite_congr (propext (toBytes_runLength_eq_nil_iff off f n).symm) (fun _ => rfl) fun _ => rfl

section
variable {r : Record} {s : State} (hr : r.wf = true)
include hr

theorem performRecord_of_toBytes_nil (hnil : r.toBytes = []) : performRecord r s = .next (s.returns .ok) := by
  rw [performRecord_eq hr, if_pos hnil]
  rfl

theorem performRecord_ok (hne : r.toBytes ≠ []) (hio : s.ioFails = false) :
    performRecord r s = .next (State.returns { s.asked with dst := apply1 s.dst r } .ok) := by
  rw [performRecord_eq hr, if_neg hne, writeDst_ok _ _ hio, andThen_ok, apply1_eq_put]
  rfl

theorem performRecord_fails (hne : r.toBytes ≠ []) (hio : s.ioFails = true) :
    performRecord r s = .next (State.raise { s.asked with
      dst := s.dst.unspecify (min r.offset.toNat s.dst.len) (r.offset.toNat + r.toBytes.length) s.draws
      draws := s.draws + 1 } (.io .dst r.offset.toNat)) := by
  rw [performRecord_eq hr, if_neg hne, writeDst_fails _ _ hio, andThen_error]

/-- R170: with its access, if it needs one, not failed, a record performed is the record applied. -/
theorem performRecord_applies (hio : s.ioFails = false) :
    ∃ env, env <:+ s.env
      ∧ performRecord r s = .next (State.returns { s with env := env, dst := apply1 s.dst r } .ok) := by
  by_cases hnil : r.toBytes = []
  · exact ⟨s.env, List.suffix_rfl, by rw [performRecord_of_toBytes_nil hr hnil, apply1_eq_put, hnil, Memory.put_nil]⟩
  · exact ⟨s.env.tail, List.tail_suffix _, performRecord_ok hr hnil hio⟩

/-- R59: a record that has bytes, executed with its write not failed, writes them. -/
theorem exec_toInstr_writes (hne : r.toBytes ≠ []) (hdst : s.dst.wf = true) (hio : s.passes 1) : ∃ m : Memory,
    exec r.toInstr s = .next { s with dst := m, env := s.env.drop 1, outcome := some .ok }
    ∧ WroteAt s.dst m r.offset.toNat r.toBytes := by
  refine ⟨apply1 s.dst r, ?_, by rw [apply1_eq_put]; exact wroteAt_put hdst _ hne⟩
  rw [exec_toInstr, performRecord_ok hr hne (State.passes_succ hio).1, State.asked_env_drop]
  rfl

/-- R60, R219: a record that has bytes, executed with its write failed, leaves the bytes outside its range. -/
theorem exec_toInstr_raises (hne : r.toBytes ≠ []) {rest : List Bool} (henv : s.env = true :: rest) : ∃ m : Memory,
    exec r.toInstr s =
      .next (State.raise { s with env := rest, dst := m, draws := s.draws + 1 } (.io .dst r.offset.toNat))
    ∧ KeptOutside s.dst m r.offset.toNat r.toBytes.length := by
  refine ⟨_, ?_, keptOutside_unspecify s.dst r.offset.toNat r.toBytes.length s.draws⟩
  rw [exec_toInstr, performRecord_fails hr hne (State.ioFails_of_env henv), State.asked_of_env henv]

end

/-- Settles O36: a literal record that is well formed has bytes. -/
theorem litWritesItsBytes : Obligations.LitWritesItsBytes := by
  intro s off d hwf hdst
  have hr : (Record.literal off d).wf = true := hwf
  have hne := toBytes_literal_ne_nil hr
  exact ⟨exec_toInstr_writes hr hne hdst, fun _ henv => exec_toInstr_raises hr hne henv⟩

/-- Settles O37: a run-length record has `count` bytes, so none exactly when `count` is 0. -/
theorem rleWritesCopiesOfItsFill : Obligations.RleWritesCopiesOfItsFill := by
  intro s off f n hdst
  have hne (hn : n ≠ 0) : (Record.runLength off f n).toBytes ≠ [] :=
    mt (toBytes_runLength_eq_nil_iff off f n).1 hn
  refine ⟨fun hn => if_pos hn, fun hn => exec_toInstr_writes rfl (hne hn) hdst,
    fun hn rest henv => ?_⟩
  obtain ⟨m, hexec, hkept⟩ := exec_toInstr_raises rfl (hne hn) henv
  exact ⟨m, hexec, by simpa [Record.toBytes, Record.offset] using hkept⟩

/-- R171: the length after one record. -/
theorem len_apply1 (d : Memory) (r : Record) :
    (apply1 d r).len = if r.toBytes = [] then d.len else max d.len (r.offset.toNat + r.toBytes.length) := by
  rw [apply1_eq_put]
  split
  · next hnil => rw [hnil, Memory.put_nil]
  · next hne => exact Memory.len_put d _ hne

/-- Settles O40, by induction on the records, from any space. -/
theorem resultReachesTheFurthestWrite : Obligations.ResultReachesTheFurthestWrite := by
  intro d rs
  induction rs generalizing d with
  | nil => rfl
  | cons r rs ih => rw [List.foldl_cons, ← len_apply1]; exact ih (apply1 d r)

/-! ## `DCOPY` forwards (R161) -/

theorem exec_dcopy_of_empty {s : State} (hp : s.phase = .valid) (himg : s.img.len = 0) :
    exec .dcopy s = .next (State.returns { s with dst := Memory.empty, pcur := 0x4E, phase := .dec } .ok) :=
  (if_neg (not_not.2 hp)).trans (if_pos himg)

theorem exec_dcopy_of_nonempty {s : State} (hp : s.phase = .valid) (himg : s.img.len ≠ 0) :
    exec .dcopy s =
      if s.ioFails then raiseExc (.io .img 0) s.asked.loseDst
      else if s.asked.ioFails then raiseExc (.io .dst 0) s.asked.asked.loseDst
      else finish { s.asked.asked with dst := s.img, pcur := 0x4E, phase := .dec } :=
  (if_neg (not_not.2 hp)).trans (if_neg himg)

theorem exec_dcopy_ok {s : State} (hp : s.phase = .valid) (himg : s.img.len ≠ 0) (hio : s.passes 2) :
    exec .dcopy s = .next (State.returns { s.asked.asked with dst := s.img, pcur := 0x4E, phase := .dec } .ok) := by
  obtain ⟨hread, hio⟩ := State.passes_succ hio
  obtain ⟨hwrite, -⟩ := State.passes_succ hio
  rw [exec_dcopy_of_nonempty hp himg, hread, hwrite]
  rfl

/-- Settles O31: `DST` is the image itself, the empty space, or, after a failed access, free. -/
theorem dcopyCopiesTheImage : Obligations.DcopyCopiesTheImage := by
  refine fun s arg => ⟨?_, fun hp => if_pos hp, fun hp himg hio => ⟨s.img, ?_, rfl, fun _ => rfl⟩,
    fun hp himg => ⟨Memory.empty, exec_dcopy_of_empty hp himg, rfl⟩,
    fun hp himg rest henv => ⟨Memory.empty.unspecifyFrom 0 s.draws, ?_⟩,
    fun hp himg rest henv => ⟨Memory.empty.unspecifyFrom 0 s.draws, ?_⟩⟩
  · obtain ⟨-, -, -, -, -, -, -, -, -, hdcopy, -⟩ := operandBitsAreReadOrIgnored arg
    exact hdcopy
  · rw [exec_dcopy_ok hp himg hio, State.asked_asked_env_drop]
    rfl
  · rw [exec_dcopy_of_nonempty hp himg, State.ioFails_of_env henv, State.asked_of_env henv]
    rfl
  · have hasked : s.asked.asked = { s with env := rest } := by rw [State.asked_of_env henv]; rfl
    rw [exec_dcopy_of_nonempty hp himg, State.ioFails_of_env henv, State.ioFails_asked_of_env henv, hasked]
    rfl

/-! ## The record at `PCUR` (R92, R96) -/

theorem wf_of_decodeRecord {bs : List Byte} {r : Record} {k : Nat} (h : decodeRecord bs = .ok (r, k)) : r.wf = true :=
  (recordBytesAndRecordsCorrespond.2 bs r k h).1

theorem length_recBytes_of_decodeRecord {bs : List Byte} {r : Record} {k : Nat} (h : decodeRecord bs = .ok (r, k)) :
    (recBytes r).length = k := by
  obtain ⟨-, hk, hbytes⟩ := recordBytesAndRecordsCorrespond.2 bs r k h
  rw [hbytes, List.length_take, min_eq_left hk]

/-! ## `RDEC` forwards (R162, R165) -/

theorem exec_rdec_end {s : State} (hp : s.phase = .dec) (hend : s.pcur = s.pat.len) :
    exec .rdec s = .next (State.returns { s with phase := .idle } .endOfPatch) :=
  (if_neg (not_not.2 hp)).trans (if_pos hend)

theorem exec_rdec_of_dec {s : State} (hp : s.phase = .dec) (hend : s.pcur ≠ s.pat.len) :
    exec .rdec s =
      andThen (memRead .pat s.pcur 5 s) fun h t =>
      andThen (memRead .pat (t.pcur + 5) (tailLen (lenOrZero h.toList)) t) fun l u =>
      performRecord (recordOf h.toList l.toList) (u.commitRecord (recordOf h.toList l.toList)) :=
  (if_neg (not_not.2 hp)).trans (if_neg hend)

theorem exec_rdec_noPrefix {s : State} (hp : s.phase = .dec) (hend : s.pcur ≠ s.pat.len)
    (hlen : s.pat.len < s.pcur + 5) :
    exec .rdec s = .next (s.raise (.format s.pcur)) := by
  rw [exec_rdec_of_dec hp hend, memRead_pastEnd (by decide) hlen, andThen_error, pastEnd]

section
variable {s : State} (hp : s.phase = .dec) (hlen : s.pcur + 5 ≤ s.pat.len)
include hp hlen

theorem exec_rdec_prefixFails (hio : s.ioFails = true) : exec .rdec s = .next (s.asked.raise (.io .pat s.pcur)) := by
  rw [exec_rdec_of_dec hp (by omega), memRead_fails (by decide) hlen hio, andThen_error]

/-- With the prefix read, `RDEC` goes on to the bytes that it announces. -/
theorem exec_rdec_of_prefix (hio : s.ioFails = false) :
    exec .rdec s =
      andThen (memRead .pat (s.pcur + 5) (tailLen (s.pat.get (s.pcur + 4))) s.asked) fun l u =>
      performRecord (recordOf (s.pat.read s.pcur 5).toList l.toList)
        (u.commitRecord (recordOf (s.pat.read s.pcur 5).toList l.toList)) := by
  rw [exec_rdec_of_dec hp (by omega), memRead_ok (by decide) hlen hio, andThen_ok, State.space_pat, lenOrZero_read,
    State.asked_pcur]

theorem exec_rdec_cut (hcut : s.pat.len < s.pcur + 5 + tailLen (s.pat.get (s.pcur + 4))) (hio : s.ioFails = false) :
    exec .rdec s = .next (s.asked.raise (.format (s.pcur + 5))) := by
  rw [exec_rdec_of_prefix hp hlen hio, memRead_pastEnd (tailLen_ne_zero _) hcut, andThen_error, pastEnd]

end

section
variable {s : State} {r : Record} {k : Nat} (hp : s.phase = .dec) (hdec : decodeRecord s.restOfPatch = .ok (r, k))
include hp hdec

theorem exec_rdec_restFails (hprefix : s.ioFails = false) (hrest : s.asked.ioFails = true) :
    exec .rdec s = .next (s.asked.asked.raise (.io .pat (s.pcur + 5))) := by
  obtain ⟨hwhole, -, -⟩ := (decodeRecord_slice_iff s.pat s.pcur k r).1 hdec
  rw [exec_rdec_of_prefix hp (by omega) hprefix, memRead_fails (tailLen_ne_zero _) hwhole hrest, andThen_error]

/-- R162: with both reads passed, `RDEC` commits the record at `PCUR` and performs it. -/
theorem exec_rdec_of_record (hprefix : s.ioFails = false) (hrest : s.asked.ioFails = false) :
    exec .rdec s = performRecord r (s.asked.asked.commitRecord r) := by
  obtain ⟨hwhole, rfl, -⟩ := (decodeRecord_slice_iff s.pat s.pcur k r).1 hdec
  rw [exec_rdec_of_prefix hp (by omega) hprefix, memRead_ok (tailLen_ne_zero _) hwhole hrest, andThen_ok,
    State.asked_space, State.space_pat, Memory.recordAt, lenOrZero_read]

/-- R170: with no access failed, `RDEC` applies the record at `PCUR`. -/
theorem exec_rdec_applies (hio : s.passes 3) :
    ∃ env, env <:+ s.env ∧ exec .rdec s =
      .next (State.returns { s.asked.asked.commitRecord r with env := env, dst := apply1 s.dst r } .ok) := by
  obtain ⟨hprefix, hio⟩ := State.passes_succ hio
  obtain ⟨hrest, hio⟩ := State.passes_succ hio
  obtain ⟨hwrite, -⟩ := State.passes_succ hio
  obtain ⟨env, henv, hperform⟩ := performRecord_applies (s := s.asked.asked.commitRecord r) (wf_of_decodeRecord hdec)
    ((State.commitRecord_ioFails _ r).trans hwrite)
  rw [State.commitRecord_env] at henv
  refine ⟨env, henv.trans ((List.tail_suffix _).trans (List.tail_suffix _)), ?_⟩
  rw [exec_rdec_of_record hp hdec hprefix hrest, hperform, State.commitRecord_dst]
  rfl

end

/-! ## The commit (R162, R27) -/

/-- R162: the committed cursor stands behind the record's bytes. -/
theorem State.commitRecord_pcur_of_decodeRecord (s : State) {bs : List Byte} {r : Record} {k : Nat}
    (h : decodeRecord bs = .ok (r, k)) : (s.commitRecord r).pcur = s.pcur + k := by
  rw [State.commitRecord_pcur, length_recBytes_of_decodeRecord h]

/-- What a commit changes, as an update of the state before it. -/
theorem State.commitRecord_eq (s : State) (r : Record) :
    s.commitRecord r = { s with
      recOff := (s.commitRecord r).recOff, recKind := (s.commitRecord r).recKind, runLen := (s.commitRecord r).runLen
      buf := (s.commitRecord r).buf, pcur := (s.commitRecord r).pcur, draws := s.draws + 1 } := by cases r <;> rfl

theorem State.record_raise (s : State) (e : Exc) : (s.raise e).record = s.record := by cases e <;> rfl

/-! ## The statements on `RDEC` -/

/-- Settles O32: the state at which the record runs is the one the commit leaves. -/
theorem rdecCommitsAndPerformsTheRecord : Obligations.RdecCommitsAndPerformsTheRecord := by
  intro s r k hp hdec hio
  obtain ⟨hprefix, hio⟩ := State.passes_succ hio
  obtain ⟨hrest, -⟩ := State.passes_succ hio
  refine ⟨s.asked.asked.commitRecord r, ?_, ?_, State.record_commitRecord _ (wf_of_decodeRecord hdec)⟩
  · rw [exec_rdec_of_record hp hdec hprefix hrest, exec_toInstr]
  · conv_lhs => rw [State.commitRecord_eq, State.commitRecord_pcur_of_decodeRecord _ hdec]
    rw [State.asked_asked_env_drop]

/-- Settles O33: the good end of `RDEC`, with the registers that the commit wrote. -/
theorem rdecAppliesTheRecordAndContinues : Obligations.RdecAppliesTheRecordAndContinues := by
  intro s r k hp hdec hio
  obtain ⟨env, -, hexec⟩ := exec_rdec_applies hp hdec hio
  have hrecord := State.record_commitRecord s.asked.asked (wf_of_decodeRecord hdec)
  exact ⟨_, hexec, rfl, by simp [hp], State.commitRecord_pcur_of_decodeRecord _ hdec, rfl, hrecord,
    by simp, by simp, by simp, by simp [SameHeader], by simp [SameErrors], by simp⟩

/-- Settles O34: the end of the stream, and the two reads that can run past it. -/
theorem rdecEndsOrRejectsACutRecord : Obligations.RdecEndsOrRejectsACutRecord := by
  refine fun s arg => ⟨?_, fun hp => if_pos hp, exec_rdec_end, exec_rdec_noPrefix, fun hp hlen hrle hcut hio => ?_,
    fun hp hlen hlit hcut hio => ?_⟩
  · obtain ⟨-, -, -, -, -, -, -, -, -, -, hrdec⟩ := operandBitsAreReadOrIgnored arg
    exact hrdec
  · rw [← State.asked_env_drop]
    exact exec_rdec_cut hp hlen (by rw [tailLen, if_pos hrle]; exact hcut) (State.passes_succ hio).1
  · rw [← State.asked_env_drop]
    exact exec_rdec_cut hp hlen (by rw [tailLen, if_neg hlit]; exact hcut) (State.passes_succ hio).1

/-- Settles O35: a failed read comes before the commit, a failed write after it. -/
theorem rdecIoErrorIsPrecise : Obligations.RdecIoErrorIsPrecise := by
  refine fun s hp _ => ⟨fun hlen rest henv => ?_, fun r k hdec => ⟨fun rest henv => ?_, fun hne rest henv => ?_⟩⟩
  · rw [exec_rdec_prefixFails hp hlen (State.ioFails_of_env henv), State.asked_of_env henv]
  · have hasked : s.asked.asked = { s with env := rest } := by rw [State.asked_of_env henv]; rfl
    rw [exec_rdec_restFails hp hdec (State.ioFails_of_env henv) (State.ioFails_asked_of_env henv), hasked]
  · have hasked : s.asked.asked = { s with env := true :: rest } := by rw [State.asked_of_env henv]; rfl
    have hr := wf_of_decodeRecord hdec
    have hwrite : (s.asked.asked.commitRecord r).ioFails = true := by rw [State.commitRecord_ioFails, hasked]; rfl
    have hexec := (exec_rdec_of_record hp hdec (State.ioFails_of_env henv) (State.ioFails_asked_of_env henv)).trans
      (performRecord_fails hr hne hwrite)
    refine ⟨_, hexec, by simp, by simp [Exc.kind], rfl, rfl, by simp [Exc.kind], ?_, ?_, by simp, by simp, ?_⟩
    · rw [State.raise_pcur]
      exact State.commitRecord_pcur_of_decodeRecord _ hdec
    · rw [State.record_raise]
      exact State.record_commitRecord _ hr
    · rw [State.raise_dst, State.commitRecord_dst]
      exact keptOutside_unspecify s.dst _ _ _

end Sys2Proof.Machine
end

section
/-! `APPLY` (R168 to R170): `apply_all` record by record, the commands of the sequence one after another, and `RDEC`
repeated until the patch ends or a command raises; and the statements on `APPLY`. -/

namespace Sys2Proof.Machine

/-! ## `apply_all` (R170) -/

theorem five_le_of_decodeRecord {bs : List Byte} {r : Record} {k : Nat} (h : decodeRecord bs = .ok (r, k)) : 5 ≤ k := by
  obtain ⟨-, -, rfl⟩ := decodeRecord_ok_iff.1 h
  omega

/-- R99: fuel for every byte of the body is enough, and more does not matter. -/
theorem parseBody_fuel {n m : Nat} {body : List Byte} (hn : body.length ≤ n) (hm : body.length ≤ m) :
    parseBody n body = parseBody m body := by
  induction n generalizing m body with
  | zero =>
    obtain rfl := List.length_eq_zero_iff.1 (Nat.le_zero.1 hn)
    simp only [parseBody]
  | succ n ih =>
    cases body with
    | nil => simp only [parseBody]
    | cons b rest =>
      obtain _ | m := m
      · simp at hm
      simp only [parseBody]
      split
      · rfl
      · next r k h =>
        have hk := five_le_of_decodeRecord h
        rw [List.length_cons] at hn hm
        rw [ih (m := m)] <;> rw [List.length_drop, List.length_cons] <;> omega

@[simp] theorem applyAll_nil (d : Memory) : applyAll d [] = some d := rfl

theorem applyAll_of_short {body : List Byte} {e : DecodeError} (hne : body ≠ []) (h : decodeRecord body = .error e)
    (d : Memory) : applyAll d body = none := by
  obtain ⟨b, rest, rfl⟩ := List.exists_cons_of_ne_nil hne
  simp only [applyAll, List.length_cons, parseBody, h, Option.map_none]

theorem applyAll_of_record {body : List Byte} {r : Record} {k : Nat} (h : decodeRecord body = .ok (r, k)) (d : Memory) :
    applyAll d body = applyAll (apply1 d r) (body.drop k) := by
  have hk := five_le_of_decodeRecord h
  cases body with
  | nil => exact nomatch h
  | cons b rest =>
    have hfuel : parseBody rest.length ((b :: rest).drop k) =
        parseBody ((b :: rest).drop k).length ((b :: rest).drop k) :=
      parseBody_fuel (by rw [List.length_drop, List.length_cons]; omega) le_rfl
    simp only [applyAll, List.length_cons, parseBody, h, hfuel, Option.map_map]
    rfl

/-! ## Commands one after another (R104) -/

/-- A command that stops the sequence where `Q` holds, or passes on to a rest that ends there. -/
theorem runInstrs_cons_reaches {Q : State → Prop} {i : Instr} {rest : List Instr} {s t : State} (h : exec i s = .next t)
    (ht : (t.outcome ≠ some .ok ∧ Q t) ∨ (t.outcome = some .ok ∧ ∃ u, runInstrs rest t = .next u ∧ Q u)) :
    ∃ u, runInstrs (i :: rest) s = .next u ∧ Q u := by
  rcases ht with ⟨hstop, hq⟩ | ⟨hok, u, hrun, hq⟩
  · exact ⟨t, runInstrs_cons_stop h hstop rest, hq⟩
  · exact ⟨u, (runInstrs_cons_ok h hok rest).trans hrun, hq⟩

/-- R168, R169: an `RDEC` either ends the operation where `Q` holds, or keeps `I` and passes a record of `PAT`. -/
def RdecKeepsOrEnds (I Q : State → Prop) (s : State) : Prop :=
  ∃ t, exec .rdec s = .next t ∧ ((t.outcome ≠ some .ok ∧ Q t)
    ∨ (t.outcome = some .ok ∧ I t ∧ t.pat = s.pat ∧ s.pcur + 6 ≤ t.pcur ∧ t.pcur ≤ t.pat.len))

/-- R169: one `RDEC` for every six bytes left in `PAT`, and one more, reach the end. The induction is on their
number. -/
theorem runRdec_reaches {I Q : State → Prop} (hstep : ∀ s, I s → RdecKeepsOrEnds I Q s) {n : Nat} {s : State} (hs : I s)
    (hn : (s.pat.len - s.pcur) / 6 < n) : ∃ t, runRdec n s = .next t ∧ Q t := by
  induction n generalizing s with
  | zero => exact absurd hn (Nat.not_lt_zero _)
  | succ n ih =>
    obtain ⟨t, hexec, hstop | ⟨hok, ht, hpat, hpcur, hend⟩⟩ := hstep s hs
    · exact runInstrs_cons_reaches hexec (.inl hstop)
    · rw [hpat] at hend
      exact runInstrs_cons_reaches hexec (.inr ⟨hok, ih ht (by rw [hpat]; omega)⟩)

theorem sub_div_lt_rdecBound (s : State) : (s.pat.len - 0x4E) / 6 < rdecBound s := Nat.lt_succ_self _

/-! ## Every end of `APPLY` (R168, R169) -/

/-- R250: an operation has ended, with `END` in `IDLE` or with an exception in `FAULT`. -/
def State.EndedApply (t : State) : Prop :=
  (t.outcome = some .endOfPatch ∧ t.phase = .idle) ∨ ∃ k, t.outcome = some (.fault k) ∧ t.phase = .fault

theorem raise_stops_endedApply (s : State) (e : Exc) :
    (s.raise e).outcome ≠ some .ok ∧ (s.raise e).EndedApply :=
  ⟨by simp, .inr ⟨e.kind, s.raise_outcome e, s.raise_phase e⟩⟩

theorem crcchk_raises_or_validates {s t : State} (hp : s.phase = .idle) (h : exec .crcchk s = .next t) :
    (t.outcome ≠ some .ok ∧ t.EndedApply) ∨ (t.outcome = some .ok ∧ t.phase = .valid ∧ t.pat = s.pat) := by
  rcases execCrcchk_cases h with
    ⟨hne, -⟩ | ⟨-, ⟨-, rfl⟩ | ⟨-, -, rfl⟩ | ⟨-, -, -, rfl⟩ | ⟨-, -, -, -, rfl⟩ | ⟨-, -, -, -, -, rfl⟩
      | ⟨-, -, -, -, -, rfl⟩⟩
  · exact absurd hp hne
  iterate 5 exact .inl (raise_stops_endedApply _ _)
  · exact .inr ⟨rfl, rfl, rfl⟩

theorem dcopy_raises_or_starts {s t : State} (hp : s.phase = .valid) (h : exec .dcopy s = .next t) :
    (t.outcome ≠ some .ok ∧ t.EndedApply)
    ∨ (t.outcome = some .ok ∧ t.phase = .dec ∧ t.pat = s.pat ∧ t.pcur = 0x4E) := by
  rcases execDcopy_cases h with ⟨hne, -⟩ | ⟨-, ⟨-, rfl⟩ | ⟨-, -, rfl⟩ | ⟨-, -, -, rfl⟩ | ⟨-, -, -, rfl⟩⟩
  · exact absurd hp hne
  · exact .inr ⟨rfl, rfl, rfl, rfl⟩
  · exact .inl (raise_stops_endedApply _ _)
  · exact .inl (raise_stops_endedApply _ _)
  · exact .inr ⟨rfl, rfl, rfl, rfl⟩

/-- R169: a record is at least six bytes long. -/
theorem six_le_length_recBytes {r : Record} (hr : r.wf = true) : 6 ≤ (recBytes r).length := by
  have htail := tailLen_ne_zero (lenOrZero (recBytes r))
  rw [length_recBytes_eq_tailLen hr]
  omega

/-- R162: in `DEC` an `RDEC` is not refused: it ends the operation, or goes on behind a whole record. -/
theorem rdec_ends_or_proceeds {s : State} (hp : s.phase = .dec) :
    RdecKeepsOrEnds (fun t => t.phase = .dec) State.EndedApply s := by
  obtain ⟨t, h⟩ := exec_next .rdec s
  refine ⟨t, h, ?_⟩
  rcases execRdec_cases h with
    ⟨hne, -⟩ | ⟨-, ⟨-, rfl⟩ | ⟨-, -, rfl⟩ | ⟨-, -, rfl⟩ | ⟨-, -, -, rfl⟩ | ⟨-, -, -, rfl⟩ | ⟨hwhole, -, -, h⟩⟩
  · exact absurd hp hne
  · exact .inl ⟨nofun, .inl ⟨rfl, rfl⟩⟩
  iterate 4 exact .inl (raise_stops_endedApply _ _)
  · rcases performRecord_ends h with ⟨env, rfl⟩ | ⟨_, _, _, _, rfl⟩
    · have hdec := (decodeRecord_slice_iff s.pat s.pcur _ _).2 ⟨hwhole, rfl, rfl⟩
      have htail := tailLen_ne_zero (s.pat.get (s.pcur + 4))
      refine .inr ⟨rfl, by simp [hp], by simp, ?_⟩
      simp only [State.returns_pcur, State.returns_pat, State.commitRecord_pat, State.asked_pat,
        State.commitRecord_pcur_of_decodeRecord _ hdec, State.asked_pcur]
      omega
    · exact .inl (raise_stops_endedApply _ _)

/-- Settles O39: `CRCCHK` and `DCOPY` raise or pass on, and from 0x4E the bound is enough for the `RDEC`s. -/
theorem applyAlwaysEndsWithinItsBound : Obligations.ApplyAlwaysEndsWithinItsBound := by
  intro s hp
  obtain ⟨t, ht⟩ := exec_next .crcchk s
  obtain ⟨u, hu⟩ := exec_next .dcopy t
  refine runInstrs_cons_reaches ht ((crcchk_raises_or_validates hp ht).imp_right fun ⟨hok, hvalid, hpat⟩ => ⟨hok, ?_⟩)
  refine runInstrs_cons_reaches hu
    ((dcopy_raises_or_starts hvalid hu).imp_right fun ⟨hok, hdec, hpat', hpcur⟩ => ⟨hok, ?_⟩)
  refine runRdec_reaches (fun _ => rdec_ends_or_proceeds) hdec ?_
  rw [hpat', hpat, hpcur]
  exact sub_div_lt_rdecBound s

/-! ## The image that `APPLY` computes (R170) -/

/-- R170: `s` is on the way of an `APPLY` started at `s₀`: no access to come fails, and what is left of the patch takes
`DST` to what the whole body takes the image to. -/
structure Applying (s₀ s : State) : Prop where
  phase : s.phase = .dec
  passes : s.alwaysPasses
  img : s.img = s₀.img
  pat : s.pat = s₀.pat
  errKind : s.errKind = s₀.errKind
  pcur : s.pcur ≤ s.pat.len
  rest : applyAll s.dst s.restOfPatch = applyAll s₀.img (s₀.pat.slice 0x4E s₀.pat.len)

/-- R170: `t` is the end of an `APPLY` started at `s₀` for the value that `apply_all` has. -/
def AppliedAll (s₀ t : State) : Option Memory → Prop
  | some d => t.outcome = some .endOfPatch ∧ t.phase = .idle ∧ t.dst = d ∧ t.img = s₀.img ∧ t.pat = s₀.pat
      ∧ t.errKind = s₀.errKind
  | none => t.outcome = some (.fault .formatError) ∧ t.phase = .fault ∧ t.errKind = some .formatError
      ∧ t.errSpace = Space.pat.code

theorem appliedAll_raise (s₀ s : State) (pos : Nat) : AppliedAll s₀ (s.raise (.format pos)) none := ⟨rfl, rfl, rfl, rfl⟩

/-- R165: with no access failed, `RDEC` on a record that the stream cuts short raises FormatError. -/
theorem exec_rdec_short {s : State} {e : DecodeError} (hp : s.phase = .dec) (hend : s.pcur ≠ s.pat.len)
    (hio : s.ioFails = false) (hshort : decodeRecord s.restOfPatch = .error e) :
    ∃ u pos, exec .rdec s = .next (State.raise u (.format pos)) := by
  by_cases hlen : s.pat.len < s.pcur + 5
  · exact ⟨_, _, exec_rdec_noPrefix hp hend hlen⟩
  · refine ⟨_, _, exec_rdec_cut hp (not_lt.1 hlen) (not_le.1 fun hwhole => ?_) hio⟩
    have hdec := (decodeRecord_slice_iff s.pat s.pcur _ _).2 ⟨hwhole, rfl, rfl⟩
    exact nomatch hshort.symm.trans hdec

namespace Applying

variable {s₀ s : State} (h : Applying s₀ s)
include h

theorem ended (hend : s.pcur = s.pat.len) :
    AppliedAll s₀ (State.returns { s with phase := .idle } .endOfPatch)
      (applyAll s₀.img (s₀.pat.slice 0x4E s₀.pat.len)) := by
  have hnil : s.restOfPatch = [] := by rw [State.restOfPatch, hend, Memory.slice_self]
  rw [← h.rest, hnil, applyAll_nil]
  exact ⟨rfl, rfl, rfl, h.img, h.pat, h.errKind⟩

theorem next {r : Record} {k : Nat} (hdec : decodeRecord s.restOfPatch = .ok (r, k)) {env : List Bool}
    (henv : env <:+ s.env) :
    Applying s₀ (State.returns { s.asked.asked.commitRecord r with env := env, dst := apply1 s.dst r } .ok) := by
  have hpcur := State.commitRecord_pcur_of_decodeRecord s.asked.asked hdec
  obtain ⟨hwhole, -, hk⟩ := (decodeRecord_slice_iff s.pat s.pcur k r).1 hdec
  refine ⟨by simp [h.phase], fun b hb => h.passes b (henv.mem hb), by simp [h.img], by simp [h.pat],
    by simp [h.errKind], ?_, ?_⟩
  · simp only [State.returns_pcur, State.returns_pat, State.commitRecord_pat, State.asked_pat, hpcur, State.asked_pcur]
    omega
  · rw [← h.rest, applyAll_of_record hdec]
    simp only [State.restOfPatch, State.returns_dst, State.returns_pat, State.returns_pcur, State.commitRecord_pat,
      State.asked_pat, hpcur, State.asked_pcur, Memory.drop_slice]

/-- R165, R170: `RDEC` follows `apply_all`: at the end of the body, on a record cut short, and on a whole record. -/
theorem rdec : RdecKeepsOrEnds (Applying s₀) (AppliedAll s₀ · (applyAll s₀.img (s₀.pat.slice 0x4E s₀.pat.len))) s := by
  by_cases hend : s.pcur = s.pat.len
  · exact ⟨_, exec_rdec_end h.phase hend, .inl ⟨nofun, h.ended hend⟩⟩
  have hlt := lt_of_le_of_ne h.pcur hend
  cases hdec : decodeRecord s.restOfPatch with
  | error e =>
    obtain ⟨u, pos, hexec⟩ := exec_rdec_short h.phase hend h.passes.ioFails hdec
    have hne : s.restOfPatch ≠ [] := List.ne_nil_of_length_pos (by rw [State.restOfPatch, Memory.length_slice]; omega)
    refine ⟨_, hexec, .inl ⟨nofun, ?_⟩⟩
    rw [← h.rest, applyAll_of_short hne hdec]
    exact appliedAll_raise s₀ u pos
  | ok rk =>
    obtain ⟨r, k⟩ := rk
    obtain ⟨env, henv, hexec⟩ := exec_rdec_applies h.phase hdec (s.passes_of_always h.passes 3)
    have hnext := h.next hdec henv
    have hk : 6 ≤ k := by
      rw [← length_recBytes_of_decodeRecord hdec]
      exact six_le_length_recBytes (wf_of_decodeRecord hdec)
    refine ⟨_, hexec, .inr ⟨rfl, hnext, by simp, ?_, hnext.pcur⟩⟩
    simp only [State.returns_pcur, State.commitRecord_pcur_of_decodeRecord _ hdec, State.asked_pcur]
    omega

end Applying

/-- R168, R170: with the premises of R170 met, `CRCCHK` and `DCOPY` lead to the first `RDEC`, with the whole
body to come. -/
theorem exists_applyPatch_appliedAll {s : State} (hp : s.phase = .idle) (hio : s.alwaysPasses) (hpat : 0x4E ≤ s.pat.len)
    (himg : 0x18 ≤ s.img.len) (hcrc : s.pat.read 0x3D 8 = s.img.read 0x10 8) :
    ∃ t, applyPatch s = .next t ∧ AppliedAll s t (applyAll s.img (s.pat.slice 0x4E s.pat.len)) := by
  have hcrcchk := exec_crcchk_ok hp (le_trans (by decide) hpat) himg (s.passes_of_always hio 2) hcrc
  have hio₂ : s.asked.asked.alwaysPasses := State.alwaysPasses_asked (State.alwaysPasses_asked hio)
  have hdcopy := exec_dcopy_ok (s := State.returns { s.asked.asked with phase := .valid } .ok) rfl
    (Nat.ne_of_gt (Nat.lt_of_lt_of_le (by decide) himg)) (State.passes_of_always hio₂ 2)
  refine runInstrs_cons_reaches hcrcchk (.inr ⟨rfl, runInstrs_cons_reaches hdcopy (.inr ⟨rfl, ?_⟩)⟩)
  refine runRdec_reaches (fun _ => Applying.rdec) ⟨rfl, ?_, rfl, rfl, rfl, hpat, rfl⟩ (sub_div_lt_rdecBound s)
  exact State.alwaysPasses_asked (State.alwaysPasses_asked hio₂)

/-- Settles O38: one end for each of the two values of `apply_all`. -/
theorem applyComputesApplyAll : Obligations.ApplyComputesApplyAll := by
  intro s hp hio hpat himg hcrc
  obtain ⟨t, happly, hend⟩ := exists_applyPatch_appliedAll hp hio hpat himg ((crcEqual_iff _ _).1 hcrc)
  exact ⟨fun d hd => ⟨t, happly, by rwa [hd] at hend⟩, fun hnone => ⟨t, happly, by rwa [hnone] at hend⟩⟩

end Sys2Proof.Machine
end

section
/-! The identifier (R180 to R183): the hexadecimal spelling of bytes and that it loses nothing, the name made of it, and
what `IDENT` answers on each path; and the statements of 44_identifier.md. -/

namespace Sys2Proof.Machine

/-! ## Digits (R182) -/

theorem toNat_hexDigit_of_le {v : BitVec 4} (h : v.toNat ≤ 9) : (hexDigit v).toNat = 0x30 + v.toNat := by
  rw [hexDigit, if_pos h, BitVec.toNat_ofNat, Nat.mod_eq_of_lt (by omega)]

theorem toNat_hexDigit_of_ge {v : BitVec 4} (h : 10 ≤ v.toNat) : (hexDigit v).toNat = 0x41 + v.toNat - 10 := by
  have hlt := v.isLt
  rw [hexDigit, if_neg (by omega), BitVec.toNat_ofNat, Nat.mod_eq_of_lt (by omega)]

theorem hexDigit_cases (v : BitVec 4) :
    (v.toNat ≤ 9 ∧ (hexDigit v).toNat = 0x30 + v.toNat) ∨ (10 ≤ v.toNat ∧ (hexDigit v).toNat = 0x41 + v.toNat - 10) :=
  (Nat.lt_or_ge 9 v.toNat).symm.imp (fun h => ⟨h, toNat_hexDigit_of_le h⟩) fun h => ⟨h, toNat_hexDigit_of_ge h⟩

/-- A decimal digit's code, at most 0x39, is no letter's, and within each kind the code rises with the value. -/
theorem hexDigit_injective : Function.Injective hexDigit := by
  intro v w h
  have hcode := congrArg BitVec.toNat h
  refine BitVec.eq_of_toNat_eq ?_
  rcases hexDigit_cases v with ⟨hv, hvcode⟩ | ⟨hv, hvcode⟩ <;> rcases hexDigit_cases w with ⟨hw, hwcode⟩ | ⟨hw, hwcode⟩ <;>
    omega

/-! ## Bytes (R182) -/

theorem toNat_highNibble (b : Byte) : (b.extractLsb' 4 4).toNat = b.toNat / 16 := by
  have hlt := b.isLt
  rw [BitVec.extractLsb'_toNat, Nat.shiftRight_eq_div_pow, Nat.mod_eq_of_lt (by omega)]

theorem toNat_lowNibble (b : Byte) : (b.extractLsb' 0 4).toNat = b.toNat % 16 := by
  rw [BitVec.extractLsb'_toNat, Nat.shiftRight_zero]

@[simp] theorem length_hex2 (b : Byte) : (hex2 b).length = 2 := rfl

/-- A byte is its two nibbles, and each nibble is read off its digit. -/
theorem hex2_injective : Function.Injective hex2 := by
  intro b c h
  obtain ⟨hhi, hlo⟩ : _ ∧ _ := by simpa [hex2] using h
  have hhigh := congrArg BitVec.toNat (hexDigit_injective hhi)
  have hlow := congrArg BitVec.toNat (hexDigit_injective hlo)
  rw [toNat_highNibble, toNat_highNibble] at hhigh
  rw [toNat_lowNibble, toNat_lowNibble] at hlow
  exact BitVec.eq_of_toNat_eq (by omega)

/-! ## Sequences of bytes (R152, R181) -/

/-- Every byte takes two digits, so a spelling is cut back into bytes in one way only. -/
theorem flatMap_hex2_injective : ∀ {l k : List Byte}, l.flatMap hex2 = k.flatMap hex2 → l = k
  | [], [], _ => rfl
  | [], c :: k, h | c :: k, [], h => by simp [hex2] at h
  | b :: l, c :: k, h => by
    rw [List.flatMap_cons, List.flatMap_cons] at h
    obtain ⟨hbyte, hrest⟩ := List.append_inj h rfl
    rw [hex2_injective hbyte, flatMap_hex2_injective hrest]

theorem flatMap_hex2_toList {n : Nat} (v : Vector Byte n) :
    v.toList.flatMap hex2 = (List.ofFn fun i : Fin n => hex2 v[i]).flatten := by
  rw [List.flatMap_def]
  congr 1
  exact List.ext_getElem (by simp) fun i _ _ => by simp

theorem toList_identName (v : Vector Byte 4) : (identName v).toList = v.toList.flatMap hex2 ++ Config.suffix := by
  rw [flatMap_hex2_toList]
  rfl

theorem length_crcReport (v : Vector Byte 8) : (crcReport v).length = 16 := by
  simp [crcReport, List.length_flatMap]

/-- Settles O29: a byte's digits are those of its quotient and remainder by 16, and a report takes its bytes in order. -/
theorem hexSpellsTheHighNibbleFirst : Obligations.HexSpellsTheHighNibbleFirst := by
  refine ⟨fun b => ⟨_, _, rfl, ?_⟩, fun v => ⟨flatMap_hex2_toList v, length_crcReport v⟩⟩
  rw [← toNat_highNibble, ← toNat_lowNibble]
  exact ⟨toNat_hexDigit_of_le, toNat_hexDigit_of_ge, toNat_hexDigit_of_le, toNat_hexDigit_of_ge⟩

/-- Settles O30: the suffix is the same in every name, and the spelling before it gives the bytes back. -/
theorem namesAgreeExactlyWhenFourBytesDo : Obligations.NamesAgreeExactlyWhenFourBytesDo := by
  refine ⟨toList_identName, fun v w => ⟨fun h => ?_, congrArg identName⟩⟩
  have hlist := congrArg Vector.toList h
  rw [toList_identName, toList_identName, List.append_cancel_right_eq] at hlist
  exact Vector.toList_inj.1 (flatMap_hex2_injective hlist)

/-! ## `IDENT` forwards (R180) -/

theorem exec_ident_of_idle {s : State} (hp : s.phase = .idle) :
    exec .ident s =
      andThen (onRaise State.loseIdent (memRead .pat 0x3D 4 s)) fun c s => finish { s with identOut := identName c } :=
  if_neg (not_not.2 hp)

/-- Settles O28: `IDENT` ends as its one read of four bytes does. -/
theorem identNamesThePatch : Obligations.IdentNamesThePatch := by
  refine fun s arg => ⟨?_, fun hp => if_pos hp, fun hp hlen hio => ?_, fun hp hlen => ?_, fun hp hlen rest henv => ?_⟩
  · obtain ⟨-, -, -, -, -, -, -, hident, -⟩ := operandBitsAreReadOrIgnored arg
    exact hident
  · rw [exec_ident_of_idle hp, memRead_ok (by decide) hlen (State.passes_succ hio).1, onRaise_ok, andThen_ok, finish_next,
      State.space_pat, State.asked_env_drop]
    rfl
  · rw [exec_ident_of_idle hp, memRead_pastEnd (by decide) hlen, onRaise_error, andThen_error, pastEnd]
  · rw [exec_ident_of_idle hp, memRead_fails (by decide) hlen (State.ioFails_of_env henv), onRaise_error, andThen_error,
      State.asked_of_env henv]

end Sys2Proof.Machine
end

section
/-! The host's programs run (R190 to R202): which positions the scan's runs carry (R201), the image that the runs leave when
they are written over the original, CREATE followed by APPLY (R200); and the statements of 45_host_sequences.md. -/

namespace Sys2Proof.Machine

/-! ## The scan's runs (R192 to R195, R201) -/

/-- R193: a run begins the rest of the modified image. -/
theorem diffRun_prefix (o : List Byte) (room i : Nat) (m : List Byte) : diffRun o room i m <+: m := by
  induction room, i, m using diffRun.induct o with
  | case1 | case2 | case3 => simp [diffRun, *]
  | case4 room i b m h ih => simpa [diffRun, h] using ih

/-- R193: every byte of a run differs from the virtual original's. -/
theorem diffRun_differs (o : List Byte) (room i : Nat) (m : List Byte) {j : Nat}
    (hj : j < (diffRun o room i m).length) : (diffRun o room i m).getD j 0 ≠ virtualByte o (i + j) := by
  induction room, i, m using diffRun.induct o generalizing j with
  | case1 | case2 | case3 => simp [diffRun] at hj
  | case4 room i b m h ih =>
    rw [diffRun, if_neg h] at hj ⊢
    obtain _ | j := j
    · exact h
    · rw [List.getD_cons_succ, show i + (j + 1) = i + 1 + j by omega]
      exact ih (Nat.lt_of_succ_lt_succ hj)

/-- R193: a run that starts at a difference takes the byte there. -/
theorem length_diffRun_pos {o : List Byte} {i : Nat} {b : Byte} (m : List Byte) (h : b ≠ virtualByte o i) :
    0 < (diffRun o 255 i (b :: m)).length := by simp [diffRun, h]

/-- R193, R195: a run of the scan from position `i` on starts there or later, carries the bytes that stand at its offset,
and each of them differs from the virtual original's. -/
theorem run_of_mem_scanFrom {o : List Byte} {fuel i : Nat} {m : List Byte} {r : Nat × List Byte}
    (h : r ∈ scanFrom o fuel i m) :
    i ≤ r.1 ∧ r.2 <+: m.drop (r.1 - i) ∧ ∀ j, j < r.2.length → r.2.getD j 0 ≠ virtualByte o (r.1 + j) := by
  induction fuel, i, m using scanFrom.induct o with
  | case1 | case2 => simp [scanFrom] at h
  | case3 fuel i m ih =>
    obtain ⟨hle, hprefix, hdiff⟩ := ih (by simpa [scanFrom] using h)
    rw [show r.1 - i = r.1 - (i + 1) + 1 by omega, List.drop_succ_cons]
    exact ⟨by omega, hprefix, hdiff⟩
  | case4 fuel i b m hne ih =>
    rw [scanFrom, if_neg hne] at h
    rcases List.mem_cons.1 h with rfl | h
    · rw [Nat.sub_self, List.drop_zero]
      exact ⟨le_rfl, diffRun_prefix o 255 i (b :: m), fun _ => diffRun_differs o 255 i (b :: m)⟩
    · obtain ⟨hle, hprefix, hdiff⟩ := ih h
      rw [List.drop_drop] at hprefix
      refine ⟨by omega, ?_, hdiff⟩
      convert hprefix using 2
      omega

/-- R195, R201: the scan resumes behind a run, so that no later run overlaps it. -/
theorem pairwise_scanFrom (o : List Byte) (fuel i : Nat) (m : List Byte) :
    (scanFrom o fuel i m).Pairwise fun r q => r.1 + r.2.length ≤ q.1 := by
  induction fuel, i, m using scanFrom.induct o with
  | case1 | case2 => simp [scanFrom]
  | case3 fuel i m ih => simpa [scanFrom] using ih
  | case4 fuel i b m hne ih =>
    rw [scanFrom, if_neg hne]
    exact List.pairwise_cons.2 ⟨fun _ hq => (run_of_mem_scanFrom hq).1, ih⟩

/-- R192, R193: with fuel for every byte, a byte that differs is passed over by no step of the scan. -/
theorem exists_run_of_differs {o : List Byte} {fuel i : Nat} {m : List Byte} (hfuel : m.length ≤ fuel) {j : Nat}
    (hj : j < m.length) (hdiff : m.getD j 0 ≠ virtualByte o (i + j)) :
    ∃ r ∈ scanFrom o fuel i m, r.1 ≤ i + j ∧ i + j < r.1 + r.2.length := by
  induction fuel, i, m using scanFrom.induct o generalizing j with
  | case1 => omega
  | case2 => simp at hj
  | case3 fuel i m ih =>
    obtain _ | j := j
    · exact absurd rfl hdiff
    · rw [List.getD_cons_succ, show i + (j + 1) = i + 1 + j by omega] at hdiff
      rw [scanFrom, if_pos rfl, show i + (j + 1) = i + 1 + j by omega]
      exact ih (Nat.le_of_succ_le_succ hfuel) (Nat.lt_of_succ_lt_succ hj) hdiff
  | case4 fuel i b m hne ih =>
    have hrun := length_diffRun_pos m hne
    rw [scanFrom, if_neg hne]
    generalize diffRun o 255 i (b :: m) = run at hrun ih ⊢
    by_cases hin : j < run.length
    · exact ⟨_, List.mem_cons_self, Nat.le_add_right i j, Nat.add_lt_add_left hin i⟩
    · obtain ⟨j, rfl⟩ := Nat.exists_eq_add_of_le (not_lt.1 hin)
      rw [← Nat.add_assoc] at hdiff ⊢
      obtain ⟨r, hr, hpos⟩ := ih (j := j) (by rw [List.length_drop]; omega)
        (by rw [List.length_drop]; exact Nat.lt_sub_of_add_lt (by omega))
        (by simpa [List.getD_eq_getElem?_getD] using hdiff)
      exact ⟨r, List.mem_cons_of_mem _ hr, hpos⟩

/-- Settles O52: a run is a piece of the modified image, each byte of which differs; runs do not overlap, since the scan
resumes behind each; and no differing byte is passed over. -/
theorem scannedRunsCoverExactlyTheDifferences : Obligations.ScannedRunsCoverExactlyTheDifferences := by
  refine fun o m => ⟨fun r hr => ?_, pairwise_scanFrom o m.length 0 m, fun p hp hdiff => ?_⟩
  · obtain ⟨hpos, hmax⟩ := length_run_of_mem_scanFrom hr
    obtain ⟨-, hprefix, hdiff⟩ := run_of_mem_scanFrom hr
    rw [Nat.sub_zero] at hprefix
    have hlen : r.2.length ≤ m.length - r.1 := List.length_drop ▸ hprefix.length_le
    refine ⟨hpos, hmax, by omega, fun i hi => ?_⟩
    have hbyte : r.2.getD i 0 = m.getD (r.1 + i) 0 := by
      rw [List.getD_eq_getElem?_getD, List.getD_eq_getElem?_getD, ← List.getElem?_drop, List.getElem?_eq_getElem hi,
        hprefix.getElem hi, List.getElem?_eq_getElem]
    exact ⟨hbyte, hbyte ▸ hdiff i hi⟩
  · have hrun := exists_run_of_differs (o := o) (i := 0) le_rfl hp (by rwa [Nat.zero_add])
    rwa [Nat.zero_add] at hrun

/-! ## The runs framed as records (R134, R170) -/

@[simp] theorem offset_frame (off : Word) (run : List Byte) : (frame off run).offset = off := by
  unfold frame
  split <;> rfl

/-- R134: framed as either kind, a run keeps its bytes. -/
theorem toBytes_frame (off : Word) {run : List Byte} (h : run.length ≤ 255) : (frame off run).toBytes = run := by
  unfold frame
  split
  · next hrle =>
    rw [Record.toBytes, BitVec.toNat_ofNat, Nat.mod_eq_of_lt (by omega)]
    exact (List.eq_replicate_of_mem hrle.2).symm
  · rfl

/-- R134: a run of 1 to 255 bytes is framed as a well-formed record. -/
theorem wf_frame (off : Word) {run : List Byte} (h₁ : 1 ≤ run.length) (h₂ : run.length ≤ 255) :
    (frame off run).wf = true := by
  unfold frame
  split
  · rfl
  · exact (Record.wf_literal off run).2 ⟨h₁, h₂⟩

/-- R99, R170: a body that is whole records is applied record by record. -/
theorem applyAll_bodyBytes {rs : List Record} (hrs : ∀ r ∈ rs, r.wf = true) (d : Memory) :
    applyAll d (bodyBytes rs) = some (applyRecords d rs) := by
  induction rs generalizing d with
  | nil => exact applyAll_nil d
  | cons r rs ih =>
    obtain ⟨hr, hrs⟩ := List.forall_mem_cons.1 hrs
    have hbody : bodyBytes (r :: rs) = recBytes r ++ bodyBytes rs := List.flatMap_cons
    rw [hbody, applyAll_of_record (decodeRecord_recBytes_append hr _), List.drop_left, ih hrs]
    rfl

/-! ## The runs written over an image (R170, R171, R200) -/

/-- R170: runs of bytes written over a space, each at its offset. `applyRecords_framed` ties it to the records. -/
def writeRuns (d : Memory) (rs : List (Nat × List Byte)) : Memory := rs.foldl (fun d r => d.put r.1 r.2) d

theorem writeRuns_cons (d : Memory) (r : Nat × List Byte) (rs : List (Nat × List Byte)) :
    writeRuns d (r :: rs) = writeRuns (d.put r.1 r.2) rs := rfl

theorem applyRecords_framed {rs : List (Nat × List Byte)} (hrs : ∀ r ∈ rs, r.1 < 2 ^ 32 ∧ r.2.length ≤ 255) (d : Memory) :
    applyRecords d (rs.map fun r => frame (BitVec.ofNat 32 r.1) r.2) = writeRuns d rs := by
  induction rs generalizing d with
  | nil => rfl
  | cons r rs ih =>
    obtain ⟨⟨hoff, hlen⟩, hrs⟩ := List.forall_mem_cons.1 hrs
    have hfirst : apply1 d (frame (BitVec.ofNat 32 r.1) r.2) = d.put r.1 r.2 := by
      rw [apply1_eq_put, offset_frame, toBytes_frame _ hlen, BitVec.toNat_ofNat, Nat.mod_eq_of_lt hoff]
    exact (congrArg (applyRecords · _) hfirst).trans (ih hrs (d.put r.1 r.2))

theorem wf_writeRuns {d : Memory} (hd : d.wf = true) (rs : List (Nat × List Byte)) : (writeRuns d rs).wf = true := by
  induction rs generalizing d with
  | nil => exact hd
  | cons r rs ih => exact ih (Memory.wf_put hd r.1 r.2)

/-- R170: runs that carry the bytes of `m` leave these where a run is, and the old byte elsewhere. -/
theorem get_writeRuns {m : List Byte} {rs : List (Nat × List Byte)}
    (hrs : ∀ r ∈ rs, ∀ i, i < r.2.length → r.2.getD i 0 = m.getD (r.1 + i) 0) (d : Memory) (p : Nat) :
    (writeRuns d rs).get p = if ∃ r ∈ rs, r.1 ≤ p ∧ p < r.1 + r.2.length then m.getD p 0 else d.get p := by
  induction rs generalizing d with
  | nil => simp [writeRuns]
  | cons r rs ih =>
    obtain ⟨hr, hrs⟩ := List.forall_mem_cons.1 hrs
    rw [writeRuns_cons, ih hrs, Memory.get_put]
    simp only [List.exists_mem_cons_iff]
    by_cases hlater : ∃ q ∈ rs, q.1 ≤ p ∧ p < q.1 + q.2.length
    · rw [if_pos hlater, if_pos (.inr hlater)]
    · rw [if_neg hlater]
      refine ite_congr (propext (or_iff_left hlater).symm) (fun hin => ?_) fun _ => rfl
      obtain ⟨hfrom, hto⟩ := hin.resolve_right hlater
      rw [hr (p - r.1) (by omega), Nat.add_sub_cancel' hfrom]

/-- R171: runs written leave the old end or, further on, the end of one of them. -/
theorem len_writeRuns (d : Memory) (rs : List (Nat × List Byte)) : (writeRuns d rs).len = d.len
    ∨ d.len < (writeRuns d rs).len ∧ ∃ r ∈ rs, (writeRuns d rs).len = r.1 + r.2.length := by
  induction rs generalizing d with
  | nil => exact .inl rfl
  | cons r rs ih =>
    rw [writeRuns_cons, List.exists_mem_cons_iff]
    have hput : (d.put r.1 r.2).len = max d.len (r.1 + r.2.length) ∨ (d.put r.1 r.2).len = d.len := by
      by_cases hnil : r.2 = []
      · exact .inr (by rw [hnil, Memory.put_nil])
      · exact .inl (Memory.len_put d r.1 hnil)
    rcases ih (d.put r.1 r.2) with hlen | ⟨hlt, hrun⟩
    · omega
    · exact .inr ⟨by omega, .inr hrun⟩

/-- R200 `D`: the original with the scan's runs written over it. -/
def rebuilt (o m : List Byte) : Memory := writeRuns (Memory.ofBytes o) (scanRuns o m)

theorem wf_rebuilt (o m : List Byte) : (rebuilt o m).wf = true := wf_writeRuns (Memory.wf_ofBytes o) _

/-- R200: up to its own end the modified image's bytes, from there on the original's. -/
theorem get_rebuilt (o m : List Byte) (p : Nat) :
    (rebuilt o m).get p = if p < m.length then m.getD p 0 else o.getD p 0 := by
  obtain ⟨hruns, -, hcover⟩ := scannedRunsCoverExactlyTheDifferences o m
  have hcarry : ∀ r ∈ scanRuns o m, ∀ i, i < r.2.length → r.2.getD i 0 = m.getD (r.1 + i) 0 := fun r hr i hi => by
    obtain ⟨-, -, -, hbytes⟩ := hruns r hr
    exact (hbytes i hi).1
  rw [rebuilt, get_writeRuns hcarry, Memory.get_ofBytes]
  split
  · next hin =>
    obtain ⟨r, hr, -, hlt⟩ := hin
    obtain ⟨-, -, hend, -⟩ := hruns r hr
    rw [if_pos (by omega)]
  · next hout =>
    split
    · next hp => exact (not_not.1 fun hdiff => hout (hcover p hp hdiff)).symm
    · rfl

/-- R200: the original's length, or more, up to a last byte that differs from the virtual original's zero. -/
theorem len_rebuilt (o m : List Byte) : (rebuilt o m).len = o.length
    ∨ o.length < (rebuilt o m).len ∧ (rebuilt o m).len ≤ m.length ∧ m.getD ((rebuilt o m).len - 1) 0 ≠ 0 := by
  refine (len_writeRuns (Memory.ofBytes o) (scanRuns o m)).imp_right fun ⟨hlt, r, hr, hlen⟩ => ⟨hlt, ?_⟩
  rw [← rebuilt] at hlen hlt
  obtain ⟨hruns, -, -⟩ := scannedRunsCoverExactlyTheDifferences o m
  obtain ⟨hpos, -, hend, hbytes⟩ := hruns r hr
  obtain ⟨-, hdiff⟩ := hbytes (r.2.length - 1) (by omega)
  have hlast : (rebuilt o m).len - 1 = r.1 + (r.2.length - 1) := by omega
  rw [← hlast, virtualByte, List.getD_eq_default o 0 (by rw [Memory.len_ofBytes] at hlt; omega)] at hdiff
  exact ⟨by omega, hdiff⟩

/-- R200: a modified image that is not longer is followed by the original's tail. -/
theorem rebuilt_of_le {o m : List Byte} (h : m.length ≤ o.length) :
    rebuilt o m = Memory.ofBytes (m ++ o.drop m.length) := by
  refine Memory.ext_of_wf (wf_rebuilt o m) (Memory.wf_ofBytes _) ?_ fun p _ => ?_
  · have hlen := len_rebuilt o m
    rw [Memory.len_ofBytes, List.length_append, List.length_drop]
    omega
  · rw [get_rebuilt, Memory.get_ofBytes]
    split
    · next hp => exact (List.getD_append _ _ _ _ hp).symm
    · next hp =>
      rw [List.getD_append_right _ _ _ _ (by omega)]
      simp [List.getD_eq_getElem?_getD, show m.length + (p - m.length) = p by omega]

/-- R200: a longer modified image is cut by zeros that end it, and by no byte the original reaches to. -/
theorem rebuilt_of_lt {o m : List Byte} (h : o.length < m.length) :
    o.length ≤ (rebuilt o m).len ∧ (rebuilt o m).len ≤ m.length
    ∧ rebuilt o m = Memory.ofBytes (m.take (rebuilt o m).len)
    ∧ (∀ i, (rebuilt o m).len ≤ i → i < m.length → m.getD i 0 = 0)
    ∧ (o.length < (rebuilt o m).len → m.getD ((rebuilt o m).len - 1) 0 ≠ 0) := by
  have hlen := len_rebuilt o m
  refine ⟨by omega, by omega, Memory.ext_of_wf (wf_rebuilt o m) (Memory.wf_ofBytes _) ?_ fun p hp => ?_,
    fun i hi him => ?_, fun hlt => ?_⟩
  · rw [Memory.len_ofBytes, List.length_take]
    omega
  · rw [get_rebuilt, if_pos (by omega), Memory.get_ofBytes]
    simp [List.getD_eq_getElem?_getD, hp]
  · have hget := Memory.get_of_len_le (wf_rebuilt o m) hi
    rwa [get_rebuilt, if_pos him] at hget
  · obtain ⟨-, -, hlast⟩ := hlen.resolve_left hlt.ne'
    exact hlast

/-! ## CREATE, then APPLY (R197, R198, R200) -/

/-- R57: CREATE with no access failed leaves none to fail. -/
theorem createInstrs_alwaysPasses {o m : List Byte} {s t : State} (hp : s.phase = .idle) (himg : 0x3F ≤ s.img.len)
    (hio : s.alwaysPasses) (h : runInstrs (createInstrs o m) s = .next t) : t.alwaysPasses := by
  obtain ⟨u, hhgen, hok, hu, -⟩ := exec_hgen_encoding hp himg hio (BitVec.ofNat 32 m.length)
  obtain ⟨v, hrun, hv, -⟩ := runInstrs_rencs_appended (rs := scanRuns o m)
    (fun _ hr => length_run_of_mem_scanFrom hr) hu [.efin]
  rw [createInstrs, runInstrs_cons_ok hhgen hok, hrun, runInstrs_cons_ok (exec_efin_ok hv.phase) rfl, runInstrs] at h
  cases h
  exact hv.passes

/-- R88: a space that is a generated header and a body: what `CRCCHK` and the first `RDEC` find in it. -/
theorem crc_and_body_of_toList {p : Memory} {cart : Vector Byte 3} {crc : Vector Byte 8} {n : Word} {body : List Byte}
    (h : p.toList = hdrBytes cart crc n ++ body) :
    0x4E ≤ p.len ∧ p.read 0x3D 8 = crc ∧ p.slice 0x4E p.len = body := by
  have hlen : 0x4E ≤ p.len := by
    have := congrArg List.length h
    rw [Memory.toList, Memory.length_slice, List.length_append, length_hdrBytes] at this
    omega
  have hhdr : (p.read 0 78).toList = hdrBytes cart crc n := by
    rw [← Memory.take_slice p (b := p.len) (by omega), ← Memory.toList, h, List.take_left' (length_hdrBytes ..)]
  have hbody : (p.slice 0 p.len).drop 78 = body := by
    rw [← Memory.toList, h, List.drop_left' (length_hdrBytes ..)]
  obtain ⟨-, -, -, -, hcrc, -⟩ := headerFieldsStandAtTheirOffsets _ _ _ _ hhdr
  rw [hdrParse_read] at hcrc
  exact ⟨hlen, hcrc, by rwa [Memory.drop_slice] at hbody⟩

/-- R170, R201: the body that CREATE writes takes the original to `rebuilt`. -/
theorem applyAll_scanRecords (o : List Byte) {m : List Byte} (hm : m.length < 2 ^ 32) :
    applyAll (Memory.ofBytes o) (bodyBytes (scanRecords o m)) = some (rebuilt o m) := by
  obtain ⟨hruns, -, -⟩ := scannedRunsCoverExactlyTheDifferences o m
  have hwf : ∀ r ∈ scanRecords o m, r.wf = true := by
    refine List.forall_mem_map.2 fun r hr => ?_
    obtain ⟨hpos, hmax, -⟩ := hruns r hr
    exact wf_frame _ hpos hmax
  rw [applyAll_bodyBytes hwf, scanRecords, applyRecords_framed, rebuilt]
  intro r hr
  obtain ⟨-, hmax, hend, -⟩ := hruns r hr
  exact ⟨by omega, hmax⟩

/-- Settles O53: the patch's CRC field is the original's, so that APPLY goes on to the body, whose records are the scan's
runs and take the original to `rebuilt`. -/
theorem createThenApplyGivesTheModifiedImage : Obligations.CreateThenApplyGivesTheModifiedImage := by
  intro o m s ho hm hp himg hio
  have hlen : 0x3F ≤ s.img.len := by rwa [himg, Memory.len_ofBytes]
  obtain ⟨p, hcreate, hok, hidle, himg', -, hpat⟩ := createWritesHeaderAndScannedRecords o m s ho hm hp himg hio
  obtain ⟨hpatlen, hcrc, hbody⟩ := crc_and_body_of_toList hpat
  have himglen : 0x18 ≤ p.img.len := by rw [himg']; omega
  obtain ⟨t, happly, hend⟩ := exists_applyPatch_appliedAll hidle (createInstrs_alwaysPasses hp hlen hio hcreate)
    hpatlen himglen (by rw [hcrc, himg'])
  rw [hbody, himg', himg, applyAll_scanRecords o hm] at hend
  obtain ⟨hout, -, hdst, -⟩ := hend
  refine ⟨p, t, hcreate, hok, happly, hout, fun hle => hdst.trans (rebuilt_of_le hle), fun hlt => ?_⟩
  rw [hdst]
  exact rebuilt_of_lt hlt

end Sys2Proof.Machine
end

section
/-! Refusal, raising, and the phase `FAULT`: the statements of 60_exceptions.md. -/

namespace Sys2Proof.Machine

/-! ## The one refusal (R101, R220) -/

theorem State.accepts_rpush_iff (s : State) (b : Byte) :
    s.accepts (.rpush b) = true ↔ s.phase = .run ∧ s.runLen ≠ 255 := by
  rw [ne_eq, ← s.full_iff]
  simp [State.accepts]

theorem State.accepts_rflush_iff (s : State) : s.accepts .rflush = true ↔ s.phase = .run ∧ s.runLen ≠ 0 := by
  have hpos : 1 ≤ s.runLen.toNat ↔ s.runLen ≠ 0 := by bv_omega
  simp [State.accepts, hpos]

/-- R163, R164: a record has no refusal of its own. -/
theorem performRecord_not_refused {r : Record} {s t : State} (h : performRecord r s = .next t) :
    t.outcome ≠ some .refused := by
  obtain ⟨_, rfl⟩ | ⟨_, _, _, _, rfl⟩ := performRecord_ends h <;> simp

/-- R220: an instruction is refused when its condition of R101 fails, and no end that it has when the condition holds, a
raise included, is a refusal. -/
theorem exec_refused_or_accepted {i : Instr} {s t : State} (h : exec i s = .next t) :
    (s.accepts i = false ∧ t = s.returns .refused) ∨ (s.accepts i = true ∧ t.outcome ≠ some .refused) := by
  cases i with
  | rle off f n => exact .inr ⟨rfl, performRecord_not_refused (r := .runLength off f n) h⟩
  | lit off d => exact .inr ⟨rfl, performRecord_not_refused (r := .literal off d) h⟩
  | reset =>
    obtain rfl : s.doReset.returns .ok = t := by simpa [exec, execReset] using h
    exact .inr ⟨rfl, by simp⟩
  | hgen n =>
    obtain ⟨hp, rfl⟩ | ⟨hp, ⟨-, rfl⟩ | ⟨-, -, rfl⟩ | ⟨-, -, -, rfl⟩ | ⟨-, -, -, -, rfl⟩ | ⟨-, -, -, -, rfl⟩⟩ :=
      execHgen_cases h <;> simp [State.accepts, hp]
  | rbegin off =>
    obtain ⟨hp, rfl⟩ | ⟨hp, rfl⟩ := execRbegin_cases h <;> simp [State.accepts, hp]
  | rpush b =>
    rw [← Bool.not_eq_true, s.accepts_rpush_iff]
    obtain ⟨hp, rfl⟩ | ⟨hp, hfull, rfl⟩ := execRpush_cases h
    · exact .inl ⟨fun ⟨hrun, hne⟩ => hp.elim (absurd hrun) hne, rfl⟩
    · exact .inr ⟨⟨hp, hfull⟩, by simp⟩
  | rflush =>
    rw [← Bool.not_eq_true, s.accepts_rflush_iff]
    obtain ⟨hp, rfl⟩ | ⟨hp, hrun, hend⟩ := execRflush_cases h
    · exact .inl ⟨fun ⟨hrun, hne⟩ => hp.elim (absurd hrun) hne, rfl⟩
    · obtain ⟨-, rfl⟩ | ⟨-, rfl⟩ := hend <;> exact .inr ⟨⟨hp, hrun⟩, by simp⟩
  | efin =>
    obtain ⟨hp, rfl⟩ | ⟨hp, rfl⟩ := execEfin_cases h <;> simp [State.accepts, hp]
  | hparse =>
    obtain ⟨hp, rfl⟩ | ⟨hp, ⟨-, rfl⟩ | ⟨-, -, rfl⟩ | ⟨-, -, rfl⟩⟩ := execHparse_cases h <;> simp [State.accepts, hp]
  | ident =>
    obtain ⟨hp, rfl⟩ | ⟨hp, ⟨-, rfl⟩ | ⟨-, -, rfl⟩ | ⟨-, -, rfl⟩⟩ := execIdent_cases h <;> simp [State.accepts, hp]
  | crcchk =>
    obtain ⟨hp, rfl⟩ | ⟨hp, ⟨-, rfl⟩ | ⟨-, -, rfl⟩ | ⟨-, -, -, rfl⟩ | ⟨-, -, -, -, rfl⟩ | ⟨-, -, -, -, -, rfl⟩
        | ⟨-, -, -, -, -, rfl⟩⟩ := execCrcchk_cases h <;> simp [State.accepts, hp]
  | dcopy =>
    obtain ⟨hp, rfl⟩ | ⟨hp, ⟨-, rfl⟩ | ⟨-, -, rfl⟩ | ⟨-, -, -, rfl⟩ | ⟨-, -, -, rfl⟩⟩ :=
      execDcopy_cases h <;> simp [State.accepts, hp]
  | rdec =>
    obtain ⟨hp, rfl⟩ | ⟨hp, ⟨-, rfl⟩ | ⟨-, -, rfl⟩ | ⟨-, -, rfl⟩ | ⟨-, -, -, rfl⟩ | ⟨-, -, -, rfl⟩ | ⟨-, -, -, h⟩⟩ :=
      execRdec_cases h
    case inr.inr.inr.inr.inr.inr => exact .inr ⟨by simp [State.accepts, hp], performRecord_not_refused h⟩
    all_goals simp [State.accepts, hp]

theorem exec_of_accepts_eq_false {i : Instr} {s : State} (ha : s.accepts i = false) :
    exec i s = .next (s.returns .refused) := by
  obtain ⟨t, h⟩ := exec_next i s
  obtain ⟨-, rfl⟩ | ⟨ha', -⟩ := exec_refused_or_accepted h
  · exact h
  · simp [ha] at ha'

theorem exec_not_refused_of_accepts {i : Instr} {s : State} (ha : s.accepts i = true) :
    ∃ t, exec i s = .next t ∧ t.outcome ≠ some .refused := by
  obtain ⟨t, h⟩ := exec_next i s
  obtain ⟨ha', -⟩ | ⟨-, ho⟩ := exec_refused_or_accepted h
  · simp [ha] at ha'
  · exact ⟨t, h, ho⟩

/-- Settles O10: the two ends of `exec_refused_or_accepted`, and a word that selects no command is refused by the step. -/
theorem refusedExactlyWhenNotAccepted : Obligations.RefusedExactlyWhenNotAccepted :=
  ⟨fun _ _ ha => exec_of_accepts_eq_false ha, fun _ _ ha => exec_not_refused_of_accepts ha,
    fun _ _ _ _ hhost hdec => (step_of_host_cons hhost).trans (issue_of_decodeCommand_error hdec _)⟩

/-! ## The phase `FAULT` (R215, R218) -/

/-- R101: no command but `RESET` has `FAULT` among its phases. -/
theorem State.accepts_eq_false_of_fault {s : State} (hs : s.phase = .fault) {i : Instr} (hi : i.isCommand = true)
    (hreset : i ≠ .reset) : s.accepts i = false := by
  cases i with
  | rle | lit => simp [Instr.isCommand] at hi
  | reset => exact absurd rfl hreset
  | hgen | rbegin | rpush | rflush | efin | hparse | ident | crcchk | dcopy | rdec => simp [State.accepts, hs]

/-- R246: in `FAULT` the host may bind no space (log 6). -/
theorem hostMayBind_fault (sp : Space) : hostMayBind sp .fault = false := by cases sp <;> rfl

/-- Settles O12: a command is refused because `FAULT` accepts none but `RESET`, a word that is no command is refused
anywhere, a step without a move waits, and a binding is no next state. -/
theorem faultStaysUntilReset : Obligations.FaultStaysUntilReset := by
  intro s t hs h hline hcommand
  rcases step_cases h with
    ⟨hnil, rfl⟩ | ⟨cw, i, hhead, hdec, hi, hexec⟩ | ⟨cw, e, -, -, rfl⟩ | ⟨hhead, -⟩ | ⟨sp, bs, -, hbind, -⟩
  · exact ⟨by rw [hnil, List.tail_nil, ← hnil], by simp [hnil]⟩
  · have hreset : i ≠ .reset := fun hr => hcommand cw hhead (hr ▸ hdec)
    have hrefused : s.tookMove.accepts i = false := State.accepts_eq_false_of_fault hs hi hreset
    rw [exec_of_accepts_eq_false hrefused] at hexec
    obtain rfl : s.tookMove.returns .refused = t := by simpa using hexec
    exact ⟨rfl, fun _ _ => rfl⟩
  · exact ⟨rfl, fun _ _ => rfl⟩
  · exact absurd hhead hline
  · simp [hs, hostMayBind_fault] at hbind

/-! ## What a raise records (R210, R214) -/

/-- R214: a raise writes `PHASE`, the outcome and the error registers, and takes one draw. -/
theorem State.raise_frame (s : State) (e : Exc) :
    s.raise e = { s with
      phase := .fault, outcome := some (.fault e.kind), errKind := some e.kind, draws := s.draws + 1
      errCrcPat := (s.raise e).errCrcPat, errCrcImg := (s.raise e).errCrcImg
      errSpace := (s.raise e).errSpace, errPos := (s.raise e).errPos } := by
  cases e <;> rfl

/-- Settles O41: `raise_frame` says what stays; the registers of a kind are written by the raise of that kind. -/
theorem raiseRecordsKindAndInformation : Obligations.RaiseRecordsKindAndInformation := by
  refine fun s e => ⟨s.raise_phase e, s.raise_outcome e, s.raise_frame e, ?_, ?_, ?_⟩
  · rintro p g rfl
    exact ⟨rfl, rfl, rfl⟩
  · rintro sp a rfl
    exact ⟨rfl, rfl, by rintro rfl; rfl, by rintro rfl; rfl, by rintro rfl; rfl⟩
  · rintro a rfl
    exact ⟨rfl, rfl, rfl⟩

end Sys2Proof.Machine
end

section
/-! The command `RESET`, and where the block is when an operation has ended: the statements of 70_reset_and_hazards.md. -/

namespace Sys2Proof.Machine

/-! ## `RESET` (R241) -/

theorem exec_reset (s : State) : exec .reset s = .next (s.doReset.returns .ok) := rfl

theorem State.doReset_returns (s : State) (o : CmdOutcome) :
    s.doReset.returns o = State.afterReset s.draws s.img s.pat s.dst (some o) s.host s.env := rfl

/-- Settles O9: the command is the reset input's update with the outcome `OK` returned, and has no condition on `PHASE`. -/
theorem resetCommandDoesWhatResetDoes : Obligations.ResetCommandDoesWhatResetDoes := by
  intro s arg
  obtain ⟨hdec, -⟩ := operandBitsAreReadOrIgnored arg
  rw [← s.doReset_returns]
  exact ⟨hdec, exec_reset s, s.doReset_phase, s.doReset_errKind⟩

/-! ## The ends of operations (R250) -/

theorem Operation.goodOutcome_ne_refused (op : Operation) : CmdOutcome.refused ≠ op.goodOutcome := by
  cases op <;> decide

theorem Operation.goodOutcome_ne_fault (op : Operation) (k : ExcKind) : CmdOutcome.fault k ≠ op.goodOutcome := by
  cases op <;> simp [Operation.goodOutcome]

/-- R250: a record is no command, so it ends no operation. -/
theorem Operation.toInstr_ne_lastCommand (op : Operation) (r : Record) : r.toInstr ≠ op.lastCommand := by
  cases op <;> cases r <;> simp [Record.toInstr, Operation.lastCommand]

/-- R250: the command that ends an operation well leaves `IDLE`: `EFIN` and the `RDEC` at the end of the patch enter it,
`HPARSE` and `IDENT` do not leave it. -/
theorem phase_of_endedWell {op : Operation} {i : Instr} {s t : State} (h : exec i s = .next t) (hw : op.endedWell i t) :
    t.phase = .idle := by
  obtain ⟨hi, ho⟩ := hw
  cases exec_ends h with
  | reset | patchEnded | patchApplied => rfl
  | headerLatched _ _ hp | named _ _ hp => exact hp
  | refused => exact absurd (Option.some.inj ho) op.goodOutcome_ne_refused
  | raised | latchesLost | nameLost | recordNotWritten =>
    rw [State.raise_outcome] at ho
    exact absurd (Option.some.inj ho) (op.goodOutcome_ne_fault _)
  | record r => exact absurd hi (op.toInstr_ne_lastCommand r)
  | headerWritten | runOpened | bytePushed | runFlushed | crcMatched | imageCopied => cases op <;> cases hi
  | recordApplied =>
    -- `RDEC` is the last command of APPLY alone, and there `OK` is not the good outcome.
    cases op with
    | apply => cases ho
    | create | rename | inspect => cases hi

/-- R214, R250: only a raise returns `FAULT(K)`, and a raise enters `FAULT`. -/
theorem phase_of_endedBadly {i : Instr} {s t : State} (h : exec i s = .next t) (hb : t.endedBadly) : t.phase = .fault := by
  obtain ⟨k, hk⟩ := hb
  cases exec_ends h with
  | raised | latchesLost | nameLost | recordNotWritten => exact State.raise_phase _ _
  | refused | record | reset | headerWritten | runOpened | bytePushed | runFlushed | patchEnded | headerLatched | named
  | crcMatched | imageCopied | patchApplied | recordApplied => cases hk

theorem State.errInv.errKind_eq_none {s : State} (hs : s.errInv) (hp : s.phase ≠ .fault) : s.errKind = none :=
  not_not.1 fun herr => hp (hs.2 herr)

/-- Settles O55: a good end is in `IDLE` and a bad end in `FAULT`, so no end is in another phase; `ERR_KIND` follows from
the phase, since every instruction keeps `errInv`. -/
theorem operationsEndInIdleOrFault : Obligations.OperationsEndInIdleOrFault := by
  refine ⟨fun i t => ⟨Iff.rfl, Iff.rfl, Iff.rfl, Iff.rfl⟩, fun i s t hs h => ?_⟩
  have ht : t.errInv := exec_keeps_errInv hs h
  refine ⟨fun op hw => ?_, fun hb => ?_, fun hidle hfault => ⟨fun op hw => hidle ?_, fun hb => hfault ?_⟩⟩
  · have hp : t.phase = .idle := phase_of_endedWell h hw
    exact ⟨hp, ht.errKind_eq_none (by simp [hp])⟩
  · have hp : t.phase = .fault := phase_of_endedBadly h hb
    exact ⟨hp, ht.1 hp⟩
  · exact phase_of_endedWell h hw
  · exact phase_of_endedBadly h hb

end Sys2Proof.Machine
end
